-- ==== Sys2Proof/Word.lean ====
section
/-! DEFINITION. Bytes, 16-bit words and sequences of a fixed length: what every register of the CORE is made of
(spec 00_scope.md R10 to R12). -/

namespace Sys2Proof

/-- A byte: bit 7 most significant (R11). -/
abbrev Byte := BitVec 8

/-- A 16-bit word: the CRC register (R27) and a window word (R121). -/
abbrev Word := BitVec 16

/-- A sequence of exactly `n` elements, `X[0..n-1]` of R12. -/
structure Sized (α : Type) (n : Nat) where
  toList : List α
  length_eq : toList.length = n
  deriving DecidableEq, Repr

/-- `n` bytes. -/
abbrev Bytes (n : Nat) := Sized Byte n

/-- A block: 16 bytes (R16, R60). -/
abbrev Block := Bytes 16

/-- A service or system code: a pair of bytes in wire order, never a number (R44, R63). -/
structure Code where
  b0 : Byte
  b1 : Byte
  deriving DecidableEq, Repr

namespace Sized

/-- `n` copies of one element. -/
def fill (n : Nat) (a : α) : Sized α n := ⟨List.replicate n a, List.length_replicate⟩

/-- The first `n` elements of a list, followed by as many `a` as are needed. -/
def ofListD (n : Nat) (a : α) (l : List α) : Sized α n :=
  ⟨(l ++ List.replicate n a).take n, by simp⟩

/-- The sequence with `xs` written over the elements from `pos` on; what would fall beyond the end is lost. -/
def overlay (v : Sized α n) (pos : Nat) (xs : List α) : Sized α n :=
  ⟨(v.toList.take pos ++ xs ++ v.toList.drop (pos + xs.length)).take n, by
    have := v.length_eq
    simp only [List.length_take, List.length_append, List.length_drop]
    omega⟩

end Sized

/-- `zero(n)` of R12. -/
def Bytes.zero (n : Nat) : Bytes n := Sized.fill n 0

/-- `n` bytes from a list, zero-padded: the "zero-padded to 16" of R299, R320. -/
def Bytes.ofList (n : Nat) (l : List Byte) : Bytes n := Sized.ofListD n 0 l

/-- `X[i]` of a byte sequence (R12). -/
def Bytes.at (v : Bytes n) (i : Nat) : Byte := v.toList.getD i 0

end Sys2Proof
end

