-- ==== Sys2Proof/Config.lean ====
section
/-! DEFINITION. The sizes and the open parameters of spec 00_scope.md R9. The tables and constants whose values the source
does not give (R9, "decision") stand in Machine/Params.lean. -/

namespace Sys2Proof.Config

/-- `N_BLOCKS`: real data blocks (R9, R46). -/
def nBlocks : Nat := 12

/-- `BLOCK_SIZE`: bytes of a block (R9). The type `Block` has this length. -/
def blockSize : Nat := 16

/-- `N_TABLE`: entries of a code table (R9, R41). -/
def nTable : Nat := 4

/-- `N_ELOG`: error-log slots (R9, R47). -/
def nElog : Nat := 2

/-- `ID_LEN`: bytes of IDm and of PMm (R9). -/
def idLen : Nat := 8

/-- `SAMPLES_PER_BIT` (R9, D3); the phase and symbol tables are built for it. -/
def samplesPerBit : Nat := 2

/-- `CAP_BUF`: capacity of the capture buffer in sample bytes (R9, D9). -/
def capBuf : Nat := 528

/-- Capacity of `DEC`: `CAP_BUF / 2` (R24). -/
def decBuf : Nat := 264

/-- Capacity of `CMD` and `RSP` (R25, R26). -/
def packetBuf : Nat := 255

/-- `MAX_L`: largest declared length the assembler accepts (R9, R182, C7). -/
def maxL : Nat := 253

/-- `T_POLL_DELAY` (R9, R381, D36): open, read by no rule and by no definition of the model. Log 16. -/
opaque tPollDelay : Nat

/-- The byte that `ELOG_RESET` is made of in `State.reset` (R58 leaves it open). DESIGN CHOICE, log 2. -/
def elogResetByte : Byte := 0

/-- The byte that `NV_INIT` is made of in `State.reset` (R9 leaves it open). DESIGN CHOICE, log 3. -/
def nvInitByte : Byte := 0

/-- What every register that R58 leaves unspecified holds at reset. DESIGN CHOICE, log 1. -/
def unspecifiedByte : Byte := 0

end Sys2Proof.Config
end

