-- ==== Sys2Proof/Syntax.lean ====
section
/-! DEFINITION. The instructions: command packets, one constructor for each row of spec/opcode_table.json, with the operands
of spec 30_encoding.md R95 taken apart. A packet too short for its command is an operand form of its own, since the
spec gives it an effect (silence); so every packet of two bytes or more is some instruction. -/

namespace Sys2Proof

/-- The operands of an addressed command (R94), whose own operands, from `CMD[10]` on, are a `β`. -/
inductive Addressed (β : Type) where
  /-- `L < 10`: no whole IDm; the bytes `CMD[2,L)`. -/
  | noIdm (bytes : List Byte)
  /-- `L >= 10`, but shorter than the command needs; `short` are the bytes `CMD[10,L)`. -/
  | short (idm : Bytes 8) (bytes : List Byte)
  /-- All operands are there: `idm` is `CMD[2,10)`. -/
  | full (idm : Bytes 8) (ops : β)
  deriving DecidableEq, Repr

/-- Polling's operands (R219): `CMD[2,L)`. -/
inductive PollOps where
  /-- `L < 5`. -/
  | short (bytes : List Byte)
  /-- System code bytes `CMD[2]`, `CMD[3]`, sub-code `CMD[4]`, and what is never read (R220). -/
  | full (sys : Code) (rc : Byte) (unread : List Byte)
  deriving DecidableEq, Repr

/-- Request Service (R245): the node count `CMD[10]` and the node codes, never read. -/
structure ReqSvcOps where
  n : Byte
  nodes : List Byte
  deriving DecidableEq, Repr

/-- Read (R260): `m = CMD[10]`, `svc = CMD[11], CMD[12]`, `n = CMD[13]`, and `CMD[14,L)`: the block list and what follows it. -/
structure ReadOps where
  m : Byte
  svc : Code
  n : Byte
  list : List Byte
  deriving DecidableEq, Repr

/-- Write (R260): as Read, and `body` is `CMD[14,L)`: the block list, then the block data. -/
structure WriteOps where
  m : Byte
  svc : Code
  n : Byte
  body : List Byte
  deriving DecidableEq, Repr

/-- Search Service Code (R250): the index bytes `CMD[10]`, `CMD[11]`, and what is never read. -/
structure SearchOps where
  lo : Byte
  hi : Byte
  unread : List Byte
  deriving DecidableEq, Repr

/-- A command packet of two bytes or more (R92), by its row of spec/opcode_table.json. Where no operand follows the IDm, the
`List Byte` holds the bytes that are never read. -/
inductive Instr where
  /-- POLL, R219. -/
  | poll (ops : PollOps)
  /-- ECHO, R224: `data` is `CMD[3,L)`. -/
  | echo (data : List Byte)
  /-- REQSVC, R246. -/
  | reqsvc (a : Addressed ReqSvcOps)
  /-- REQRSP, R230. -/
  | reqrsp (a : Addressed (List Byte))
  /-- READ, R265. -/
  | read (a : Addressed ReadOps)
  /-- WRITE, R270. -/
  | write (a : Addressed WriteOps)
  /-- SEARCH, R250. -/
  | search (a : Addressed SearchOps)
  /-- REQSYS, R253. -/
  | reqsys (a : Addressed (List Byte))
  /-- AUTH1, R232. -/
  | auth1 (a : Addressed (List Byte))
  /-- UNSUPPORTED_EVEN, R233, with its code `CMD[1]`. -/
  | unsupportedEven (code : Byte) (a : Addressed (List Byte))
  /-- ODD_CODE, R227, with its code `CMD[1]`. -/
  | oddCode (code : Byte) (a : Addressed (List Byte))
  deriving DecidableEq, Repr

end Sys2Proof
end

