-- ==== Sys2Proof/WellFormed.lean ====
section
/-! DEFINITION. Which terms of `Instr` are packets the Frame Assembler can deliver (spec 30_encoding.md R92, R95, R97): the
length is at most `MAX_L`, a packet has the operand form of its length, and a catch-all row holds no code of an earlier row. -/

namespace Sys2Proof

/-- Checks on the operands of an addressed command: the IDm is missing exactly when `L < 10` (R94); a short form has fewer
bytes after the IDm than the command needs (`need`, R95); the whole packet fits (`MAX_L`, R182). -/
def Addressed.wellFormed (need : Nat) (okOps : β → Bool) (opsLen : β → Nat) : Addressed β → Bool
  | .noIdm bytes => bytes.length < 8
  | .short _ bytes => bytes.length < need
  | .full _ ops => okOps ops && 10 + opsLen ops ≤ Config.maxL

/-- The first byte after the code, `CMD[2]`, or 0xFF where the packet ends before it (R97). -/
def Addressed.firstByte (a : Addressed β) : Byte :=
  match a with
  | .noIdm bytes => bytes.headD 0xFF
  | .short idm _ => idm.toList.headD 0xFF
  | .full idm _ => idm.toList.headD 0xFF

/-- The check for the commands whose minimum is the IDm itself (R226, D22): they have no short form. -/
def Addressed.bareWellFormed (a : Addressed (List Byte)) : Bool :=
  a.wellFormed 0 (fun _ => true) List.length

/-- Codes that are rows of their own among the even codes (R96); 0xF0 only with a zero byte after it (R225). -/
def isUnsupportedEven (code first : Byte) : Bool :=
  code.getLsbD 0 == false &&
    !([0x00, 0x02, 0x04, 0x06, 0x08, 0x0A, 0x0C, 0x10] : List Byte).contains code &&
    !(code == 0xF0 && first == 0x00)

/-- A packet as the Frame Assembler delivers it. -/
def Instr.wellFormed : Instr → Bool
  | .poll (.short bytes) => bytes.length < 3
  | .poll (.full _ _ unread) => 5 + unread.length ≤ Config.maxL
  | .echo data => 3 + data.length ≤ Config.maxL
  | .reqsvc a => a.wellFormed 1 (fun _ => true) (fun o => 1 + o.nodes.length)
  | .reqrsp a => a.bareWellFormed
  | .read a => a.wellFormed 6 (fun o => 2 ≤ o.list.length) (fun o => 4 + o.list.length)
  | .write a => a.wellFormed 22 (fun o => 18 ≤ o.body.length) (fun o => 4 + o.body.length)
  | .search a => a.wellFormed 2 (fun _ => true) (fun o => 2 + o.unread.length)
  | .reqsys a => a.bareWellFormed
  | .auth1 a => a.bareWellFormed
  | .unsupportedEven code a => a.bareWellFormed && isUnsupportedEven code a.firstByte
  | .oddCode code a => a.bareWellFormed && code.getLsbD 0

/-- `i` is a packet the Frame Assembler can deliver. -/
abbrev Instr.WellFormed (i : Instr) : Prop := i.wellFormed = true

end Sys2Proof
end

