-- ==== Sys2Proof/Decode.lean ====
section
/-! DEFINITION. From the bytes of a Command packet to an instruction and back (spec 30_encoding.md R92 to R99): `decode`, total
on any bytes, and `encode`. -/

namespace Sys2Proof

/-- Why bytes are no instruction. -/
inductive DecodeError where
  /-- `L < 2`: there is no command code (R217). -/
  | noCommandCode
  /-- The first byte is not the number of bytes (R92: `CMD[0] = L`). -/
  | lengthByteMismatch
  /-- No row of the table matches; the two catch-all rows leave no such word. -/
  | noRow
  deriving DecidableEq, Repr

/-- The rows of spec/opcode_table.json. -/
inductive Row where
  | poll | echo | reqsvc | reqrsp | read | write | search | reqsys | auth1 | unsupportedEven | oddCode
  deriving DecidableEq, Repr

/-- One line of the table: `W &&& mask = value` selects the row (R97). -/
structure RowPattern where
  row : Row
  value : Word
  mask : Word
  deriving DecidableEq, Repr

/-- spec/opcode_table.json in file order. -/
def opcodeTable : List RowPattern :=
  [ ⟨.poll, 0x0000, 0xFF00⟩,
    ⟨.echo, 0xF000, 0xFFFF⟩,
    ⟨.reqsvc, 0x0200, 0xFF00⟩,
    ⟨.reqrsp, 0x0400, 0xFF00⟩,
    ⟨.read, 0x0600, 0xFF00⟩,
    ⟨.write, 0x0800, 0xFF00⟩,
    ⟨.search, 0x0A00, 0xFF00⟩,
    ⟨.reqsys, 0x0C00, 0xFF00⟩,
    ⟨.auth1, 0x1000, 0xFF00⟩,
    ⟨.unsupportedEven, 0x0000, 0x0100⟩,
    ⟨.oddCode, 0x0100, 0x0100⟩ ]

/-- The decode word `W = CMD[1]·256 + CMD[2]`, with 0xFF for a missing `CMD[2]` (R97, C9); `body` is `CMD[2,L)`. -/
def decodeWord (code : Byte) (body : List Byte) : Word := code ++ body.headD 0xFF

/-- The first row that matches a decode word (R97). -/
def rowOf (w : Word) : Option Row :=
  (opcodeTable.find? fun r => w &&& r.mask == r.value).map RowPattern.row

/-- The IDm and the operands after it (R94); `ops` answers none where the bytes after the IDm are too few. -/
def decodeAddressed (ops : List Byte → Option β) (body : List Byte) : Addressed β :=
  if body.length < 8 then .noIdm body
  else
    match ops (body.drop 8) with
    | none => .short (Bytes.ofList 8 (body.take 8)) (body.drop 8)
    | some o => .full (Bytes.ofList 8 (body.take 8)) o

/-- Polling's operands (R219, R220). -/
def decodePollOps : List Byte → PollOps
  | s0 :: s1 :: rc :: unread => .full ⟨s0, s1⟩ rc unread
  | bytes => .short bytes

/-- Request Service's operands (R245, R246: `L >= 11`). -/
def decodeReqSvcOps : List Byte → Option ReqSvcOps
  | n :: nodes => some ⟨n, nodes⟩
  | _ => none

/-- Read's operands (R260, R265: `L >= 16`). -/
def decodeReadOps : List Byte → Option ReadOps
  | m :: v0 :: v1 :: n :: list => if 2 ≤ list.length then some ⟨m, ⟨v0, v1⟩, n, list⟩ else none
  | _ => none

/-- Write's operands (R260, R270: `L >= 32`). -/
def decodeWriteOps : List Byte → Option WriteOps
  | m :: v0 :: v1 :: n :: body => if 18 ≤ body.length then some ⟨m, ⟨v0, v1⟩, n, body⟩ else none
  | _ => none

/-- Search Service Code's operands (R250: `L >= 12`). -/
def decodeSearchOps : List Byte → Option SearchOps
  | lo :: hi :: unread => some ⟨lo, hi, unread⟩
  | _ => none

/-- The instruction of a row, from the code and `body = CMD[2,L)`. -/
def decodeRow (r : Row) (code : Byte) (body : List Byte) : Instr :=
  match r with
  | .poll => .poll (decodePollOps body)
  | .echo => .echo (body.drop 1)
  | .reqsvc => .reqsvc (decodeAddressed decodeReqSvcOps body)
  | .reqrsp => .reqrsp (decodeAddressed some body)
  | .read => .read (decodeAddressed decodeReadOps body)
  | .write => .write (decodeAddressed decodeWriteOps body)
  | .search => .search (decodeAddressed decodeSearchOps body)
  | .reqsys => .reqsys (decodeAddressed some body)
  | .auth1 => .auth1 (decodeAddressed some body)
  | .unsupportedEven => .unsupportedEven code (decodeAddressed some body)
  | .oddCode => .oddCode code (decodeAddressed some body)

/-- The instruction that the bytes of a packet are (R92, R96, R97). -/
def decode : List Byte → Except DecodeError Instr
  | len :: code :: body =>
    if len.toNat ≠ body.length + 2 then .error .lengthByteMismatch
    else
      match rowOf (decodeWord code body) with
      | some r => .ok (decodeRow r code body)
      | none => .error .noRow
  | _ => .error .noCommandCode

/-! ### The encoder -/

/-- The bytes of an addressed command from `CMD[2]` on (R94, R95). -/
def encodeAddressed (ops : β → List Byte) : Addressed β → List Byte
  | .noIdm bytes => bytes
  | .short idm bytes => idm.toList ++ bytes
  | .full idm o => idm.toList ++ ops o

/-- `CMD[1]` of an instruction (R96). -/
def Instr.code : Instr → Byte
  | .poll _ => 0x00
  | .echo _ => 0xF0
  | .reqsvc _ => 0x02
  | .reqrsp _ => 0x04
  | .read _ => 0x06
  | .write _ => 0x08
  | .search _ => 0x0A
  | .reqsys _ => 0x0C
  | .auth1 _ => 0x10
  | .unsupportedEven code _ => code
  | .oddCode code _ => code

/-- `CMD[2,L)` of an instruction (R95). -/
def Instr.body : Instr → List Byte
  | .poll (.short bytes) => bytes
  | .poll (.full sys rc unread) => sys.b0 :: sys.b1 :: rc :: unread
  | .echo data => 0x00 :: data
  | .reqsvc a => encodeAddressed (fun o => o.n :: o.nodes) a
  | .reqrsp a => encodeAddressed id a
  | .read a => encodeAddressed (fun o => o.m :: o.svc.b0 :: o.svc.b1 :: o.n :: o.list) a
  | .write a => encodeAddressed (fun o => o.m :: o.svc.b0 :: o.svc.b1 :: o.n :: o.body) a
  | .search a => encodeAddressed (fun o => o.lo :: o.hi :: o.unread) a
  | .reqsys a => encodeAddressed id a
  | .auth1 a => encodeAddressed id a
  | .unsupportedEven _ a => encodeAddressed id a
  | .oddCode _ a => encodeAddressed id a

/-- The bytes of an instruction: `L`, the code, the rest (R92). `L` is computed from the bytes written (R103). -/
def encode (i : Instr) : List Byte := BitVec.ofNat 8 (i.body.length + 2) :: i.code :: i.body

/-! ### The opcode table's numbering -/

/-- The bytes of the first `words` 16-bit words of `w`, each word's high byte first (R97: `CMD[1]` is the high byte). -/
def wordBytes : Nat → Nat → List Byte
  | 0, _ => []
  | words + 1, w => BitVec.ofNat 8 (w / 256) :: BitVec.ofNat 8 w :: wordBytes words (w / 65536)

/-- The packet whose decode word (and, above bit 15, the bytes after it) are the bits of `w`: the longest packet (`MAX_L`), every
byte above `nbits` zero. The length byte is no part of a decode word. Log 12. -/
def tableWordPacket (nbits w : Nat) : List Byte :=
  let given := wordBytes ((nbits + 15) / 16) (w % 2 ^ nbits)
  (BitVec.ofNat 8 Config.maxL :: given ++ List.replicate Config.maxL 0).take Config.maxL

/-- The instruction the decoder reads from a row's bits, numbered as spec/opcode_table.json numbers them. -/
def decodeTableWord (nbits w : Nat) : Option Instr := (decode (tableWordPacket nbits w)).toOption

end Sys2Proof
end

