-- ==== Sys2Proof/Machine/Crc16.lean ====
section
/-! DEFINITION. The CRC-16 generator (spec 43_crc16_generator.md): CCITT/XMODEM form, polynomial 0x1021, seed 0. -/

namespace Sys2Proof.Machine

/-- One shift of the register (R171). -/
def crcShift (c : Word) : Word := if c.msb then c <<< 1 ^^^ 0x1021 else c <<< 1

/-- `k` shifts. -/
def crcShifts : Nat → Word → Word
  | 0, c => c
  | k + 1, c => crcShifts k (crcShift c)

/-- One byte taken (R171): its bits enter at the high end, bit 7 first. -/
def crcByte (c : Word) (b : Byte) : Word := crcShifts 8 (c ^^^ (b ++ (0 : Byte)))

/-- `crc16(X)` (R171). -/
def crc16 (x : List Byte) : Word := x.foldl crcByte 0

/-- The trailer bytes of a checksum, high byte first (R172). -/
def crcTrailer (c : Word) : List Byte := [c.extractLsb' 8 8, c.extractLsb' 0 8]

end Sys2Proof.Machine
end

