-- ==== Sys2Proof/Machine/Params.lean ====
section
/-! DEFINITION. The tables and constants of spec 00_scope.md R9 that the source names without a value, with the defaults the spec
decides (U13). The blocks take their tables as arguments; the machine gives them these. Log 15. -/

namespace Sys2Proof.Machine.Params

/-- `MIN_CAPTURE` (R142, D10). -/
def minCapture : Nat := 16

/-- `SIG_MASK[p]`, `SIG_VAL[p]` for `p = 0..7` (R123, D6). -/
def signature : List (Word × Word) :=
  [ (0xFFFF, 0x9A59), (0xFFFF, 0xCD2C), (0xFFFF, 0x6696), (0xFFFF, 0xB34B),
    (0xFFFF, 0x59A5), (0xFFFF, 0xACD2), (0xFFFF, 0x5669), (0xFFFF, 0xAB34) ]

/-- `PHASE_TABLE[p][k]`: index of the source byte and bit mask (R157, D13). -/
def phaseTable : List (List (Nat × Byte)) :=
  [ [(0, 0x80), (0, 0x20), (0, 0x08), (0, 0x02), (1, 0x80), (1, 0x20), (1, 0x08), (1, 0x02)],
    [(0, 0x40), (0, 0x10), (0, 0x04), (0, 0x01), (1, 0x40), (1, 0x10), (1, 0x04), (1, 0x01)],
    [(0, 0x20), (0, 0x08), (0, 0x02), (1, 0x80), (1, 0x20), (1, 0x08), (1, 0x02), (2, 0x80)],
    [(0, 0x10), (0, 0x04), (0, 0x01), (1, 0x40), (1, 0x10), (1, 0x04), (1, 0x01), (2, 0x40)],
    [(0, 0x08), (0, 0x02), (1, 0x80), (1, 0x20), (1, 0x08), (1, 0x02), (2, 0x80), (2, 0x20)],
    [(0, 0x04), (0, 0x01), (1, 0x40), (1, 0x10), (1, 0x04), (1, 0x01), (2, 0x40), (2, 0x10)],
    [(0, 0x02), (1, 0x80), (1, 0x20), (1, 0x08), (1, 0x02), (2, 0x80), (2, 0x20), (2, 0x08)],
    [(0, 0x01), (1, 0x40), (1, 0x10), (1, 0x04), (1, 0x01), (2, 0x40), (2, 0x10), (2, 0x04)] ]

/-- `SYM[n]` for `n = 0..15` (R197, D4). -/
def symbolTable : List Byte :=
  [ 0x55, 0x56, 0x59, 0x5A, 0x65, 0x66, 0x69, 0x6A, 0x95, 0x96, 0x99, 0x9A, 0xA5, 0xA6, 0xA9, 0xAA ]

/-- `SYNC_HEADER` (R90, D5). -/
def syncHeader : List Byte := [0x00, 0x00, 0x00, 0x00, 0x00, 0x00, 0xB2, 0x4D]

/-- `FLUSH` (R198, D19): two raw symbol bytes. -/
def flush : List Byte := [0x00, 0x00]

/-- `COMM_CAP` (R222, D24). -/
def commCap : List Byte := [0x00, 0x83]

end Sys2Proof.Machine.Params
end

