-- ==== Sys2Proof/Machine/Extractor.lean ====
section
/-! DEFINITION. The Bit-Phase Extractor (spec 42_bit_phase_extractor.md). -/

namespace Sys2Proof.Machine

/-- `need(p)` (R155). -/
def need (p : Fin 8) : Nat := if p.val < 2 then 2 else 3

/-- One output bit: is the masked bit of its source byte set (R156)? -/
def sourceBit (w : List Byte) (source : Nat × Byte) : Bool := w.getD source.1 0 &&& source.2 != 0

/-- A byte from its bits, bit 7 first: `v <- 2·v + bit` (R156). -/
def byteOfBits (bits : List Bool) : Byte := bits.foldl (fun v bit => v <<< 1 ||| (if bit then 1 else 0)) 0

/-- `Extract(W, p, pol)` (R156). -/
def extract (table : List (List (Nat × Byte))) (w : List Byte) (p : Fin 8) (pol : Bool) : Byte :=
  let v := byteOfBits ((table.getD p.val []).map (sourceBit w))
  if pol then v ^^^ 0xFF else v

end Sys2Proof.Machine
end

