-- ==== Sys2Proof/Machine/State.lean ====
section
/-! DEFINITION. The state of the CORE (spec 10_state.md), the environment it sees through its interfaces, the reasons a step can
stop, and the machine right after reset. -/

namespace Sys2Proof.Machine

/-- The seven phases of the sequencer register `SEQ` (R21). -/
inductive Seq where
  | load | capture | sync | assemble | dispatch | transmit | delay
  deriving DecidableEq, Repr

/-- The four framing failures (R330); `Failure.code` in Machine/Ops.lean gives their codes. -/
inductive Failure where
  | frameTooLong | noSync | lengthError | checksumError
  deriving DecidableEq, Repr

/-- What a diagnostic carries: the port `d_code[2:0]` (R54). -/
abbrev DiagCode := BitVec 3

/-- Storage that is reached by address: a list of cells in canonical form (`Memory.wf` in Machine/Ops.lean). Log 4. -/
abbrev Memory := List Host.Cell

/-- A code table: four entries (R44, R45). -/
abbrev CodeTable := Sized Code 4

/-- The Card State `CS` (R40 to R47). -/
structure CardState where
  idm : Bytes 8
  pmm : Bytes 8
  svc : CodeTable
  sys : CodeTable
  /-- `CS.BLK[0..11]`: byte `i` of block `b` at address `16·b + i`. -/
  blk : Memory
  elog : Sized Block 2
  deriving DecidableEq, Repr

/-- The non-volatile image `NV` (R48). -/
structure NvImage where
  idm : Bytes 8
  pmm : Bytes 8
  svc : CodeTable
  sys : CodeTable
  /-- `NV.BLK[0..11]`, laid out as `CardState.blk`. -/
  blk : Memory
  deriving DecidableEq, Repr

/-- One symbol byte as the sink took it, with the level of the gate (R375, R386). -/
structure Emitted where
  gate : Bool
  byte : Byte
  deriving DecidableEq, Repr

/-- What the encoder still has to do before it closes the gate (R198 to R202). -/
inductive TxAction where
  | emit (symbol : Byte)
  | gateOn
  deriving DecidableEq, Repr

/-- The environment agents of R20 as plain data: what they will answer and what they were handed. The MODEL's own fields. -/
structure Env where
  /-- The bytes `NextSample()` will return; with none left it never returns (R50, R145, R385). Log 5. -/
  samples : List Byte
  /-- The level of `rst` at each coming boundary; beyond the list it stays 0 (R55, R360). Log 6. -/
  rst : List Bool
  /-- Whether each coming `NvRead` or `NvUpdate` is answered; beyond the list all are (R53, R374). Log 7. -/
  store : List Bool
  /-- Whether each coming `EmitSymbol` is answered; beyond the list all are (R51, R374). Log 7. -/
  sink : List Bool
  /-- The parameter `ELOG_RESET` of this run (R9, R58). Log 2. -/
  elogReset : Sized Block 2
  /-- The symbol bytes handed over, oldest first (R386). Log 8. -/
  sent : List Emitted
  /-- The codes of the diagnostics emitted, oldest first; that one was delivered is not said (R331, R386). Log 8. -/
  diags : List DiagCode
  deriving DecidableEq, Repr

/-- The state of the CORE with its environment. -/
structure State where
  /-- `SEQ` (R21). -/
  seq : Seq
  /-- `BUF` (R22). -/
  buf : Bytes Config.capBuf
  /-- `N_CAP` (R22). -/
  nCap : Nat
  /-- `OFF` (R23). -/
  off : Nat
  /-- `PH` (R23). -/
  ph : Fin 8
  /-- `POL` (R23): true is 1, inverted. -/
  pol : Bool
  /-- `DEC` (R24). -/
  dec : Bytes Config.decBuf
  /-- `N_DEC` (R24). -/
  nDec : Nat
  /-- `CMD` (R25). -/
  cmd : Bytes Config.packetBuf
  /-- `CMD_LEN` (R25). -/
  cmdLen : Nat
  /-- `RSP` (R26). -/
  rsp : Bytes Config.packetBuf
  /-- `RSP_VALID` (R26). -/
  rspValid : Bool
  /-- `CRC` (R27). -/
  crc : Word
  /-- `GATE` (R28). -/
  gate : Bool
  /-- The Card State (R40). -/
  cs : CardState
  /-- The non-volatile image (R48). -/
  nv : NvImage
  /-- The encoder's remaining actions while it sends (R29); the MODEL's own field. Log 9. -/
  tx : Option (List TxAction)
  /-- An interface call is in progress that its agent never answers (R374); the MODEL's own field. Log 7. -/
  waiting : Bool
  env : Env
  deriving DecidableEq, Repr

/-- Why the machine stops. Nothing in this hardware traps (R102), so no run reaches one. -/
inductive Fault where
  /-- Raised by `step` in phase DISPATCH when the CMD register holds no packet: `CMD_LEN` is 2 or more and `CMD[0]` differs from it,
  which R25 excludes. Safe: no state a run reaches is such a state, and the spec gives it no meaning. Log 13. -/
  | malformedCommandRegister
  deriving DecidableEq, Repr

/-- Why an instruction has no meaning. -/
inductive Refusal where
  /-- Raised by an arm of `exec` whose instruction has no meaning yet; none is left. Safe: the machine stops. -/
  | notModelled (mnemonic : String)
  deriving DecidableEq, Repr

/-- `n` bytes that R58 leaves unspecified. DESIGN CHOICE, log 1. -/
def unspecifiedBytes (n : Nat) : Bytes n := Sized.fill n Config.unspecifiedByte

/-- A code table that R58 leaves unspecified. DESIGN CHOICE, log 1. -/
def unspecifiedTable : CodeTable := Sized.fill 4 ⟨Config.unspecifiedByte, Config.unspecifiedByte⟩

/-- The Card State after reset and before `LOAD` ends: the log holds `ELOG_RESET`, the rest is unspecified (R58). -/
def CardState.afterReset (elogReset : Sized Block 2) : CardState where
  idm := unspecifiedBytes 8
  pmm := unspecifiedBytes 8
  svc := unspecifiedTable
  sys := unspecifiedTable
  blk := []
  elog := elogReset

/-- Every register at its value after reset (R58, R360); `NV` and the environment are what they are. -/
def State.afterReset (nv : NvImage) (env : Env) : State where
  seq := .load
  buf := unspecifiedBytes _
  nCap := 0
  off := 0
  ph := 0
  pol := false
  dec := unspecifiedBytes _
  nDec := 0
  cmd := unspecifiedBytes _
  cmdLen := 0
  rsp := unspecifiedBytes _
  rspValid := false
  crc := 0
  gate := false
  cs := CardState.afterReset env.elogReset
  nv := nv
  tx := none
  waiting := false
  env := env

/-- `NV_INIT` of `State.reset`. DESIGN CHOICE, log 3. -/
def NvImage.init : NvImage where
  idm := Sized.fill 8 Config.nvInitByte
  pmm := Sized.fill 8 Config.nvInitByte
  svc := Sized.fill 4 ⟨Config.nvInitByte, Config.nvInitByte⟩
  sys := Sized.fill 4 ⟨Config.nvInitByte, Config.nvInitByte⟩
  blk := []

/-- The environment of `State.reset`: no sample to come, `rst` low, every store and sink call answered, nothing sent yet.
DESIGN CHOICE, log 2, 5, 6, 7. -/
def Env.init : Env where
  samples := []
  rst := []
  store := []
  sink := []
  elogReset := Sized.fill 2 (Sized.fill 16 Config.elogResetByte)
  sent := []
  diags := []

/-- The machine right after reset (R58, R360). -/
def State.reset : State := State.afterReset NvImage.init Env.init

end Sys2Proof.Machine
end

