-- ==== Sys2Proof/Machine/Ops.lean ====
section
/-! DEFINITION. The named operations over memory, registers and interfaces. Every outcome of a frame goes through one of three:
`raise` (a framing failure, R330), `noResponse` (a silent drop, R332) and `respond` (R216); going on is `enterCapture` (R338). -/

namespace Sys2Proof.Machine

/-! ### Storage by address -/

/-- What an address reads as that the memory does not list. DESIGN CHOICE, log 3. -/
def Memory.unlisted : Byte := 0

/-- Canonical form: addresses strictly rising, no entry that reads as unlisted. -/
abbrev Memory.wf (m : Memory) : Prop :=
  m.Pairwise (fun c d => c.1 < d.1) ∧ ∀ c ∈ m, c.2 ≠ Memory.unlisted

/-- The byte at an address. -/
def Memory.read : Memory → Nat → Byte
  | [], _ => Memory.unlisted
  | c :: m, a => if c.1 = a then c.2 else Memory.read m a

/-- The memory without any entry at an address. -/
def Memory.erase (m : Memory) (a : Nat) : Memory := m.filter (fun c => c.1 != a)

/-- The memory with one more cell, before the first of a higher address. -/
def Memory.insert : Memory → Host.Cell → Memory
  | [], c => [c]
  | d :: m, c => if c.1 < d.1 then c :: d :: m else d :: Memory.insert m c

/-- One byte written. -/
def Memory.write (m : Memory) (a : Nat) (v : Byte) : Memory :=
  if v = Memory.unlisted then m.erase a else (m.erase a).insert (a, v)

/-- Bytes written at rising addresses from `a` on. -/
def Memory.writeBytes : Memory → Nat → List Byte → Memory
  | m, _, [] => m
  | m, a, v :: vs => Memory.writeBytes (m.write a v) (a + 1) vs

/-- A whole block (R64, R65). -/
def Memory.readBlock (m : Memory) (b : Nat) : Block :=
  ⟨(List.range 16).map (fun i => m.read (16 * b + i)), by simp⟩

/-- A whole block replaced (R64, R65). -/
def Memory.writeBlock (m : Memory) (b : Nat) (v : Block) : Memory := m.writeBytes (16 * b) v.toList

/-! ### Code tables -/

/-- The sentinel entry (R41). -/
def sentinel : Code := ⟨0, 0⟩

/-- The entries before the first sentinel (R41). -/
def CodeTable.active (t : CodeTable) : List Code := t.toList.takeWhile (fun c => c != sentinel)

/-- `active_len(T)` (R41). -/
def CodeTable.activeLen (t : CodeTable) : Nat := t.active.length

/-- `T[i]`. -/
def CodeTable.entry (t : CodeTable) (i : Nat) : Code := t.toList.getD i sentinel

/-- The bytes of a list of codes, in stored order (R63). -/
def codeBytes : List Code → List Byte
  | [] => []
  | c :: cs => c.b0 :: c.b1 :: codeBytes cs

/-- `Pack(T)` (R299): all four entries, zero-padded to 16. -/
def CodeTable.pack (t : CodeTable) : Block := Bytes.ofList 16 (codeBytes t.toList)

/-- The table that a Write payload holds: `T[i] = (v[2i], v[2i+1])` (R314). -/
def CodeTable.ofBlock (v : Block) : CodeTable :=
  ⟨[⟨v.at 0, v.at 1⟩, ⟨v.at 2, v.at 3⟩, ⟨v.at 4, v.at 5⟩, ⟨v.at 6, v.at 7⟩], rfl⟩

/-! ### Registers -/

/-- The code that a framing failure's diagnostic carries (R330, D35). -/
def Failure.code : Failure → DiagCode
  | .frameTooLong => 1
  | .noSync => 2
  | .lengthError => 3
  | .checksumError => 4

namespace State

/-- The capture window `BUF[0,N_CAP)` (R22). -/
def window (s : State) : List Byte := s.buf.toList.take s.nCap

/-- The decoded bytes `DEC[0,N_DEC)` (R24). -/
def decoded (s : State) : List Byte := s.dec.toList.take s.nDec

/-- The Command packet `CMD[0,CMD_LEN)` (R25): where an instruction is fetched. -/
def packet (s : State) : List Byte := s.cmd.toList.take s.cmdLen

/-- The Response packet `RSP[0,RSP[0])` (R26). -/
def response (s : State) : List Byte := s.rsp.toList.take (s.rsp.at 0).toNat

/-- The output `tx_gate` (R52). -/
def txGate (s : State) : Bool := s.gate

/-- `RSP[pos, pos+len(xs)) <- xs`. -/
def putRsp (s : State) (pos : Nat) (xs : List Byte) : State := { s with rsp := s.rsp.overlay pos xs }

/-- `CMD[0,L) <- p; CMD_LEN <- L` (R184). -/
def putCmd (s : State) (p : List Byte) : State := { s with cmd := s.cmd.overlay 0 p, cmdLen := p.length }

/-! ### The outcomes of a frame -/

/-- `SEQ <- CAPTURE`; on entry `N_CAP <- 0` (R141, R338). Log 10. -/
def enterCapture (s : State) : State := { s with seq := .capture, nCap := 0 }

/-- One event on the diagnostic sink, with the failure's code (R54, R331). -/
def diagnose (s : State) (f : Failure) : State := { s with env := { s.env with diags := s.env.diags ++ [f.code] } }

/-- `raise <Failure>` (R330, R337): a diagnostic, `RSP_VALID = 0`, `SEQ <- CAPTURE`, nothing saved. Log 17. -/
def raise (s : State) (f : Failure) : State := ({ s.diagnose f with rspValid := false } : State).enterCapture

/-- `NoResponse` (R216, R332). -/
def noResponse (s : State) : State := ({ s with rspValid := false } : State).enterCapture

/-- A handler returned a response (R216). -/
def respond (s : State) : State := { s with rspValid := true, seq := .transmit }

/-- The header of an addressed command's response: `RSP[1] <- CMD[1]+1`, `RSP[2,10) <- CMD[2,10)` (R228). -/
def putHeader (s : State) (code : Byte) (idm : Bytes 8) : State := s.putRsp 1 ((code + 1) :: idm.toList)

/-- `RSP[0] <- L` (R93). -/
def putLength (s : State) (len : Nat) : State := s.putRsp 0 [BitVec.ofNat 8 len]

/-! ### Reset -/

/-- `rst` sampled 1 (R58, R360, R361): `NV` survives, with the environment; all else takes its reset value. -/
def powerLoss (s : State) : State := State.afterReset s.nv s.env

/-- Is `rst` 1 at this boundary (R55)? -/
def rstNow (s : State) : Bool := s.env.rst.headD false

/-- One boundary has passed. -/
def passBoundary (s : State) : State := { s with env := { s.env with rst := s.env.rst.tail } }

/-! ### Blocking calls -/

/-- An agent does not answer a call: the CORE stays in its phase until reset (R374, U10). Log 7. -/
def hang (s : State) : State := { s with waiting := true }

end State

/-- Of the next `k` calls to an agent: are all answered, and what is left of its schedule? The call that is not answered is
the last one made. -/
def takeAnswers : Nat → List Bool → Bool × List Bool
  | 0, l => (true, l)
  | _ + 1, [] => (true, [])
  | k + 1, true :: l => takeAnswers k l
  | _ + 1, false :: l => (false, l)

/-! ### The non-volatile store -/

/-- A call `NvUpdate(field, v)` (R53, R66): its field and value. -/
inductive NvWrite where
  | idm (v : Bytes 8)
  | pmm (v : Bytes 8)
  | svc (t : CodeTable)
  | sys (t : CodeTable)
  | blk (b : Nat) (v : Block)
  deriving DecidableEq, Repr

/-- `NV.field <- v` and `CS.field <- v` in one atomic step (R66). -/
def State.nvUpdate (s : State) (u : NvWrite) : State :=
  match u with
  | .idm v => { s with nv := { s.nv with idm := v }, cs := { s.cs with idm := v } }
  | .pmm v => { s with nv := { s.nv with pmm := v }, cs := { s.cs with pmm := v } }
  | .svc t => { s with nv := { s.nv with svc := t }, cs := { s.cs with svc := t } }
  | .sys t => { s with nv := { s.nv with sys := t }, cs := { s.cs with sys := t } }
  | .blk b v => { s with nv := { s.nv with blk := s.nv.blk.writeBlock b v }, cs := { s.cs with blk := s.cs.blk.writeBlock b v } }

/-- How a sequence of `NvUpdate` calls ended. -/
inductive NvOutcome where
  /-- All are complete. -/
  | done (s : State)
  /-- A reset fell between two of them, or one is never answered: the command goes no further. -/
  | cut (s : State)
  deriving DecidableEq, Repr

/-- `NvUpdate` calls in order, each blocking; a reset can fall between two of them, never inside one (R66, R313, R360). Log 6, 7. -/
def nvUpdates : List NvWrite → State → NvOutcome
  | [], s => .done s
  | u :: us, s =>
    let (answered, store) := takeAnswers 1 s.env.store
    let s := { s with env := { s.env with store := store } }
    if answered then
      let s := s.nvUpdate u
      match us with
      | [] => .done s
      | _ :: _ => if s.rstNow then .cut s.passBoundary.powerLoss else nvUpdates us s.passBoundary
    else .cut s.hang

/-- The sixteen `NvRead` calls of `LOAD` (R362) move the image into the Card State; the error log is not touched. -/
def State.loadCard (s : State) : State :=
  { s with cs := { s.cs with idm := s.nv.idm, pmm := s.nv.pmm, svc := s.nv.svc, sys := s.nv.sys, blk := s.nv.blk } }

/-! ### The address check and the error log -/

/-- `AddressMatch()` (R226): the low nibble of the first IDm byte, and bytes 1 to 7. -/
def State.addressMatch (s : State) (idm : Bytes 8) : Bool :=
  idm.at 0 &&& 0x0F == s.cs.idm.at 0 &&& 0x0F && idm.toList.drop 1 == s.cs.idm.toList.drop 1

/-- `LogError()` (R320): slot 0 takes the first 16 bytes of the Command packet, zero-padded; slot 1 is never written. -/
def State.logError (s : State) : State :=
  { s with cs := { s.cs with elog := s.cs.elog.overlay 0 [Bytes.ofList 16 s.packet] } }

end Sys2Proof.Machine
end

