-- ==== Sys2Proof/Machine/Assembler.lean ====
section
/-! DEFINITION. The Frame Assembler with its CRC-16 validator (spec 44_frame_assembler.md): phase ASSEMBLE. -/

namespace Sys2Proof.Machine

/-- The data bytes of the window from `OFF + 4` on (R181): one for each two sample bytes, as long as all source bytes are inside
the window. -/
def decodeWindow (p : Fin 8) (pol : Bool) : List Byte → List Byte
  | b0 :: b1 :: rest =>
    if need p ≤ rest.length + 2 then
      extract Params.phaseTable ((b0 :: b1 :: rest).take (need p)) p pol :: decodeWindow p pol rest
    else []
  | _ => []

/-- The two trailer bytes as a number, `t` of R183. -/
def trailerWord (hi lo : Byte) : Word := hi ++ lo

/-- A trailer is accepted if it equals the checksum or differs from it in bit 0 only (R183, R185). -/
def trailerOk (c t : Word) : Bool := t == c || t ^^^ c == 1

/-- The length and checksum checks on the decoded bytes, and acceptance (R182 to R184). -/
def checkFrame (d : List Byte) (s : State) : State :=
  match d with
  | [] => s.raise .lengthError
  | l :: _ =>
    if Config.maxL < l.toNat then s.raise .lengthError
    else if d.length < l.toNat + 2 then s.raise .lengthError
    else
      let s := { s with crc := crc16 (d.take l.toNat) }
      if trailerOk (crc16 (d.take l.toNat)) (trailerWord (d.getD l.toNat 0) (d.getD (l.toNat + 1) 0)) then
        { s.putCmd (d.take l.toNat) with seq := .dispatch }
      else s.raise .checksumError

/-- Phase ASSEMBLE: the decoding fills `DEC[0,N_DEC)` (R181), then the checks. -/
def assembleStep (s : State) : State :=
  let d := decodeWindow s.ph s.pol (s.window.drop (s.off + 4))
  checkFrame d { s with dec := s.dec.overlay 0 d, nDec := d.length }

end Sys2Proof.Machine
end

