-- ==== Sys2Proof/Machine/Capture.lean ====
section
/-! DEFINITION. Frame Capture (spec 41_frame_capture.md): phase CAPTURE, one sample byte a step. -/

namespace Sys2Proof.Machine

/-- An idle-line marker (R140). -/
def isMarker (b : Byte) : Bool := b == 0x00 || b == 0xFF

/-- What becomes of one sample byte (R141, R142, R144). -/
def captureByte (b : Byte) (s : State) : State :=
  if isMarker b then
    if Params.minCapture ≤ s.nCap then { s with seq := .sync } else s
  else
    let s := { s with buf := s.buf.overlay s.nCap [b], nCap := s.nCap + 1 }
    if s.nCap = Config.capBuf then s.raise .frameTooLong else s

/-- `NextSample()` and what follows it. With no sample left the call never returns: the CORE waits (R145). -/
def captureStep (s : State) : State :=
  match s.env.samples with
  | [] => s
  | b :: rest => captureByte b { s with env := { s.env with samples := rest } }

end Sys2Proof.Machine
end

