-- ==== Sys2Proof/Machine/BlockMap.lean ====
section
/-! DEFINITION. The Virtual Block Map (spec 49_virtual_block_map.md): what each block number reads as and what a write to it
does. -/

namespace Sys2Proof.Machine

/-- The constant of block 0x88 (R302). -/
def block88 : List Byte := [0xFF, 0xFF, 0xFF, 0x00, 0xFF]

/-- `MemRead(b, 16)` (R291 to R305); none is `unresolved`. -/
def memRead (cs : CardState) (b : Byte) : Option Block :=
  if b.toNat < Config.nBlocks then some (cs.blk.readBlock b.toNat)
  else if b.toNat < 16 then some (Bytes.zero 16)
  else if b = 0xE0 then cs.elog.toList[0]?
  else if b = 0xE1 then cs.elog.toList[1]?
  else if b = 0x81 then some (Bytes.zero 16)
  else if b = 0x82 then some (Bytes.ofList 16 (cs.idm.toList ++ [0x00, 0x78]))
  else if b = 0x83 then some (Bytes.ofList 16 (cs.idm.toList ++ cs.pmm.toList))
  else if b = 0x84 then some cs.svc.pack
  else if b = 0x85 then some cs.sys.pack
  else if b = 0x86 ∨ b = 0x87 then some (Bytes.zero 16)
  else if b = 0x88 then some (Bytes.ofList 16 block88)
  else if b = 0x90 ∨ b = 0x91 ∨ b = 0x92 then some (Bytes.zero 16)
  else none

/-- `MemWrite(b, 16, v, n)` (R310 to R316): the `NvUpdate` calls it makes, in order; none is `unwritable`. What is
writable depends on `b` and `n` alone. -/
def memWrite (b : Byte) (v : Block) (n : Nat) : Option (List NvWrite) :=
  if b.toNat < Config.nBlocks then some [.blk b.toNat v]
  else if b = 0x83 then
    if n = 1 then some [.idm (Bytes.ofList 8 (v.toList.take 8)), .pmm (Bytes.ofList 8 (v.toList.drop 8))] else none
  else if b = 0x84 then if n = 1 then some [.svc (CodeTable.ofBlock v)] else none
  else if b = 0x85 then if n = 1 then some [.sys (CodeTable.ofBlock v)] else none
  else if b = 0x80 ∨ b = 0x90 ∨ b = 0x91 then some []
  else none

/-- The reads of a Read command, in request order, each copied to `RSP[13+16j, ..)`; false at the first unresolved block,
where it stops (R265). -/
def readBlocks : List Byte → Nat → State → Bool × State
  | [], _, s => (true, s)
  | b :: bs, j, s =>
    match memRead s.cs b with
    | none => (false, s)
    | some d => readBlocks bs (j + 1) (s.putRsp (13 + 16 * j) d.toList)

/-- The writes of a Write command, in list order, up to the first unwritable block: the `NvUpdate` calls of the blocks before
it, and whether there was none (R270, R271). -/
def planWrites (n : Nat) : List (Byte × Block) → List NvWrite × Bool
  | [] => ([], true)
  | (b, v) :: rest =>
    match memWrite b v n with
    | none => ([], false)
    | some us => (us ++ (planWrites n rest).1, (planWrites n rest).2)

end Sys2Proof.Machine
end

