-- ==== Sys2Proof/Machine/Flags.lean ====
section
/-! DEFINITION. The status flags `(flag1, flag2)`, bytes `RSP[10]` and `RSP[11]` (spec 30_encoding.md R100, C1; 10_state.md R30): the
CORE has no other flags. -/

namespace Sys2Proof.Machine

/-- The in-band failures of Read and Write (R333). -/
inductive StatusFailure where
  /-- The service count is not 1. -/
  | serviceCount
  /-- The block count is outside 1..12. -/
  | blockCount
  /-- Unknown service (Read), or malformed block list. -/
  | serviceOrList
  /-- An unresolved (Read) or unwritable (Write) block. -/
  | block
  deriving DecidableEq, Repr

/-- `flag2` of a failure (R100). -/
def StatusFailure.flag2 : StatusFailure → Byte
  | .serviceCount => 0xA1
  | .blockCount => 0xA2
  | .serviceOrList => 0xA6
  | .block => 0xA8

/-- `RSP[10] <- flag1; RSP[11] <- flag2`. -/
def State.putFlags (s : State) (flag1 flag2 : Byte) : State := s.putRsp 10 [flag1, flag2]

/-- `StatusFail(f2)` (R261): the error log, then the 12-byte failure reply. -/
def State.statusFail (s : State) (f : StatusFailure) : State :=
  ((s.logError.putLength 12).putFlags 0xFF f.flag2).respond

/-- The success flags 00/00 (R100). -/
def State.statusOk (s : State) : State := s.putFlags 0x00 0x00

end Sys2Proof.Machine
end

