-- ==== Sys2Proof/Machine/Operands.lean ====
section
/-! DEFINITION. How operands are read from a packet: block lists (spec 48_read_write.md R262), block data, service codes, the
Search index, Polling's system code (30_encoding.md R98, R99, R101). -/

namespace Sys2Proof.Machine

/-- `ParseList(n)` (R262) on the bytes from `CMD[14]` on: the number of bytes consumed and the block numbers, or none for the
spec's "zero bytes consumed". A list that runs past the end of the packet fails. -/
def parseList : Nat → List Byte → Option (Nat × List Byte)
  | 0, _ => some (0, [])
  | n + 1, lead :: b :: rest =>
    if lead = 0x80 then
      (parseList n rest).map fun (used, bs) => (used + 2, b :: bs)
    else if lead = 0x00 then
      match rest with
      | last :: rest' =>
        if last = 0x00 then (parseList n rest').map fun (used, bs) => (used + 3, b :: bs) else none
      | [] => none
    else none
  | _ + 1, _ => none

/-- The block count is legal: `n` in 1..12 (R265, R270). -/
def blockCountOk (n : Byte) : Bool := 1 ≤ n.toNat && n.toNat ≤ Config.nBlocks

/-- The node count is legal: `n` in 1..32 (R246). -/
def nodeCountOk (n : Byte) : Bool := 1 ≤ n.toNat && n.toNat ≤ 32

/-- The `j`-th block of a Write's data (R98), from the bytes after the block list. -/
def dataBlock (data : List Byte) (j : Nat) : Block := Bytes.ofList 16 ((data.drop (16 * j)).take 16)

/-- Block numbers paired with their data, in list order (R270). -/
def pairBlocks (data : List Byte) : Nat → List Byte → List (Byte × Block)
  | _, [] => []
  | j, b :: bs => (b, dataBlock data j) :: pairBlocks data (j + 1) bs

/-- `ServiceResolves(v0, v1)` (R266): the wildcard FF FF, or an entry of the active prefix. -/
def serviceResolves (svc : CodeTable) (v : Code) : Bool :=
  v == ⟨0xFF, 0xFF⟩ || svc.active.contains v

/-- `idx = CMD[10] + 256·CMD[11]` (R98, R250). -/
def searchIndex (o : SearchOps) : Nat := o.lo.toNat + 256 * o.hi.toNat

/-- Does a stored code match Polling's request bytes, 0xFF matching any byte (R221)? -/
def codeMatches (request entry : Code) : Bool :=
  (request.b0 == 0xFF || request.b0 == entry.b0) && (request.b1 == 0xFF || request.b1 == entry.b1)

/-- `SelectSlot(s0, s1)` (R221): FF FF forces slot 0; else the lowest matching index of the active prefix. -/
def selectSlot (sys : CodeTable) (request : Code) : Option Nat :=
  if request = ⟨0xFF, 0xFF⟩ then some 0 else sys.active.findIdx? (codeMatches request)

/-- What Polling appends for its sub-code (R222); none for a sub-code above 2. -/
def pollExtra (commCap : List Byte) (sys : CodeTable) (slot : Nat) (rc : Byte) : Option (List Byte) :=
  if rc = 0 then some []
  else if rc = 1 then some (codeBytes [sys.entry slot])
  else if rc = 2 then some commCap
  else none

/-- The first IDm byte of a Polling reply (R223): for a slot other than 0 the slot is its high nibble. -/
def pollFirstByte (slot : Nat) (first : Byte) : Byte :=
  if slot = 0 then first else BitVec.ofNat 8 (slot * 16) + (first &&& 0x0F)

end Sys2Proof.Machine
end

