-- ==== Sys2Proof/Machine/Dispatcher.lean ====
section
/-! DEFINITION. The commands that spec 46_command_dispatcher.md defines itself: Polling, Echo, Request Response, Authentication1,
and the two catch-all rows; and what every addressed command shares (R226 to R228). -/

namespace Sys2Proof.Machine

/-- An addressed command with an even code (R218): silence for a packet without a whole IDm or with another card's; otherwise the
header is written (R228) and the handler runs, silence again where the packet is shorter than it needs (R235 (c), (e)). -/
def addressed (code : Byte) (handler : β → State → State) (a : Addressed β) (s : State) : State :=
  match a with
  | .noIdm _ => s.noResponse
  | .short idm _ => if s.addressMatch idm then (s.putHeader code idm).noResponse else s.noResponse
  | .full idm ops => if s.addressMatch idm then handler ops (s.putHeader code idm) else s.noResponse

/-- `Polling()` (R219 to R223) on the request's system code and sub-code. -/
def polling (request : Code) (rc : Byte) (s : State) : State :=
  match selectSlot s.cs.sys request with
  | none => s.noResponse
  | some slot =>
    match pollExtra Params.commCap s.cs.sys slot rc with
    | none => s.noResponse
    | some extra =>
      let s := (s.putLength (18 + extra.length)).putRsp 1 [0x01]
      let s := (s.putRsp 2 s.cs.idm.toList).putRsp 2 [pollFirstByte slot (s.cs.idm.at 0)]
      ((s.putRsp 10 s.cs.pmm.toList).putRsp 18 extra).respond

/-- POLL (R219, R220). -/
def execPoll (ops : PollOps) (s : State) : Host.Outcome State Fault Refusal :=
  match ops with
  | .short _ => .next s.noResponse
  | .full sys rc _ => .next (polling sys rc s)

/-- ECHO (R224): `RSP[0,L) <- CMD[0,L)`. -/
def execEcho (_data : List Byte) (s : State) : Host.Outcome State Fault Refusal :=
  .next (s.putRsp 0 s.packet).respond

/-- `RequestResponse()` (R230). -/
def requestResponse (s : State) : State := ((s.putLength 11).putRsp 10 [0x00]).respond

/-- REQRSP (R230). -/
def execReqrsp (a : Addressed (List Byte)) (s : State) : Host.Outcome State Fault Refusal :=
  .next (addressed 0x04 (fun _ => requestResponse) a s)

/-- AUTH1 (R232): no response, after the address and parity checks. -/
def execAuth1 (a : Addressed (List Byte)) (s : State) : Host.Outcome State Fault Refusal :=
  .next (addressed 0x10 (fun _ => State.noResponse) a s)

/-- UNSUPPORTED_EVEN (R233): no response, after the address check. -/
def execUnsupportedEven (code : Byte) (a : Addressed (List Byte)) (s : State) : Host.Outcome State Fault Refusal :=
  .next (addressed code (fun _ => State.noResponse) a s)

/-- ODD_CODE (R227): no response, whatever the address, and before the header is written (R218). -/
def execOddCode (_code : Byte) (_a : Addressed (List Byte)) (s : State) : Host.Outcome State Fault Refusal :=
  .next s.noResponse

end Sys2Proof.Machine
end

