-- ==== Sys2Proof/Machine/ReadWrite.lean ====
section
/-! DEFINITION. Read Without Encryption and Write Without Encryption (spec 48_read_write.md). -/

namespace Sys2Proof.Machine

/-- `Read()` (R265), the checks in its order. -/
def readCommand (ops : ReadOps) (s : State) : State :=
  if ops.m ≠ 1 then s.statusFail .serviceCount
  else if !serviceResolves s.cs.svc ops.svc then s.statusFail .serviceOrList
  else if !blockCountOk ops.n then s.statusFail .blockCount
  else
    match parseList ops.n.toNat ops.list with
    | none => s.statusFail .serviceOrList
    | some (_, bs) =>
      match readBlocks bs 0 s with
      | (false, s) => s.statusFail .block
      | (true, s) => ((s.putLength (13 + 16 * ops.n.toNat)).statusOk.putRsp 12 [ops.n]).respond

/-- `Write()` (R270, R271), the checks in its order; no rollback. `14 + ops.body.length` is `L`. -/
def writeCommand (ops : WriteOps) (s : State) : State :=
  if ops.m ≠ 1 then s.statusFail .serviceCount
  else if !blockCountOk ops.n then s.statusFail .blockCount
  else
    match parseList ops.n.toNat ops.body with
    | none => s.statusFail .serviceOrList
    | some (used, bs) =>
      if 14 + ops.body.length ≠ 14 + used + 16 * ops.n.toNat then s.noResponse
      else
        match nvUpdates (planWrites ops.n.toNat (pairBlocks (ops.body.drop used) 0 bs)).1 s with
        | .cut s => s
        | .done s =>
          if (planWrites ops.n.toNat (pairBlocks (ops.body.drop used) 0 bs)).2 then (s.putLength 12).statusOk.respond
          else s.statusFail .block

/-- READ (R265). -/
def execRead (a : Addressed ReadOps) (s : State) : Host.Outcome State Fault Refusal :=
  .next (addressed 0x06 readCommand a s)

/-- WRITE (R270). -/
def execWrite (a : Addressed WriteOps) (s : State) : Host.Outcome State Fault Refusal :=
  .next (addressed 0x08 writeCommand a s)

end Sys2Proof.Machine
end

