-- ==== Sys2Proof/Machine/ServiceCommands.lean ====
section
/-! DEFINITION. Request Service, Search Service Code, Request System Code (spec 47_service_commands.md). -/

namespace Sys2Proof.Machine

/-- `RequestService()` (R246): key version 00 00 for each of `n` nodes. -/
def requestService (ops : ReqSvcOps) (s : State) : State :=
  if nodeCountOk ops.n then
    (((s.putLength (11 + 2 * ops.n.toNat)).putRsp 10 [ops.n]).putRsp 11 (List.replicate (2 * ops.n.toNat) 0)).respond
  else s.noResponse

/-- The code Search Service Code answers (R250): FF FF for an index at or beyond the active prefix. -/
def searchCode (svc : CodeTable) (idx : Nat) : Code := svc.active.getD idx ⟨0xFF, 0xFF⟩

/-- `SearchServiceCode()` (R250). -/
def searchServiceCode (ops : SearchOps) (s : State) : State :=
  ((s.putLength 12).putRsp 10 (codeBytes [searchCode s.cs.svc (searchIndex ops)])).respond

/-- `RequestSystemCode()` (R253): the active entries; silence for an empty table. -/
def requestSystemCode (s : State) : State :=
  let k := s.cs.sys.activeLen
  if k = 0 then s.noResponse
  else (((s.putLength (11 + 2 * k)).putRsp 10 [BitVec.ofNat 8 k]).putRsp 11 (codeBytes s.cs.sys.active)).respond

/-- REQSVC (R246). -/
def execReqsvc (a : Addressed ReqSvcOps) (s : State) : Host.Outcome State Fault Refusal :=
  .next (addressed 0x02 requestService a s)

/-- SEARCH (R250). -/
def execSearch (a : Addressed SearchOps) (s : State) : Host.Outcome State Fault Refusal :=
  .next (addressed 0x0A searchServiceCode a s)

/-- REQSYS (R253). -/
def execReqsys (a : Addressed (List Byte)) (s : State) : Host.Outcome State Fault Refusal :=
  .next (addressed 0x0C (fun _ => requestSystemCode) a s)

end Sys2Proof.Machine
end

