-- ==== Sys2Proof/Machine/Dispatch.lean ====
section
/-! DEFINITION. One arm for each instruction (spec/opcode_table.json), each one call of its meaning. -/

namespace Sys2Proof.Machine

def exec (i : Instr) (s : State) : Host.Outcome State Fault Refusal :=
  match i with
  | .poll ops => Sys2Proof.Machine.execPoll ops s
  | .echo data => Sys2Proof.Machine.execEcho data s
  | .reqsvc a => Sys2Proof.Machine.execReqsvc a s
  | .reqrsp a => Sys2Proof.Machine.execReqrsp a s
  | .read a => Sys2Proof.Machine.execRead a s
  | .write a => Sys2Proof.Machine.execWrite a s
  | .search a => Sys2Proof.Machine.execSearch a s
  | .reqsys a => Sys2Proof.Machine.execReqsys a s
  | .auth1 a => Sys2Proof.Machine.execAuth1 a s
  | .unsupportedEven code a => Sys2Proof.Machine.execUnsupportedEven code a s
  | .oddCode code a => Sys2Proof.Machine.execOddCode code a s

end Sys2Proof.Machine
end

