-- ==== Sys2Proof/Machine/Encoder.lean ====
section
/-! DEFINITION. The Symbol Encoder (spec 45_symbol_encoder.md): phase TRANSMIT, one interface call a step. -/

namespace Sys2Proof.Machine

/-- The two symbol bytes of a data byte, high nibble first (R196). -/
def encodeByte (table : List Byte) (b : Byte) : List Byte :=
  [table.getD (b.toNat / 16) 0, table.getD (b.toNat % 16) 0]

/-- The data bytes of a wire frame (R90): header, payload, trailer. -/
def frameBytes (payload : List Byte) (c : Word) : List Byte := Params.syncHeader ++ payload ++ crcTrailer c

/-- The symbol bytes sent with the gate on (R200 to R202, R205). -/
def frameSymbols (payload : List Byte) (c : Word) : List Byte :=
  (frameBytes payload c).flatMap (encodeByte Params.symbolTable)

/-- What the encoder does before it closes the gate (R198 to R202). -/
def txActions (payload : List Byte) (c : Word) : List TxAction :=
  Params.flush.map .emit ++ .gateOn :: (frameSymbols payload c).map .emit

/-- `EmitSymbol(b)` (R51): the sink takes the byte at the present gate level; or it never does (R374). -/
def emitSymbol (b : Byte) (rest : List TxAction) (s : State) : State :=
  let (answered, sink) := takeAnswers 1 s.env.sink
  let s := { s with env := { s.env with sink := sink } }
  if answered then { s with tx := some rest, env := { s.env with sent := s.env.sent ++ [⟨s.gate, b⟩] } }
  else s.hang

/-- Gate off and the end of the transmission (R203, R204): DELAY after Polling, else the next capture. -/
def endTransmit (s : State) : State :=
  let s := { s with gate := false, rspValid := false, tx := none }
  if s.cmd.at 1 = 0x00 then { s with seq := .delay } else s.enterCapture

/-- One step of phase TRANSMIT: the checksum (R195), then the actions one by one, then the end. -/
def transmitStep (s : State) : State :=
  match s.tx with
  | none => { s with crc := crc16 s.response, tx := some (txActions s.response (crc16 s.response)) }
  | some (.emit b :: rest) => emitSymbol b rest s
  | some (.gateOn :: rest) => { s with gate := true, tx := some rest }
  | some [] => endTransmit s

end Sys2Proof.Machine
end

