-- ==== Sys2Proof/Machine/Startup.lean ====
section
/-! DEFINITION. Phases LOAD and DELAY (spec 70_reset_and_hazards.md R362, R381). -/

namespace Sys2Proof.Machine

/-- The `NvRead` calls of `LOAD`: four fields and twelve blocks (R362). -/
def loadCalls : Nat := 4 + Config.nBlocks

/-- Phase LOAD (R362) as one step; if a read is never answered the CORE stays in LOAD (R374). Log 7, 9. -/
def loadStep (s : State) : State :=
  let (answered, store) := takeAnswers loadCalls s.env.store
  let s := { s with env := { s.env with store := store } }
  if answered then s.loadCard.enterCapture else s.hang

/-- Phase DELAY (R381): nothing but `SEQ <- CAPTURE`. -/
def delayStep (s : State) : State := s.enterCapture

end Sys2Proof.Machine
end

