-- ==== Sys2Proof/Machine/Synchronizer.lean ====
section
/-! DEFINITION. The Symbol Synchronizer (spec 40_symbol_synchronizer.md): phase SYNC. The signature table is an argument, so that
the tie-breaks of R122 and R126 hold for any table (U1). -/

namespace Sys2Proof.Machine

/-- The report `(OFF, PH, POL)` (R120). -/
structure SyncReport where
  off : Nat
  ph : Fin 8
  pol : Bool
  deriving DecidableEq, Repr

/-- `match(x, p)` (R122); `table` holds mask and value of each phase. -/
def sigMatches (table : List (Word × Word)) (x : Word) (p : Fin 8) : Bool :=
  match table[p.val]? with
  | some (mask, value) => x &&& mask == value
  | none => false

/-- `find_phase(x)` (R122): the largest phase that matches. -/
def findPhase (table : List (Word × Word)) (x : Word) : Option (Fin 8) :=
  ([7, 6, 5, 4, 3, 2, 1, 0] : List (Fin 8)).find? (sigMatches table x)

/-- The report at one offset, from the phases of the two polarities (R125, R126). -/
def syncReport (i : Nat) : Option (Fin 8) → Option (Fin 8) → Option SyncReport
  | none, none => none
  | some a, none => some ⟨i, a, false⟩
  | none, some b => some ⟨i, b, true⟩
  | some a, some b => if b < a then some ⟨i, a, false⟩ else some ⟨i, b, true⟩

/-- The scan from offset `i` on (R121, R124): the first offset at which a polarity matches. -/
def syncScan (table : List (Word × Word)) (i : Nat) : List Byte → Option SyncReport
  | b0 :: b1 :: rest =>
    match syncReport i (findPhase table (b0 ++ b1)) (findPhase table (~~~(b0 ++ b1))) with
    | some r => some r
    | none => syncScan table (i + 1) (b1 :: rest)
  | _ => none

/-- Phase SYNC (R125 to R127). -/
def syncStep (s : State) : State :=
  match syncScan Params.signature 0 s.window with
  | some r => { s with off := r.off, ph := r.ph, pol := r.pol, seq := .assemble }
  | none => s.raise .noSync

end Sys2Proof.Machine
end

