-- ==== Sys2Proof/Machine/Step.lean ====
section
/-! DEFINITION. One step of the sequencer (spec 10_state.md R21; 70_reset_and_hazards.md R360, R380). -/

namespace Sys2Proof.Machine

/-- Phase DISPATCH (R218): the packet in CMD is decoded and run; a packet with no command code gets no response (R217). -/
def dispatchStep (s : State) : Host.Outcome State Fault Refusal :=
  match decode s.packet with
  | .ok i => exec i s
  | .error .noCommandCode => .next s.noResponse
  | .error .lengthByteMismatch => .fault .malformedCommandRegister
  | .error .noRow => .fault .malformedCommandRegister

/-- The phase that `SEQ` names runs (R21). A CORE that waits for an answer that never comes stays as it is (R374). -/
def runPhase (s : State) : Host.Outcome State Fault Refusal :=
  if s.waiting then .next s
  else
    match s.seq with
    | .load => .next (loadStep s)
    | .capture => .next (captureStep s)
    | .sync => .next (syncStep s)
    | .assemble => .next (assembleStep s)
    | .dispatch => dispatchStep s
    | .transmit => .next (transmitStep s)
    | .delay => .next (delayStep s)

/-- One step: at its boundary `rst` is sampled (R55, R360), then the phase runs. -/
def step (s : State) : Host.Outcome State Fault Refusal :=
  if s.rstNow then .next s.passBoundary.powerLoss else runPhase s.passBoundary

/-- `s` with a row's bits as the accepted packet, in phase DISPATCH and with `rst` low, so that the next step runs it. Log 12. -/
def State.withFetchWord (s : State) (nbits w : Nat) : State :=
  { s.putCmd (tableWordPacket nbits w) with seq := .dispatch, waiting := false, env := { s.env with rst := [] } }

end Sys2Proof.Machine
end

