-- ==== Sys2Proof/Safety.lean ====
section
/-! DEFINITION. The words in which statements speak of runs: what a reply and a silence are, what a frame leaves unchanged, and the
invariant of the reachable states. -/

namespace Sys2Proof.Machine

/-! ### The environment and the packet -/

/-- The packet of `i` is in the command register (R25). -/
abbrev State.Holds (s : State) (i : Instr) : Prop := s.packet = encode i

/-- A command's IDm names this card (R226): the low nibble of the first byte, and bytes 1 to 7. -/
abbrev State.AddressedBy (s : State) (idm : Bytes 8) : Prop :=
  idm.at 0 &&& 0x0F = s.cs.idm.at 0 &&& 0x0F ∧ idm.toList.drop 1 = s.cs.idm.toList.drop 1

/-- The IDm of an addressed command, where the packet holds a whole one (R94). -/
def idmOf : Addressed β → Option (Bytes 8)
  | .noIdm _ => none
  | .short idm _ => some idm
  | .full idm _ => some idm

/-- A command is for another card, or for none (R226). -/
def State.NotAddressedBy (s : State) (a : Addressed β) : Prop := ∀ idm, idmOf a = some idm → ¬ s.AddressedBy idm

/-- No reset is to come. -/
abbrev State.NoReset (s : State) : Prop := true ∉ s.env.rst

/-- The environment lets every store call through: each is answered and no reset falls. -/
abbrev State.StoreAnswers (s : State) : Prop := false ∉ s.env.store ∧ s.NoReset

/-- The CORE runs: `rst` is 0 at this boundary and no call hangs. -/
abbrev State.Runs (s : State) : Prop := s.rstNow = false ∧ s.waiting = false

/-! ### Replies and silences -/

/-- A response was built (R216): `RSP[0,RSP[0])` is `bytes`, `RSP_VALID = 1`, `SEQ = TRANSMIT`. -/
def State.Replies (t : State) (bytes : List Byte) : Prop :=
  t.rspValid = true ∧ t.seq = .transmit ∧ t.response = bytes

/-- `t` is `s` but for the reply registers and the sequencer; so the Card State, the image and every byte of storage are as before. -/
def ReplyFrame (s t : State) : Prop :=
  t = { s with rsp := t.rsp, rspValid := t.rspValid, seq := t.seq }

/-- `t` is `s` but for the reply registers, the sequencer and the error log, whose slot 1 is as before. -/
def StatusFrame (s t : State) : Prop :=
  t = { s with rsp := t.rsp, rspValid := t.rspValid, seq := t.seq, cs := { s.cs with elog := t.cs.elog } } ∧
    t.cs.elog.toList[1]? = s.cs.elog.toList[1]?

/-- `t` is `s` but for the reply registers, the sequencer, the blocks, the schedules, and slot 0 of the error log. -/
def WriteFrame (s t : State) : Prop :=
  t = { s with rsp := t.rsp, rspValid := t.rspValid, seq := t.seq, cs := { s.cs with blk := t.cs.blk, elog := t.cs.elog },
               nv := { s.nv with blk := t.nv.blk }, env := { s.env with store := t.env.store, rst := t.env.rst } } ∧
    t.cs.elog.toList[1]? = s.cs.elog.toList[1]?

/-- A silence that touches nothing else: `RSP_VALID = 0` and a new capture begins (R216, R332). -/
def SilentFrom (s t : State) : Prop :=
  t = { s with rspValid := false, seq := .capture, nCap := 0 }

/-- A silence after the header of an addressed reply was written (R228, R235 (e), R337): `RSP[1]` and `RSP[2,10)` hold the
header, and nothing else is touched. -/
def SilentAfterHeader (s t : State) (code : Byte) (idm : Bytes 8) : Prop :=
  t = { s with rspValid := false, seq := .capture, nCap := 0, rsp := t.rsp } ∧
    (∀ i, i = 0 ∨ 10 ≤ i → t.rsp.at i = s.rsp.at i) ∧ t.rsp.at 1 = code + 1 ∧ ∀ i, i < 8 → t.rsp.at (2 + i) = idm.at i

/-- The state after a framing failure (R330): one diagnostic with its code, `RSP_VALID = 0`, and a new capture begins. -/
def afterFailure (s : State) (code : DiagCode) : State :=
  { s with rspValid := false, seq := .capture, nCap := 0, env := { s.env with diags := s.env.diags ++ [code] } }

/-- The reply of a status failure (R261): 12 bytes, flag1 FF, and the first 16 command bytes in slot 0 of the log. -/
def FailsWith (s t : State) (code : Byte) (idm : Bytes 8) (flag2 : Byte) : Prop :=
  t.Replies ([12, code + 1] ++ idm.toList ++ [0xFF, flag2]) ∧
    t.cs.elog.toList[0]? = some (Bytes.ofList 16 s.packet)

/-! ### The channel -/

/-- The bits of bytes in time order, bit 7 first (R13). -/
def bitsOf (bytes : List Byte) : List Bool :=
  bytes.flatMap fun b => [b[7], b[6], b[5], b[4], b[3], b[2], b[1], b[0]]

/-- Bits packed into bytes, bit 7 first; a last part of a byte is dropped. -/
def bytesOf : List Bool → List Byte
  | b7 :: b6 :: b5 :: b4 :: b3 :: b2 :: b1 :: b0 :: rest =>
    byteOfBits [b7, b6, b5, b4, b3, b2, b1, b0] :: bytesOf rest
  | _ => []

/-- Symbol bytes as the sampler sees them `p` samples late, complemented at inverted polarity, in an idle line
(95_test_vectors.md, `shift(F, p, pol, idle)`). -/
def shifted (p : Fin 8) (pol idle : Bool) (symbols : List Byte) : List Byte :=
  bytesOf (List.replicate p.val idle ++ (bitsOf symbols).map (xor pol) ++ List.replicate ((8 - p.val) % 8) idle)

/-- The sample byte of an idle line: eight equal samples (R140). -/
def idleByte (idle : Bool) : Byte := if idle then 0xFF else 0x00

/-- What the sampler delivers of the wire frame of a packet, `p` samples late, at a polarity, in an idle line: idle bytes, the
frame, one idle byte. -/
def onAir (lead : Nat) (p : Fin 8) (pol idle : Bool) (packet : List Byte) : List Byte :=
  List.replicate lead (idleByte idle) ++ shifted p pol idle (frameSymbols packet (crc16 packet)) ++ [idleByte idle]

/-- The window word at an index (R121): the earlier byte is the high half. -/
def wordAt (w : List Byte) (i : Nat) : Word := w.getD i 0 ++ w.getD (i + 1) 0

/-- `SIG_VAL[p]` as R123 computes it: sixteen bits of `X = 0x55559A59`, `p` bits up. -/
def signatureOf (p : Fin 8) : Word := (0x55559A59 : BitVec 32).extractLsb' p.val 16

/-- The window word at an index, complemented at inverted polarity, is the sync signature of a phase (R122, R124). -/
def HasSync (w : List Byte) (i : Nat) (p : Fin 8) (pol : Bool) : Prop :=
  (if pol then ~~~(wordAt w i) else wordAt w i) = signatureOf p

/-! ### Code tables -/

/-- A stored code matches a request, in which 0xFF matches any byte (R221). -/
def EntryMatches (request entry : Code) : Prop :=
  (request.b0 = 0xFF ∨ request.b0 = entry.b0) ∧ (request.b1 = 0xFF ∨ request.b1 = entry.b1)

/-- The slot that Polling selects (R221): slot 0 for FF FF, else the lowest matching index of the active prefix. -/
def SlotChosen (sys : CodeTable) (request : Code) (slot : Nat) : Prop :=
  (request = ⟨0xFF, 0xFF⟩ ∧ slot = 0) ∨
    (request ≠ ⟨0xFF, 0xFF⟩ ∧ slot < sys.activeLen ∧ EntryMatches request (sys.entry slot) ∧
      ∀ j, j < slot → ¬ EntryMatches request (sys.entry j))

/-- A service code resolves (R266): the wildcard, or an active entry. -/
def Resolves (svc : CodeTable) (v : Code) : Prop :=
  v = ⟨0xFF, 0xFF⟩ ∨ ∃ i, i < svc.activeLen ∧ svc.entry i = v

/-! ### The block space -/

/-- A block list element (R99). -/
inductive BlockElement where
  | short (b : Byte)
  | long (b : Byte)
  deriving DecidableEq, Repr

/-- The block number of an element. -/
def BlockElement.number : BlockElement → Byte
  | .short b => b
  | .long b => b

/-- The bytes of an element (R99). -/
def BlockElement.bytes : BlockElement → List Byte
  | .short b => [0x80, b]
  | .long b => [0x00, b, 0x00]

/-- The bytes of a block list (R99). -/
def listBytes (es : List BlockElement) : List Byte := es.flatMap BlockElement.bytes

/-- The numbers that take a write of any length: the real blocks and the no-op blocks (R311, R315). -/
def AlwaysWritable (b : Byte) : Prop := b.toNat < 12 ∨ b = 0x80 ∨ b = 0x90 ∨ b = 0x91

/-- The numbers that take a write in a command of `n` blocks (R311 to R316). -/
def Writable (b : Byte) (n : Nat) : Prop := AlwaysWritable b ∨ (n = 1 ∧ (b = 0x83 ∨ b = 0x84 ∨ b = 0x85))

/-- The data that a Write's last element for block `b` carries, if it has one (R71, R272 (c)). -/
def lastFor (b : Nat) : List (Byte × Block) → Option Block
  | [] => none
  | (b', v) :: rest =>
    match lastFor b rest with
    | some w => some w
    | none => if b'.toNat = b then some v else none

/-- Every byte of `m'` is the byte of `m`, but in the real blocks that `writes` names, which hold the last data given for them. -/
def StoredBlocks (m m' : Memory) (writes : List (Byte × Block)) : Prop :=
  ∀ a, m'.read a =
    if a < 16 * 12 then
      match lastFor (a / 16) writes with
      | some v => v.at (a % 16)
      | none => m.read a
    else m.read a

/-- A legal block count (R265, R270). -/
def CountOk (n : Byte) : Prop := 1 ≤ n.toNat ∧ n.toNat ≤ 12

/-- `bytes` starts with a block list of `n` elements (R262). -/
def StartsWithList (n : Nat) (bytes : List Byte) : Prop :=
  ∃ es rest, es.length = n ∧ bytes = listBytes es ++ rest

/-- The first check of Read that fails, in the order of R265, and the flag2 it gives (R333). -/
def ReadFailure (cs : CardState) (ops : ReadOps) (flag2 : Byte) : Prop :=
  (ops.m ≠ 1 ∧ flag2 = 0xA1) ∨
  (ops.m = 1 ∧ ¬ Resolves cs.svc ops.svc ∧ flag2 = 0xA6) ∨
  (ops.m = 1 ∧ Resolves cs.svc ops.svc ∧ ¬ CountOk ops.n ∧ flag2 = 0xA2) ∨
  (ops.m = 1 ∧ Resolves cs.svc ops.svc ∧ CountOk ops.n ∧ ¬ StartsWithList ops.n.toNat ops.list ∧ flag2 = 0xA6) ∨
  (ops.m = 1 ∧ Resolves cs.svc ops.svc ∧ CountOk ops.n ∧
    (∃ es rest, es.length = ops.n.toNat ∧ ops.list = listBytes es ++ rest ∧ ∃ e ∈ es, memRead cs e.number = none) ∧
    flag2 = 0xA8)

/-- The first check of Write that fails before any block is written, in the order of R270, and the flag2 it gives. -/
def WriteFailure (ops : WriteOps) (flag2 : Byte) : Prop :=
  (ops.m ≠ 1 ∧ flag2 = 0xA1) ∨
  (ops.m = 1 ∧ ¬ CountOk ops.n ∧ flag2 = 0xA2) ∨
  (ops.m = 1 ∧ CountOk ops.n ∧ ¬ StartsWithList ops.n.toNat ops.body ∧ flag2 = 0xA6)

/-- The operands of a Write whose packet is exactly a block list and its data (R260, R270). -/
def writeOf (svc : Code) (es : List BlockElement) (vs : List Block) : WriteOps :=
  ⟨1, svc, BitVec.ofNat 8 es.length, listBytes es ++ vs.flatMap Sized.toList⟩

/-- Block numbers with their data, in list order. -/
def writesOf (es : List BlockElement) (vs : List Block) : List (Byte × Block) := (es.map BlockElement.number).zip vs

/-! ### The invariant -/

/-- `CS` and `NV` agree on every persisted field (R49). -/
def State.Agree (s : State) : Prop :=
  s.cs.idm = s.nv.idm ∧ s.cs.pmm = s.nv.pmm ∧ s.cs.svc = s.nv.svc ∧ s.cs.sys = s.nv.sys ∧ s.cs.blk = s.nv.blk

/-- Block storage is in canonical form and lists no address beyond the twelve blocks. -/
def Memory.ok (m : Memory) : Prop := m.wf ∧ ∀ c ∈ m, c.1 < Config.blockSize * Config.nBlocks

/-- What holds in every state a run reaches. -/
structure State.Inv (s : State) : Prop where
  /-- The window never fills the buffer outside the step that raises FrameTooLong (R144). -/
  window : s.nCap < Config.capBuf
  /-- A captured window has at least `MIN_CAPTURE` bytes (R144). -/
  captured : s.seq = .sync → Params.minCapture ≤ s.nCap
  /-- The report lies in the window (R23, R124). -/
  report : s.seq = .assemble → s.off + 1 < s.nCap
  offset : s.off < Config.capBuf
  /-- `DEC` never overflows (R24). -/
  decodedFits : s.nDec ≤ Config.decBuf
  /-- `CMD_LEN` equals `CMD[0]` (R25), at most `MAX_L` (R92). -/
  command : s.cmdLen = 0 ∨ ((s.cmd.at 0).toNat = s.cmdLen ∧ s.cmdLen ≤ Config.maxL)
  /-- A reply answers a command with a code (R217). -/
  answered : s.seq = .transmit → 2 ≤ s.cmdLen
  /-- `RSP_VALID` is 1 exactly while a response is sent (R26, R204, R216). -/
  valid : s.rspValid = true ↔ s.seq = .transmit
  /-- Every response has 2 to 253 bytes (R207). -/
  responseLength : s.seq = .transmit → 2 ≤ (s.rsp.at 0).toNat ∧ (s.rsp.at 0).toNat ≤ Config.maxL
  /-- The gate is 0 in every phase other than TRANSMIT (R28). -/
  gateClosed : s.gate = true → s.seq = .transmit
  /-- The encoder works only in TRANSMIT. -/
  encoderIdle : s.tx ≠ none → s.seq = .transmit
  /-- Only a phase that calls the store or the sink can hang (R374). -/
  hangs : s.waiting = true → s.seq = .load ∨ s.seq = .dispatch ∨ s.seq = .transmit
  cardBlocks : s.cs.blk.ok
  imageBlocks : s.nv.blk.ok
  /-- After `LOAD`, Card State and image agree (R49, R362). -/
  agree : s.seq ≠ .load → s.Agree
  /-- Slot 1 of the error log keeps its reset value (R320). -/
  secondSlot : s.cs.elog.toList[1]? = s.env.elogReset.toList[1]?

end Sys2Proof.Machine
end

