-- ==== Sys2Proof/Certificates/Slice0/Obligations.lean ====
section
/-! DEFINITION. The statements for the provers. A step first passes its boundary, where `rst` is sampled; so a statement about one
step compares with `s.passBoundary`, which is `s` with one level of `rst` consumed. -/

open Sys2Proof Sys2Proof.Machine

/-! ### Encoding -/

/-- R92, R95, R97: decoding an encoded well-formed instruction gives it back, for every row and every operand. -/
def Obligations.DecodeEncode : Prop :=
  ∀ i : Instr, i.WellFormed → decode (encode i) = .ok i

/-- R92, R95: no byte of a packet is dropped: encoding what was decoded gives the same bytes. -/
def Obligations.EncodeDecode : Prop :=
  ∀ (bytes : List Byte) (i : Instr), decode bytes = .ok i → encode i = bytes

/-- R92, R95, R182: a packet of a length that the Frame Assembler accepts decodes to a well-formed instruction. -/
def Obligations.DecodedIsWellFormed : Prop :=
  ∀ (bytes : List Byte) (i : Instr), bytes.length ≤ 253 → decode bytes = .ok i → i.WellFormed

/-- R92, R97: every packet of two bytes or more whose first byte is its length is an instruction, and nothing else is. -/
def Obligations.DecodeAnswersEveryPacket : Prop :=
  ∀ bytes : List Byte, (∃ i, decode bytes = .ok i) ↔ 2 ≤ bytes.length ∧ (bytes.headD 0).toNat = bytes.length

/-- R96, R97, R225: which row a packet selects, from its code and the bytes after it. -/
def Obligations.RowSelection : Prop :=
  ∀ (code : Byte) (body : List Byte),
    rowOf (decodeWord code body) = some (
      if code = 0x00 then .poll
      else if code = 0xF0 ∧ body.head? = some 0x00 then .echo
      else if code.getLsbD 0 then .oddCode
      else if code = 0x02 then .reqsvc
      else if code = 0x04 then .reqrsp
      else if code = 0x06 then .read
      else if code = 0x08 then .write
      else if code = 0x0A then .search
      else if code = 0x0C then .reqsys
      else if code = 0x10 then .auth1
      else .unsupportedEven)

/-- R95, R96: packets written out from the tables of the spec decode to the instructions they stand for. -/
def Obligations.SpecPacketsDecode : Prop :=
  decode [0x06, 0x00, 0xFF, 0xFF, 0x01, 0x00] = .ok (.poll (.full ⟨0xFF, 0xFF⟩ 1 [0x00])) ∧
  decode [0x04, 0xF0, 0x00, 0xAB] = .ok (.echo [0xAB]) ∧
  decode [0x0A, 0x04, 1, 2, 3, 4, 5, 6, 7, 8] = .ok (.reqrsp (.full (Bytes.ofList 8 [1, 2, 3, 4, 5, 6, 7, 8]) [])) ∧
  decode [0x10, 0x06, 1, 2, 3, 4, 5, 6, 7, 8, 0x01, 0x0F, 0x0B, 0x01, 0x80, 0x00] =
    .ok (.read (.full (Bytes.ofList 8 [1, 2, 3, 4, 5, 6, 7, 8]) ⟨1, ⟨0x0F, 0x0B⟩, 1, [0x80, 0x00]⟩)) ∧
  decode [0x0C, 0x0A, 1, 2, 3, 4, 5, 6, 7, 8, 0x01, 0x02] =
    .ok (.search (.full (Bytes.ofList 8 [1, 2, 3, 4, 5, 6, 7, 8]) ⟨0x01, 0x02, []⟩)) ∧
  decode [0x02, 0xF0] = .ok (.unsupportedEven 0xF0 (.noIdm []))

/-! ### The step -/

/-- R218: where the command register holds the bytes of an instruction, a step in DISPATCH is `exec` of it, after the boundary. -/
def Obligations.StepRunsDecodedInstruction : Prop :=
  ∀ (s : State) (i : Instr), s.Runs → s.seq = .dispatch → decode s.packet = .ok i → step s = exec i s.passBoundary

/-- R217: a packet with no command code gets no response. -/
def Obligations.ShortestPacketIsSilent : Prop :=
  ∀ s : State, s.Runs → s.seq = .dispatch → s.packet.length < 2 → ∃ t, step s = .next t ∧ SilentFrom s.passBoundary t

/-- R58, R360, R361: with `rst` at 1, in any phase and even while a call hangs, a step leaves the values of the reset table; the
image is unchanged, and what follows depends on the image and the environment alone. That last clause takes in the registers which
R58 leaves unspecified: the model gives each one fixed value at every reset, its own choice (Log 1). -/
def Obligations.ResetTakesTableValues : Prop :=
  ∀ s : State, s.rstNow = true →
    (∃ t, step s = .next t ∧ t.seq = .load ∧ t.nCap = 0 ∧ t.off = 0 ∧ t.ph = 0 ∧ t.pol = false ∧ t.nDec = 0 ∧ t.cmdLen = 0 ∧
      t.rspValid = false ∧ t.crc = 0 ∧ t.gate = false ∧ t.cs.elog = s.env.elogReset ∧ t.nv = s.nv ∧ t.waiting = false ∧
      t.env.sent = s.env.sent) ∧
    ∀ s' : State, s'.nv = s.nv → s'.env = s.env → step s' = step s

/-- R362: LOAD takes the Card State's persisted fields from the image, whatever it holds, leaves the error log alone, and goes to
CAPTURE. -/
def Obligations.LoadMovesImage : Prop :=
  ∀ s : State, s.Runs → s.seq = .load → false ∉ s.env.store.take 16 →
    step s = .next { s with
      seq := .capture, nCap := 0,
      cs := { s.cs with idm := s.nv.idm, pmm := s.nv.pmm, svc := s.nv.svc, sys := s.nv.sys, blk := s.nv.blk },
      env := { s.env with store := s.env.store.drop 16, rst := s.env.rst.tail } }

/-- R381: DELAY does nothing but go to CAPTURE. -/
def Obligations.DelayReturnsToCapture : Prop :=
  ∀ s : State, s.Runs → s.seq = .delay → step s = .next { s.passBoundary with seq := .capture, nCap := 0 }

/-! ### Invariants and rules of the whole machine -/

/-- R49, R58: the state after reset meets the invariant; that its image lists nothing is the model's choice (Log 3). -/
def Obligations.ResetMeetsInv : Prop := State.reset.Inv

/-- R21 to R28, R49, R207, R320: every step keeps the invariant, in every state that meets it. -/
def Obligations.StepKeepsInv : Prop :=
  ∀ s t : State, s.Inv → step s = .next t → t.Inv

/-- R102, R338: nothing traps: in every state that meets the invariant a step answers a next state. -/
def Obligations.NothingTraps : Prop :=
  ∀ s : State, s.Inv → ∃ t, step s = .next t

/-- R21: the transitions of the sequencer are the listed ones and no other. -/
def Obligations.PhaseTransitions : Prop :=
  ∀ s t : State, s.Runs → step s = .next t →
    match s.seq with
    | .load => t.seq = .capture ∨ (t.seq = .load ∧ t.waiting = true)
    | .capture => t.seq = .capture ∨ t.seq = .sync
    | .sync => t.seq = .assemble ∨ t.seq = .capture
    | .assemble => t.seq = .dispatch ∨ t.seq = .capture
    | .dispatch =>
      t.seq = .transmit ∨ t.seq = .capture ∨ (t.seq = .dispatch ∧ t.waiting = true) ∨ (t.seq = .load ∧ ¬ s.NoReset)
    | .transmit =>
      (s.tx ≠ some [] ∧ t.seq = .transmit) ∨ (s.tx = some [] ∧ t.seq = if s.cmd.at 1 = 0x00 then .delay else .capture)
    | .delay => t.seq = .capture

/-- R40, R48, R68, R215: outside LOAD only a dispatched Write changes the image; the Card State changes only by a Write, or in the
error log by a Read that ends in a failure status. -/
def Obligations.CardAndImageWriters : Prop :=
  ∀ s t : State, s.Runs → step s = .next t →
    (t.nv ≠ s.nv → s.seq = .dispatch ∧ ∃ a, decode s.packet = .ok (.write a)) ∧
    (t.cs ≠ s.cs → s.seq = .load ∨
      (s.seq = .dispatch ∧
        ((∃ a, decode s.packet = .ok (.write a)) ∨
          ((∃ a, decode s.packet = .ok (.read a)) ∧ StatusFrame s.passBoundary t ∧ t.rsp.at 10 = 0xFF))))

/-- R22 to R28, R141, R204, R370: each register changes in one phase only, but for CRC (ASSEMBLE and TRANSMIT), for N_CAP, which the end
of a frame also clears (Log 10), and for RSP_VALID, which rises in DISPATCH only. -/
def Obligations.OneWriterPerRegister : Prop :=
  ∀ s t : State, s.Runs → s.NoReset → step s = .next t →
    (t.buf ≠ s.buf → s.seq = .capture) ∧
    (t.nCap ≠ s.nCap → s.seq = .capture ∨ (t.seq = .capture ∧ t.nCap = 0)) ∧
    ((t.off, t.ph, t.pol) ≠ (s.off, s.ph, s.pol) → s.seq = .sync) ∧
    ((t.dec, t.nDec) ≠ (s.dec, s.nDec) → s.seq = .assemble) ∧
    ((t.cmd, t.cmdLen) ≠ (s.cmd, s.cmdLen) → s.seq = .assemble) ∧
    (t.rsp ≠ s.rsp → s.seq = .dispatch) ∧
    (t.rspValid = true → s.rspValid = true ∨ s.seq = .dispatch) ∧
    (t.crc ≠ s.crc → s.seq = .assemble ∨ s.seq = .transmit) ∧
    (t.gate ≠ s.gate → s.seq = .transmit)

/-- R50, R51, R330, R331, R371, R386: samples are taken in CAPTURE only, one a step; symbol bytes leave in TRANSMIT only, one a step,
each with the level of the gate; a diagnostic carries the code of one of the four framing failures, 1 in CAPTURE, 2 in SYNC, 3 or 4 in
ASSEMBLE, with no response. -/
def Obligations.EnvironmentUse : Prop :=
  ∀ s t : State, s.Runs → step s = .next t →
    (t.env.samples = s.env.samples ∨ (s.seq = .capture ∧ t.env.samples = s.env.samples.tail)) ∧
    (t.env.sent = s.env.sent ∨ (s.seq = .transmit ∧ ∃ b, t.env.sent = s.env.sent ++ [⟨s.gate, b⟩])) ∧
    (t.env.diags = s.env.diags ∨
      ∃ code : DiagCode, t.env.diags = s.env.diags ++ [code] ∧ t.seq = .capture ∧ t.rspValid = false ∧
        ((code = 1 ∧ s.seq = .capture) ∨ (code = 2 ∧ s.seq = .sync) ∨ ((code = 3 ∨ code = 4) ∧ s.seq = .assemble)))

/-- R216, R331: every command, in every form, ends in a response to be sent or in silence and a new capture; it emits nothing and
no diagnostic, leaves the gate as it is, and never writes the command register. -/
def Obligations.EveryCommandAnswersOrIsSilent : Prop :=
  ∀ (i : Instr) (s : State), s.StoreAnswers →
    ∃ t, exec i s = .next t ∧
      ((t.rspValid = true ∧ t.seq = .transmit) ∨ (t.rspValid = false ∧ t.seq = .capture ∧ t.nCap = 0)) ∧
      t.env.diags = s.env.diags ∧ t.env.sent = s.env.sent ∧ t.gate = s.gate ∧ t.cmd = s.cmd ∧ t.cmdLen = s.cmdLen

/-- R94: every response to an addressed command has `RSP[1] = CMD[1] + 1` and `RSP[2,10) = CMD[2,10)`. -/
def Obligations.AddressedReplyHeader : Prop :=
  ∀ (i : Instr) (s t : State), (∀ ops, i ≠ .poll ops) → (∀ data, i ≠ .echo data) → s.rspValid = false →
    exec i s = .next t → t.rspValid = true →
    t.rsp.at 1 = i.code + 1 ∧ (t.rsp.toList.drop 2).take 8 = i.body.take 8

/-- R215, R231: the dispatcher keeps nothing but the Card State: what a command does depends on the packet and the Card State, not on
what any other register holds. -/
def Obligations.CommandsAreStateless : Prop :=
  ∀ (i : Instr) (s s' t t' : State), s.cs = s'.cs → s.Holds i → s'.Holds i → s.StoreAnswers → s'.StoreAnswers →
    exec i s = .next t → exec i s' = .next t' →
    t.rspValid = t'.rspValid ∧ t.seq = t'.seq ∧ t.cs = t'.cs ∧ (t.rspValid = true → t.response = t'.response)

/-! ### Receiving -/

/-- R141, R142, R144, R145: what one step of CAPTURE does with the next sample byte, and that it waits where there is none. One byte a
step and the list of bytes to come are the model's form (Log 5, 9). -/
def Obligations.CaptureTakesOneSample : Prop :=
  ∀ s : State, s.Runs → s.seq = .capture →
    (s.env.samples = [] → step s = .next s.passBoundary) ∧
    ∀ (b : Byte) (rest : List Byte), s.env.samples = b :: rest →
      let u : State := { s with env := { s.env with samples := rest, rst := s.env.rst.tail } }
      step s = .next (
        if b = 0x00 ∨ b = 0xFF then
          if 16 ≤ s.nCap then { u with seq := .sync } else u
        else if s.nCap + 1 = 528 then afterFailure { u with buf := s.buf.overlay s.nCap [b] } 1
        else { u with buf := s.buf.overlay s.nCap [b], nCap := s.nCap + 1 })

/-- R141, R143: from an empty window, leading idle bytes are skipped and the bytes up to the next idle byte are the window. One byte a
step is the model's form (Log 9). -/
def Obligations.CaptureFillsWindow : Prop :=
  ∀ (s : State) (lead data rest : List Byte) (m : Byte),
    s.seq = .capture → s.nCap = 0 → s.waiting = false → s.NoReset →
    (∀ b ∈ m :: lead, b = 0x00 ∨ b = 0xFF) → (∀ b ∈ data, b ≠ 0x00 ∧ b ≠ 0xFF) → 16 ≤ data.length → data.length < 528 →
    s.env.samples = lead ++ data ++ m :: rest →
    ∃ t : State, Host.Core.run Sys2Proof.core (lead.length + data.length + 1) s = .next t ∧ t.window = data ∧
      t = { s with seq := .sync, buf := t.buf, nCap := data.length,
                   env := { s.env with samples := rest, rst := s.env.rst.drop (lead.length + data.length + 1) } }

/-- R144: 528 bytes without an idle marker raise FrameTooLong, diagnostic 1; the rest is not drained. One byte a step is the model's
form (Log 9). -/
def Obligations.CaptureOverflows : Prop :=
  ∀ (s : State) (data rest : List Byte),
    s.seq = .capture → s.nCap = 0 → s.waiting = false → s.NoReset →
    (∀ b ∈ data, b ≠ 0x00 ∧ b ≠ 0xFF) → data.length = 528 → s.env.samples = data ++ rest →
    ∃ t : State, Host.Core.run Sys2Proof.core 528 s = .next t ∧
      t = { s with seq := .capture, nCap := 0, rspValid := false, buf := t.buf,
                   env := { s.env with samples := rest, rst := s.env.rst.drop 528,
                                       diags := s.env.diags ++ [1] } }

/-- R122, R126, for any signature table: the largest matching phase is taken; where both polarities match, the larger phase, and
the inverted one where they are equal. -/
def Obligations.PhaseAndPolarityChoice : Prop :=
  (∀ (table : List (Word × Word)) (x : Word) (p : Fin 8),
    findPhase table x = some p ↔ sigMatches table x p = true ∧ ∀ q, p < q → sigMatches table x q = false) ∧
  ∀ (i : Nat) (a b : Fin 8), syncReport i (some a) (some b) = some (if b < a then ⟨i, a, false⟩ else ⟨i, b, true⟩)

/-- R128: the signatures are distinct, none is the complement of another, and the encoder's own header, shifted by any phase, at
either polarity and idle level, is located at its offset (one lower where Frame Capture drops its first byte). -/
def Obligations.PreambleIsLocated : Prop :=
  (∀ p q : Fin 8, signatureOf p = signatureOf q → p = q) ∧
  (∀ p q : Fin 8, signatureOf p ≠ ~~~(signatureOf q)) ∧
  ∀ (p : Fin 8) (pol idle : Bool),
    let samples := shifted p pol idle (Params.syncHeader.flatMap (encodeByte Params.symbolTable))
    syncScan Params.signature 0 samples = some ⟨12, p, pol⟩ ∧
    (isMarker (samples.headD 0) = true → syncScan Params.signature 0 (samples.drop 1) = some ⟨11, p, pol⟩)

/-- R121 to R125, R127: SYNC reports the first offset whose word is a signature at either polarity, with its phase and polarity;
where there is none it raises NoSync, diagnostic 2, and the report registers keep their values. -/
def Obligations.SyncReportsFirstMatch : Prop :=
  ∀ s : State, s.Runs → s.seq = .sync →
    (∀ (i : Nat) (p : Fin 8) (pol : Bool), i + 1 < s.window.length → HasSync s.window i p pol →
      (∀ j, j < i → ∀ (q : Fin 8) (pol' : Bool), ¬ HasSync s.window j q pol') →
      step s = .next { s.passBoundary with off := i, ph := p, pol := pol, seq := .assemble }) ∧
    ((∀ i, i + 1 < s.window.length → ∀ (p : Fin 8) (pol : Bool), ¬ HasSync s.window i p pol) →
      step s = .next (afterFailure s.passBoundary 2))

/-- R160: the extractor inverts the line code: for every byte, phase and polarity, whatever the samples around the byte are. -/
def Obligations.ExtractorInvertsLineCode : Prop :=
  ∀ (b : Byte) (p : Fin 8) (pol : Bool) (x : BitVec 24),
    x.extractLsb' (8 - p.val) 16 =
      Params.symbolTable.getD (b.toNat / 16) 0 ++ Params.symbolTable.getD (b.toNat % 16) 0 →
    let y := if pol then ~~~x else x
    extract Params.phaseTable ([y.extractLsb' 16 8, y.extractLsb' 8 8, y.extractLsb' 0 8].take (need p)) p pol = b

/-- R181: how many bytes are decoded from the sample bytes after the sync code, and from which sample bytes each comes. -/
def Obligations.AssemblerDecodesWindow : Prop :=
  ∀ (p : Fin 8) (pol : Bool) (w : List Byte),
    (decodeWindow p pol w).length = (if w.length < need p then 0 else (w.length - need p) / 2 + 1) ∧
    ∀ k, k < (decodeWindow p pol w).length →
      (decodeWindow p pol w)[k]? = some (extract Params.phaseTable ((w.drop (2 * k)).take (need p)) p pol)

/-- R182, R183, R330: when ASSEMBLE raises LengthError (diagnostic 3) and when ChecksumError (4); CMD and CMD_LEN keep their values.
That CRC holds the checksum after the computation is the model's reading (Log 11). -/
def Obligations.AssemblerRejects : Prop :=
  ∀ (s : State) (d : List Byte), s.Runs → s.seq = .assemble → d = decodeWindow s.ph s.pol (s.window.drop (s.off + 4)) →
    let L := (d.headD 0).toNat
    let u : State := { s.passBoundary with dec := s.dec.overlay 0 d, nDec := d.length }
    (d = [] ∨ 253 < L ∨ d.length < L + 2 → step s = .next (afterFailure u 3)) ∧
    (d ≠ [] → L ≤ 253 → L + 2 ≤ d.length →
      wordAt d L ≠ crc16 (d.take L) → wordAt d L ≠ crc16 (d.take L) ^^^ 1 →
      step s = .next (afterFailure { u with crc := crc16 (d.take L) } 4))

/-- R183, R184: when ASSEMBLE accepts; the first `L` bytes are the packet, exactly as decoded. That CRC holds the checksum after the
computation is the model's reading (Log 11). -/
def Obligations.AssemblerAccepts : Prop :=
  ∀ (s : State) (d : List Byte), s.Runs → s.seq = .assemble → d = decodeWindow s.ph s.pol (s.window.drop (s.off + 4)) →
    d ≠ [] → (d.headD 0).toNat ≤ 253 → (d.headD 0).toNat + 2 ≤ d.length →
    (wordAt d (d.headD 0).toNat = crc16 (d.take (d.headD 0).toNat) ∨
      wordAt d (d.headD 0).toNat = crc16 (d.take (d.headD 0).toNat) ^^^ 1) →
    ∃ t, step s = .next t ∧ t.packet = d.take (d.headD 0).toNat ∧
      t = { s.passBoundary with
            dec := s.dec.overlay 0 d, nDec := d.length, crc := crc16 (d.take (d.headD 0).toNat), cmd := t.cmd,
            cmdLen := (d.headD 0).toNat, seq := .dispatch }

/-- R185: for given packet bytes exactly two trailers pass: the checksum, and the checksum with its bit 0 flipped. -/
def Obligations.TwoTrailersAreAccepted : Prop :=
  ∀ (x : List Byte) (hi lo : Byte),
    trailerOk (crc16 x) (trailerWord hi lo) = true ↔
      [hi, lo] = crcTrailer (crc16 x) ∨ [hi, lo] = crcTrailer (crc16 x ^^^ 1)

/-- R172: the checksum of bytes followed by their trailer, high byte first, is 0. -/
def Obligations.ChecksumResidueIsZero : Prop :=
  ∀ x : List Byte, crc16 (x ++ [(crc16 x).extractLsb' 8 8, (crc16 x).extractLsb' 0 8]) = 0

/-! ### Sending -/

/-- R195 to R205: one transmission, from its checksum to the gate falling: the trace of symbol bytes with the gate's level, and all
the state it leaves. That CRC keeps the checksum afterwards is the model's reading (Log 11). -/
def Obligations.TransmissionTrace : Prop :=
  ∀ s : State, s.seq = .transmit → s.tx = none → s.gate = false → s.waiting = false → s.NoReset → false ∉ s.env.sink →
    let L := (s.rsp.at 0).toNat
    let c := crc16 s.response
    let wire := Params.syncHeader ++ s.response ++ [c.extractLsb' 8 8, c.extractLsb' 0 8]
    ∃ k, Host.Core.run Sys2Proof.core k s = .next
      { s with
        seq := if s.cmd.at 1 = 0x00 then .delay else .capture
        nCap := if s.cmd.at 1 = 0x00 then s.nCap else 0
        rspValid := false, gate := false, tx := none, crc := c
        env := { s.env with
          rst := s.env.rst.drop k, sink := s.env.sink.drop (2 * L + 22)
          sent := s.env.sent ++ Params.flush.map (Emitted.mk false) ++
            (wire.flatMap (encodeByte Params.symbolTable)).map (Emitted.mk true) } }

/-- R206: the receive path inverts the encoder: the wire frame of any packet, delayed by any number of sample bits, at either
polarity and idle level, is delivered as the command packet with that phase and polarity reported. That CRC holds the checksum
afterwards is the model's reading (Log 11). -/
def Obligations.ReceiveInvertsSend : Prop :=
  ∀ (s : State) (packet rest : List Byte) (lead : Nat) (p : Fin 8) (pol idle : Bool),
    s.seq = .capture → s.nCap = 0 → s.waiting = false → s.NoReset →
    packet.length ≤ 253 → (packet ≠ [] → (packet.headD 0).toNat = packet.length) →
    s.env.samples = onAir lead p pol idle packet ++ rest →
    ∃ (k : Nat) (t : State), Host.Core.run Sys2Proof.core k s = .next t ∧
      t.packet = packet ∧ t.ph = p ∧ t.pol = pol ∧ (t.off = 12 ∨ (p = 7 ∧ t.off = 11)) ∧ t.crc = crc16 packet ∧
      rest <:+ t.env.samples ∧
      t = { s with
            seq := .dispatch, buf := t.buf, nCap := t.nCap, off := t.off, ph := t.ph, pol := t.pol, dec := t.dec,
            nDec := t.nDec, crc := t.crc, cmd := t.cmd, cmdLen := packet.length,
            env := { s.env with samples := t.env.samples, rst := s.env.rst.drop k } }

/-- R3, R224, R344: a card that receives the frame of an Echo command sends the same frame back, and is ready for the next. -/
def Obligations.EchoRoundTrip : Prop :=
  ∀ (s : State) (data rest : List Byte) (lead : Nat) (p : Fin 8) (pol idle : Bool),
    s.seq = .capture → s.nCap = 0 → s.waiting = false → s.tx = none → s.gate = false → s.NoReset → false ∉ s.env.sink →
    (Instr.echo data).WellFormed → s.env.samples = onAir lead p pol idle (encode (.echo data)) ++ rest →
    ∃ (k : Nat) (t : State), Host.Core.run Sys2Proof.core k s = .next t ∧
      t.seq = .capture ∧ t.nCap = 0 ∧ t.gate = false ∧ t.rspValid = false ∧ t.cs = s.cs ∧ t.nv = s.nv ∧
      t.env.diags = s.env.diags ∧
      t.env.sent = s.env.sent ++ Params.flush.map (Emitted.mk false) ++
        (frameSymbols (encode (.echo data)) (crc16 (encode (.echo data)))).map (Emitted.mk true)

/-! ### The commands that the dispatcher defines itself -/

/-- R219 to R223: the reply of Polling. -/
def Obligations.PollingReply : Prop :=
  ∀ (s : State) (sys : Code) (rc : Byte) (unread : List Byte) (slot : Nat) (extra : List Byte),
    SlotChosen s.cs.sys sys slot →
    ((rc = 0 ∧ extra = []) ∨ (rc = 1 ∧ extra = [(s.cs.sys.entry slot).b0, (s.cs.sys.entry slot).b1]) ∨
      (rc = 2 ∧ extra = Params.commCap)) →
    ∃ t, exec (.poll (.full sys rc unread)) s = .next t ∧ ReplyFrame s t ∧
      t.Replies ([BitVec.ofNat 8 (18 + extra.length), 0x01,
          if slot = 0 then s.cs.idm.at 0 else BitVec.ofNat 4 slot ++ (s.cs.idm.at 0).extractLsb' 0 4] ++
        s.cs.idm.toList.drop 1 ++ s.cs.pmm.toList ++ extra)

/-- R220, R221, R222: Polling is silent for a packet without its operands, where no slot matches, and for a sub-code above 2. -/
def Obligations.PollingSilences : Prop :=
  ∀ (s : State) (ops : PollOps),
    ((∃ bytes, ops = .short bytes) ∨
      ∃ sys rc unread, ops = .full sys rc unread ∧ ((∀ slot, ¬ SlotChosen s.cs.sys sys slot) ∨ 2 < rc.toNat)) →
    ∃ t, exec (.poll ops) s = .next t ∧ SilentFrom s t

/-- R222, R234: FF FF with a sub-code of 0 to 2 is answered whatever the System Table, and with a sub-code above 2 it is silent; with an
empty table no other system code is answered, and the code appended for sub-code 1 is 00 00. -/
def Obligations.PollingNeverLocksOut : Prop :=
  ∀ (s : State) (rc : Byte) (unread : List Byte),
    (rc.toNat ≤ 2 →
      ∃ t, exec (.poll (.full ⟨0xFF, 0xFF⟩ rc unread)) s = .next t ∧ t.rspValid = true ∧ t.seq = .transmit ∧
        (t.rsp.toList.drop 2).take 16 = s.cs.idm.toList ++ s.cs.pmm.toList ∧
        (s.cs.sys.activeLen = 0 → rc = 0 → t.response = [18, 1] ++ s.cs.idm.toList ++ s.cs.pmm.toList) ∧
        (s.cs.sys.activeLen = 0 → rc = 1 →
          t.response = [20, 1] ++ s.cs.idm.toList ++ s.cs.pmm.toList ++ [0x00, 0x00])) ∧
    (2 < rc.toNat → ∃ t, exec (.poll (.full ⟨0xFF, 0xFF⟩ rc unread)) s = .next t ∧ SilentFrom s t) ∧
    ∀ sys : Code, sys ≠ ⟨0xFF, 0xFF⟩ → s.cs.sys.activeLen = 0 →
      ∃ t, exec (.poll (.full sys rc unread)) s = .next t ∧ SilentFrom s t

/-- R224: Echo's response is the command, byte for byte. -/
def Obligations.EchoReply : Prop :=
  ∀ (s : State) (data : List Byte), (Instr.echo data).WellFormed → s.Holds (.echo data) →
    ∃ t, exec (.echo data) s = .next t ∧ t.Replies (encode (.echo data)) ∧ ReplyFrame s t

/-- R230: Request Response is answered with 11 bytes and status 0, whatever follows the IDm. -/
def Obligations.RequestResponseReply : Prop :=
  ∀ (s : State) (idm : Bytes 8) (unread : List Byte), s.AddressedBy idm →
    ∃ t, exec (.reqrsp (.full idm unread)) s = .next t ∧ t.Replies ([11, 0x05] ++ idm.toList ++ [0x00]) ∧ ReplyFrame s t

/-- R227, R232, R233, R235 (e): Authentication1 and every unsupported even code are silent after the address check, with the header left
in RSP (Log 14), and an odd code is silent whatever its address. -/
def Obligations.UnansweredCommands : Prop :=
  ∀ s : State,
    (∀ (idm : Bytes 8) (rest : List Byte), s.AddressedBy idm →
      (∃ t, exec (.auth1 (.full idm rest)) s = .next t ∧ SilentAfterHeader s t 0x10 idm) ∧
      ∀ code : Byte, ∃ t, exec (.unsupportedEven code (.full idm rest)) s = .next t ∧ SilentAfterHeader s t code idm) ∧
    ∀ (code : Byte) (a : Addressed (List Byte)), ∃ t, exec (.oddCode code a) s = .next t ∧ SilentFrom s t

/-- R226: a command that does not carry this card's IDm is silent and touches nothing else. -/
def Obligations.OtherCardsCommandIsSilent : Prop :=
  ∀ s : State,
    (∀ a, s.NotAddressedBy a → ∃ t, exec (.reqsvc a) s = .next t ∧ SilentFrom s t) ∧
    (∀ a, s.NotAddressedBy a → ∃ t, exec (.read a) s = .next t ∧ SilentFrom s t) ∧
    (∀ a, s.NotAddressedBy a → ∃ t, exec (.write a) s = .next t ∧ SilentFrom s t) ∧
    (∀ a, s.NotAddressedBy a → ∃ t, exec (.search a) s = .next t ∧ SilentFrom s t) ∧
    ∀ a : Addressed (List Byte), s.NotAddressedBy a →
      (∃ t, exec (.reqrsp a) s = .next t ∧ SilentFrom s t) ∧
      (∃ t, exec (.reqsys a) s = .next t ∧ SilentFrom s t) ∧
      (∃ t, exec (.auth1 a) s = .next t ∧ SilentFrom s t) ∧
      ∀ code : Byte, ∃ t, exec (.unsupportedEven code a) s = .next t ∧ SilentFrom s t

/-- R235 (c), (e), R265, R270: an addressed Read or Write too short for its operands is silent, with the header left in RSP
(Log 14). -/
def Obligations.TooShortReadOrWriteIsSilent : Prop :=
  ∀ (s : State) (idm : Bytes 8) (bytes : List Byte), s.AddressedBy idm →
    (∃ t, exec (.read (.short idm bytes)) s = .next t ∧ SilentAfterHeader s t 0x06 idm) ∧
    (∃ t, exec (.write (.short idm bytes)) s = .next t ∧ SilentAfterHeader s t 0x08 idm)

/-! ### The service commands -/

/-- R246, R235 (e): Request Service reports key version 00 00 for each of 1 to 32 nodes; it is silent, with the header left in RSP
(Log 14), for another count and for a packet without a count. -/
def Obligations.RequestServiceReply : Prop :=
  ∀ (s : State) (idm : Bytes 8), s.AddressedBy idm →
    (∀ ops : ReqSvcOps, ∃ t, exec (.reqsvc (.full idm ops)) s = .next t ∧
      if 1 ≤ ops.n.toNat ∧ ops.n.toNat ≤ 32 then
        t.Replies ([BitVec.ofNat 8 (11 + 2 * ops.n.toNat), 0x03] ++ idm.toList ++ [ops.n] ++
          List.replicate (2 * ops.n.toNat) 0x00) ∧ ReplyFrame s t
      else SilentAfterHeader s t 0x02 idm) ∧
    ∀ bytes : List Byte, ∃ t, exec (.reqsvc (.short idm bytes)) s = .next t ∧ SilentAfterHeader s t 0x02 idm

/-- R250, R235 (e): Search Service Code answers the active entry at its index, low byte first, and FF FF for any other index; it is
silent, with the header left in RSP (Log 14), for a packet without an index. -/
def Obligations.SearchServiceCodeReply : Prop :=
  ∀ (s : State) (idm : Bytes 8), s.AddressedBy idm →
    (∀ ops : SearchOps,
      let idx := ops.lo.toNat + 256 * ops.hi.toNat
      let c : Code := if idx < s.cs.svc.activeLen then s.cs.svc.entry idx else ⟨0xFF, 0xFF⟩
      ∃ t, exec (.search (.full idm ops)) s = .next t ∧
        t.Replies ([12, 0x0B] ++ idm.toList ++ [c.b0, c.b1]) ∧ ReplyFrame s t) ∧
    ∀ bytes : List Byte, ∃ t, exec (.search (.short idm bytes)) s = .next t ∧ SilentAfterHeader s t 0x0A idm

/-- R253, R235 (e): Request System Code answers the number of active entries and the entries; it is silent, with the header left in RSP
(Log 14), for an empty table. -/
def Obligations.RequestSystemCodeReply : Prop :=
  ∀ (s : State) (idm : Bytes 8) (unread : List Byte), s.AddressedBy idm →
    let k := s.cs.sys.activeLen
    ∃ t, exec (.reqsys (.full idm unread)) s = .next t ∧
      if k = 0 then SilentAfterHeader s t 0x0C idm
      else
        t.Replies ([BitVec.ofNat 8 (11 + 2 * k), 0x0D] ++ idm.toList ++ [BitVec.ofNat 8 k] ++
          (s.cs.sys.toList.take k).flatMap (fun c => [c.b0, c.b1])) ∧ ReplyFrame s t

/-- R41, R49, R101: the active prefix ends at the first (0,0), and no lookup other than an explicit wildcard ever yields an entry
from there on. -/
def Obligations.SentinelNeverMatches : Prop :=
  ∀ T : CodeTable,
    T.activeLen ≤ 4 ∧ (∀ i, i < T.activeLen → T.entry i ≠ ⟨0, 0⟩) ∧ (T.activeLen < 4 → T.entry T.activeLen = ⟨0, 0⟩) ∧
    (∀ (req : Code) (slot : Nat), selectSlot T req = some slot → req ≠ ⟨0xFF, 0xFF⟩ →
      slot < T.activeLen ∧ T.entry slot ≠ ⟨0, 0⟩) ∧
    serviceResolves T ⟨0, 0⟩ = false ∧
    ∀ idx, searchCode T idx ≠ ⟨0, 0⟩

/-! ### Read, Write and the block map -/

/-- R262, R99: a block list of `n` elements parses to their numbers and their length, and nothing else parses. -/
def Obligations.BlockListParsing : Prop :=
  ∀ (n used : Nat) (bytes numbers : List Byte),
    parseList n bytes = some (used, numbers) ↔
      ∃ es rest, es.length = n ∧ bytes = listBytes es ++ rest ∧ numbers = es.map BlockElement.number ∧
        used = (listBytes es).length

/-- R290 to R305: what each block number reads as. -/
def Obligations.BlockReadMap : Prop :=
  ∀ (cs : CardState) (b : Byte),
    (b.toNat < 12 → ∃ v, memRead cs b = some v ∧ ∀ i, i < 16 → v.at i = cs.blk.read (16 * b.toNat + i)) ∧
    ((12 ≤ b.toNat ∧ b.toNat ≤ 15) ∨ b ∈ ([0x81, 0x86, 0x87, 0x90, 0x91, 0x92] : List Byte) →
      (memRead cs b).map Sized.toList = some (List.replicate 16 0x00)) ∧
    (b = 0xE0 → memRead cs b = cs.elog.toList[0]?) ∧
    (b = 0xE1 → memRead cs b = cs.elog.toList[1]?) ∧
    (b = 0x82 → (memRead cs b).map Sized.toList = some (cs.idm.toList ++ [0x00, 0x78] ++ List.replicate 6 0x00)) ∧
    (b = 0x83 → (memRead cs b).map Sized.toList = some (cs.idm.toList ++ cs.pmm.toList)) ∧
    (b = 0x84 → (memRead cs b).map Sized.toList =
      some (cs.svc.toList.flatMap (fun c => [c.b0, c.b1]) ++ List.replicate 8 0x00)) ∧
    (b = 0x85 → (memRead cs b).map Sized.toList =
      some (cs.sys.toList.flatMap (fun c => [c.b0, c.b1]) ++ List.replicate 8 0x00)) ∧
    (b = 0x88 → (memRead cs b).map Sized.toList = some ([0xFF, 0xFF, 0xFF, 0x00, 0xFF] ++ List.replicate 11 0x00)) ∧
    ((16 ≤ b.toNat ∧ b.toNat ≤ 0x80) ∨ (0x89 ≤ b.toNat ∧ b.toNat ≤ 0x8F) ∨ (0x93 ≤ b.toNat ∧ b.toNat ≤ 0xDF) ∨
      0xE2 ≤ b.toNat → memRead cs b = none)

/-- R310 to R316: what a write to each block number does, in a command of `n` blocks: the updates it makes, in order, or none. -/
def Obligations.BlockWriteMap : Prop :=
  ∀ (b : Byte) (v : Block) (n : Nat),
    (b.toNat < 12 → memWrite b v n = some [.blk b.toNat v]) ∧
    (b = 0x83 → n = 1 → ∃ idm pmm : Bytes 8, memWrite b v n = some [.idm idm, .pmm pmm] ∧ idm.toList ++ pmm.toList = v.toList) ∧
    (b = 0x84 → n = 1 → ∃ T : CodeTable, memWrite b v n = some [.svc T] ∧
      ∀ i, i < 4 → T.entry i = ⟨v.at (2 * i), v.at (2 * i + 1)⟩) ∧
    (b = 0x85 → n = 1 → ∃ T : CodeTable, memWrite b v n = some [.sys T] ∧
      ∀ i, i < 4 → T.entry i = ⟨v.at (2 * i), v.at (2 * i + 1)⟩) ∧
    (b = 0x80 ∨ b = 0x90 ∨ b = 0x91 → memWrite b v n = some []) ∧
    (¬ Writable b n → memWrite b v n = none)

/-- R265: a Read whose checks all pass is answered with its blocks in request order, and changes nothing but the reply. -/
def Obligations.ReadReply : Prop :=
  ∀ (s : State) (idm : Bytes 8) (ops : ReadOps) (es : List BlockElement) (rest : List Byte) (data : List Block),
    s.AddressedBy idm → ops.m = 1 → Resolves s.cs.svc ops.svc → CountOk ops.n → es.length = ops.n.toNat →
    ops.list = listBytes es ++ rest → es.map (fun e => memRead s.cs e.number) = data.map some →
    ∃ t, exec (.read (.full idm ops)) s = .next t ∧ ReplyFrame s t ∧
      t.Replies ([BitVec.ofNat 8 (13 + 16 * ops.n.toNat), 0x07] ++ idm.toList ++ [0x00, 0x00, ops.n] ++
        data.flatMap Sized.toList)

/-- R261, R265, R333: a Read that fails a check is answered with the flags of the first failing check, and logged. -/
def Obligations.ReadFailureReply : Prop :=
  ∀ (s : State) (idm : Bytes 8) (ops : ReadOps) (flag2 : Byte), s.AddressedBy idm → ReadFailure s.cs ops flag2 →
    ∃ t, exec (.read (.full idm ops)) s = .next t ∧ FailsWith s t 0x06 idm flag2 ∧ StatusFrame s t

/-- R67, R267 (g): a Read that left the Card State as it was is answered with the same bytes when it is repeated. -/
def Obligations.ReadIsIdempotent : Prop :=
  ∀ (s t : State) (a : Addressed ReadOps), exec (.read a) s = .next t → t.rspValid = true → t.seq = .transmit → t.cs = s.cs →
    s.rspValid = false →
    ∃ u, exec (.read a) t = .next u ∧ u.rspValid = true ∧ u.response = t.response ∧ u.cs = s.cs

/-- R270, R311, R315: a Write to real and no-op blocks stores each block in the Card State and in the image, the last data for a
block staying, and is answered 00/00. -/
def Obligations.WriteBlocksReply : Prop :=
  ∀ (s : State) (idm : Bytes 8) (svc : Code) (es : List BlockElement) (vs : List Block),
    s.AddressedBy idm → s.StoreAnswers → 1 ≤ es.length → es.length ≤ 12 → vs.length = es.length →
    (∀ e ∈ es, AlwaysWritable e.number) →
    ∃ t, exec (.write (.full idm (writeOf svc es vs))) s = .next t ∧
      t.Replies ([12, 0x09] ++ idm.toList ++ [0x00, 0x00]) ∧ WriteFrame s t ∧ t.cs.elog = s.cs.elog ∧
      StoredBlocks s.cs.blk t.cs.blk (writesOf es vs) ∧ StoredBlocks s.nv.blk t.nv.blk (writesOf es vs)

/-- R313, R314: a single-block Write to 0x83 replaces IDm and PMm, to 0x84 the Service Table, to 0x85 the System Table, in the Card
State and in the image; the reply carries the IDm the command was addressed with. -/
def Obligations.WriteIdentityAndTables : Prop :=
  ∀ (s : State) (idm : Bytes 8) (svc : Code) (e : BlockElement) (v : Block),
    s.AddressedBy idm → s.StoreAnswers → e.number = 0x83 ∨ e.number = 0x84 ∨ e.number = 0x85 →
    ∃ t, exec (.write (.full idm (writeOf svc [e] [v]))) s = .next t ∧
      t.Replies ([12, 0x09] ++ idm.toList ++ [0x00, 0x00]) ∧
      (let half (i : Nat) : Bytes 8 := Bytes.ofList 8 (v.toList.drop i)
       let table : CodeTable := ⟨[⟨v.at 0, v.at 1⟩, ⟨v.at 2, v.at 3⟩, ⟨v.at 4, v.at 5⟩, ⟨v.at 6, v.at 7⟩], rfl⟩
       let u : State := { s with rsp := t.rsp, rspValid := true, seq := .transmit,
                                 env := { s.env with store := t.env.store, rst := t.env.rst } }
       t = if e.number = 0x83 then
             { u with cs := { s.cs with idm := half 0, pmm := half 8 }, nv := { s.nv with idm := half 0, pmm := half 8 } }
           else if e.number = 0x84 then { u with cs := { s.cs with svc := table }, nv := { s.nv with svc := table } }
           else { u with cs := { s.cs with sys := table }, nv := { s.nv with sys := table } })

/-- R261, R270, R272 (a), R235 (e): a Write that fails a check before any block is written: answered with the flags of the first failing
check and logged, or, where its length is not 14 + N + 16n, silent with nothing logged and the header left in RSP (Log 14); no block is
written. -/
def Obligations.WriteFailureReply : Prop :=
  ∀ (s : State) (idm : Bytes 8) (ops : WriteOps), s.AddressedBy idm →
    (∀ flag2, WriteFailure ops flag2 →
      ∃ t, exec (.write (.full idm ops)) s = .next t ∧ FailsWith s t 0x08 idm flag2 ∧ StatusFrame s t) ∧
    (ops.m = 1 → CountOk ops.n → ∀ es rest, es.length = ops.n.toNat → ops.body = listBytes es ++ rest →
      rest.length ≠ 16 * ops.n.toNat →
      ∃ t, exec (.write (.full idm ops)) s = .next t ∧ SilentAfterHeader s t 0x08 idm)

/-- R271, R272 (d): a Write stops at its first unwritable block: the blocks before it are stored and stay, those after it are not,
and the reply is FF/A8 with the command logged. -/
def Obligations.WriteStopsAtUnwritable : Prop :=
  ∀ (s : State) (idm : Bytes 8) (svc : Code) (before : List BlockElement) (e : BlockElement) (after : List BlockElement)
    (vs : List Block),
    s.AddressedBy idm → s.StoreAnswers → (before ++ e :: after).length ≤ 12 → vs.length = (before ++ e :: after).length →
    (∀ d ∈ before, Writable d.number (before ++ e :: after).length) →
    ¬ Writable e.number (before ++ e :: after).length →
    ∃ t, exec (.write (.full idm (writeOf svc (before ++ e :: after) vs))) s = .next t ∧ FailsWith s t 0x08 idm 0xA8 ∧
      WriteFrame s t ∧ StoredBlocks s.cs.blk t.cs.blk (writesOf before vs) ∧ StoredBlocks s.nv.blk t.nv.blk (writesOf before vs)

/-- R66, R313, R360, R361, with `rst` as the model schedules it (Log 6): power loss inside a Write. Between the two updates of an
identity write, the new IDm stays with the old PMm, and the next LOAD shows that pair; in a Write of real blocks, exactly the blocks
whose update had completed are stored. -/
def Obligations.WriteCutByPowerLoss : Prop :=
  ∀ (s : State) (idm : Bytes 8) (svc : Code), s.AddressedBy idm → false ∉ s.env.store →
    (∀ (e : BlockElement) (v : Block) (later : List Bool), e.number = 0x83 → s.env.rst = true :: later → true ∉ later →
      ∃ t u, exec (.write (.full idm (writeOf svc [e] [v]))) s = .next t ∧ t.seq = .load ∧ t.rspValid = false ∧
        t.nv = { s.nv with idm := Bytes.ofList 8 (v.toList.take 8) } ∧ t.env.sent = s.env.sent ∧
        step t = .next u ∧ u.seq = .capture ∧ u.cs.idm = Bytes.ofList 8 (v.toList.take 8) ∧ u.cs.pmm = s.nv.pmm) ∧
    ∀ (es : List BlockElement) (vs : List Block) (k : Nat) (later : List Bool), es.length ≤ 12 → vs.length = es.length →
      (∀ e ∈ es, e.number.toNat < 12) → k + 1 < es.length → s.env.rst = List.replicate k false ++ true :: later →
      ∃ t, exec (.write (.full idm (writeOf svc es vs))) s = .next t ∧ t.seq = .load ∧ t.rspValid = false ∧
        t.nv = { s.nv with blk := t.nv.blk } ∧ StoredBlocks s.nv.blk t.nv.blk ((writesOf es vs).take (k + 1)) ∧
        t.cs.elog = s.env.elogReset

/-- R374, U10, in the model's form (Log 5, 7): a call that is never answered holds the CORE until reset. A CORE that waits keeps every
register, step after step, until `rst` is 1; it comes to wait in CAPTURE where no sample is left, in LOAD where one of the sixteen reads
is not answered, in TRANSMIT where the sink does not take a byte, with the gate as it was, and in DISPATCH where the store does not
answer an update of a Write, with what was updated before it stored and no response. -/
def Obligations.UnansweredCallsWaitForReset : Prop :=
  (∀ s : State, s.waiting = true →
    (s.NoReset → ∀ m : Nat, Host.Core.run Sys2Proof.core m s =
      .next { s with env := { s.env with rst := s.env.rst.drop m } }) ∧
    (s.rstNow = true → ∃ t, step s = .next t ∧ t.waiting = false ∧ t.seq = .load ∧ t.nv = s.nv)) ∧
  (∀ s : State, s.waiting = false → s.NoReset → s.seq = .capture → s.env.samples = [] →
    ∀ m : Nat, Host.Core.run Sys2Proof.core m s = .next { s with env := { s.env with rst := s.env.rst.drop m } }) ∧
  (∀ s : State, s.Runs → s.seq = .load → false ∈ s.env.store.take 16 →
    ∃ t, step s = .next t ∧
      t = { s with waiting := true, env := { s.env with store := t.env.store, rst := s.env.rst.tail } }) ∧
  (∀ (s : State) (b : Byte) (rest : List TxAction) (later : List Bool), s.Runs → s.seq = .transmit →
    s.tx = some (.emit b :: rest) → s.env.sink = false :: later →
    step s = .next { s with waiting := true, env := { s.env with sink := later, rst := s.env.rst.tail } }) ∧
  ∀ (s : State) (idm : Bytes 8) (svc : Code), s.AddressedBy idm → s.NoReset → s.seq = .dispatch → s.rspValid = false →
    (∀ (e : BlockElement) (v : Block) (later : List Bool),
      e.number = 0x83 ∨ e.number = 0x84 ∨ e.number = 0x85 → s.env.store = false :: later →
      ∃ t, exec (.write (.full idm (writeOf svc [e] [v]))) s = .next t ∧
        t = { s with rsp := t.rsp, waiting := true, env := { s.env with store := later } }) ∧
    (∀ (e : BlockElement) (v : Block) (later : List Bool), e.number = 0x83 → s.env.store = true :: false :: later →
      ∃ t, exec (.write (.full idm (writeOf svc [e] [v]))) s = .next t ∧
        t = { s with rsp := t.rsp, waiting := true,
                     cs := { s.cs with idm := Bytes.ofList 8 (v.toList.take 8) },
                     nv := { s.nv with idm := Bytes.ofList 8 (v.toList.take 8) },
                     env := { s.env with store := later, rst := s.env.rst.tail } }) ∧
    ∀ (es : List BlockElement) (vs : List Block) (k : Nat) (later : List Bool), es.length ≤ 12 → vs.length = es.length →
      (∀ e ∈ es, e.number.toNat < 12) → k < es.length → s.env.store = List.replicate k true ++ false :: later →
      ∃ t, exec (.write (.full idm (writeOf svc es vs))) s = .next t ∧
        StoredBlocks s.cs.blk t.cs.blk ((writesOf es vs).take k) ∧ StoredBlocks s.nv.blk t.nv.blk ((writesOf es vs).take k) ∧
        t.seq = .dispatch ∧ t.rspValid = false ∧
        ∀ m : Nat, ∃ u : State, Host.Core.run Sys2Proof.core m t = .next u ∧
          u = { t with env := { t.env with rst := t.env.rst.drop m } }
end

