-- ==== Sys2Proof/Laws/Memory.lean ====
section
/-! SUPPORT. Storage by address: a read after a write, and the canonical form that every operation keeps. -/

namespace Sys2Proof.Machine.Memory

theorem read_erase_same (m : Memory) (a : Nat) : (m.erase a).read a = unlisted := by
  induction m with
  | nil => rfl
  | cons c m ih =>
    simp only [erase, List.filter_cons] at ih ⊢
    split
    · next h => simp_all [read]
    · exact ih

theorem read_erase_other {a b : Nat} (h : b ≠ a) (m : Memory) : (m.erase a).read b = m.read b := by
  induction m with
  | nil => rfl
  | cons c m ih =>
    simp only [erase, List.filter_cons] at ih ⊢
    split
    · simp [read, ih]
    · next hc =>
      have : c.1 ≠ b := by simp_all; omega
      simp [read, this, ih]

theorem read_insert_other {a b : Nat} (h : b ≠ a) (m : Memory) (v : Byte) : (m.insert (a, v)).read b = m.read b := by
  induction m with
  | nil => simp [insert, read, h.symm]
  | cons d m ih =>
    simp only [insert]
    split
    · simp [read, h.symm]
    · simp [read, ih]

theorem read_insert_same {a : Nat} {m : Memory} (h : ∀ c ∈ m, c.1 ≠ a) (v : Byte) : (m.insert (a, v)).read a = v := by
  induction m with
  | nil => simp [insert, read]
  | cons d m ih =>
    simp only [insert]
    split
    · simp [read]
    · have hd := h d (by simp)
      simp only [read, hd, if_false]
      exact ih fun c hc => h c (List.mem_cons_of_mem _ hc)

theorem mem_erase {m : Memory} {a : Nat} {c : Host.Cell} : c ∈ m.erase a ↔ c ∈ m ∧ c.1 ≠ a := by
  simp [erase]

theorem mem_insert {m : Memory} {c d : Host.Cell} : d ∈ m.insert c ↔ d = c ∨ d ∈ m := by
  induction m with
  | nil => simp [insert]
  | cons e m ih =>
    simp only [insert]
    split
    · simp
    · simp [ih]; tauto

@[simp] theorem read_write_same (m : Memory) (a : Nat) (v : Byte) : (m.write a v).read a = v := by
  simp only [write]
  split
  · next h => rw [read_erase_same, h]
  · exact read_insert_same (fun c hc => (mem_erase.mp hc).2) v

theorem read_write_other {a b : Nat} (h : b ≠ a) (m : Memory) (v : Byte) : (m.write a v).read b = m.read b := by
  simp only [write]
  split
  · exact read_erase_other h m
  · rw [read_insert_other h, read_erase_other h]

/-! ### The canonical form -/

theorem wf_erase {m : Memory} (h : m.wf) (a : Nat) : (m.erase a).wf :=
  ⟨h.1.filter _, fun c hc => h.2 c (mem_erase.mp hc).1⟩

theorem wf_insert {m : Memory} (h : m.wf) {a : Nat} {v : Byte} (ha : ∀ c ∈ m, c.1 ≠ a) (hv : v ≠ unlisted) :
    (m.insert (a, v)).wf := by
  refine ⟨?_, fun c hc => ?_⟩
  · have hp := h.1
    clear h hv
    induction m with
    | nil => simp [insert]
    | cons d m ih =>
      rw [List.pairwise_cons] at hp
      simp only [insert]
      split
      · next hlt =>
        refine List.pairwise_cons.mpr ⟨fun c hc => ?_, List.pairwise_cons.mpr hp⟩
        rcases List.mem_cons.mp hc with rfl | hc
        · exact hlt
        · exact lt_trans hlt (hp.1 c hc)
      · next hle =>
        refine List.pairwise_cons.mpr ⟨fun c hc => ?_, ih (fun c hc => ha c (List.mem_cons_of_mem _ hc)) hp.2⟩
        rcases mem_insert.mp hc with rfl | hc
        · have := ha d (by simp)
          simp only at hle ⊢
          omega
        · exact hp.1 c hc
  · rcases mem_insert.mp hc with rfl | hc
    · exact hv
    · exact h.2 c hc

/-- One write keeps the canonical form. -/
theorem wf_write {m : Memory} (h : m.wf) (a : Nat) (v : Byte) : (m.write a v).wf := by
  simp only [write]
  split
  · exact wf_erase h a
  · next hv => exact wf_insert (wf_erase h a) (fun c hc => (mem_erase.mp hc).2) hv

theorem wf_writeBytes {m : Memory} (h : m.wf) (a : Nat) (vs : List Byte) : (m.writeBytes a vs).wf := by
  induction vs generalizing m a with
  | nil => exact h
  | cons v vs ih => exact ih (wf_write h a v) (a + 1)

/-- A block write keeps the canonical form. -/
theorem wf_writeBlock {m : Memory} (h : m.wf) (b : Nat) (v : Block) : (m.writeBlock b v).wf :=
  wf_writeBytes h _ _

theorem wf_nil : Memory.wf [] := by simp [Memory.wf]

/-- The cells a write leaves are cells that were there, or the one written. -/
theorem mem_write {m : Memory} {a : Nat} {v : Byte} {c : Host.Cell} (h : c ∈ m.write a v) : c ∈ m ∨ c.1 = a := by
  simp only [write] at h
  split at h
  · exact .inl (mem_erase.mp h).1
  · rcases mem_insert.mp h with rfl | h
    · exact .inr rfl
    · exact .inl (mem_erase.mp h).1

theorem mem_writeBytes {m : Memory} {a : Nat} {vs : List Byte} {c : Host.Cell} (h : c ∈ m.writeBytes a vs) :
    c ∈ m ∨ (a ≤ c.1 ∧ c.1 < a + vs.length) := by
  induction vs generalizing m a with
  | nil => exact .inl h
  | cons v vs ih =>
    rcases ih h with h | h
    · rcases mem_write h with h | h
      · exact .inl h
      · right; simp; omega
    · right; simp; omega

theorem mem_writeBlock {m : Memory} {b : Nat} {v : Block} {c : Host.Cell} (h : c ∈ m.writeBlock b v) :
    c ∈ m ∨ (16 * b ≤ c.1 ∧ c.1 < 16 * b + 16) := by
  have := mem_writeBytes h
  rwa [v.length_eq] at this

/-! ### Blocks -/

theorem read_writeBytes_outside {x : Nat} (m : Memory) (a : Nat) (vs : List Byte) (h : x < a ∨ a + vs.length ≤ x) :
    (m.writeBytes a vs).read x = m.read x := by
  induction vs generalizing m a with
  | nil => rfl
  | cons v vs ih =>
    simp only [List.length_cons] at h
    rw [writeBytes, ih _ _ (by omega), read_write_other (by omega)]

theorem read_writeBytes_inside (m : Memory) (a : Nat) (vs : List Byte) (i : Nat) (h : i < vs.length) :
    (m.writeBytes a vs).read (a + i) = vs[i] := by
  induction vs generalizing m a i with
  | nil => simp at h
  | cons v vs ih =>
    cases i with
    | zero => rw [writeBytes, read_writeBytes_outside _ _ _ (by omega)]; simp
    | succ i =>
      have := ih (m.write a v) (a + 1) i (by simpa using h)
      simpa [writeBytes, Nat.add_assoc, Nat.add_comm 1 i] using this

/-- A block reads back as it was written. -/
@[simp] theorem readBlock_writeBlock_same (m : Memory) (b : Nat) (v : Block) : (m.writeBlock b v).readBlock b = v := by
  cases v with | mk l hl =>
  simp only [readBlock, writeBlock, Sized.mk.injEq]
  apply List.ext_getElem (by simp [hl])
  intro i h1 h2
  simp only [List.getElem_map, List.getElem_range]
  exact read_writeBytes_inside m (16 * b) l i h2

/-- Every other block reads as before. -/
theorem readBlock_writeBlock_other {b c : Nat} (h : c ≠ b) (m : Memory) (v : Block) :
    (m.writeBlock b v).readBlock c = m.readBlock c := by
  simp only [readBlock, writeBlock, Sized.mk.injEq]
  apply List.map_congr_left
  intro i hi
  apply read_writeBytes_outside
  have := List.mem_range.mp hi
  have := v.length_eq
  omega

/-- An address outside the block reads as before. -/
theorem read_writeBlock_outside {x b : Nat} (h : x < 16 * b ∨ 16 * b + 16 ≤ x) (m : Memory) (v : Block) :
    (m.writeBlock b v).read x = m.read x :=
  read_writeBytes_outside _ _ _ (by have := v.length_eq; omega)

/-- In canonical form, equal contents are equal data. -/
theorem eq_of_reads {m k : Memory} (hm : m.wf) (hk : k.wf) (h : ∀ a, m.read a = k.read a) : m = k := by
  have below : ∀ (l : Memory) (a : Nat), (∀ c ∈ l, a < c.1) → l.read a = unlisted := by
    intro l a hl
    induction l with
    | nil => rfl
    | cons c l ih =>
      have := hl c (by simp)
      rw [read, if_neg (by omega), ih fun d hd => hl d (List.mem_cons_of_mem _ hd)]
  induction m generalizing k with
  | nil =>
    cases k with
    | nil => rfl
    | cons d k =>
      have := h d.1
      simp [read] at this
      exact absurd this.symm (hk.2 d (by simp))
  | cons c m ih =>
    have hm' := List.pairwise_cons.mp hm.1
    cases k with
    | nil =>
      have := h c.1
      simp [read] at this
      exact absurd this (hm.2 c (by simp))
    | cons d k =>
      have hk' := List.pairwise_cons.mp hk.1
      have hcd : c.1 = d.1 := by
        rcases lt_trichotomy c.1 d.1 with hlt | heq | hgt
        · exfalso
          have h1 := h c.1
          rw [read, if_pos rfl, below (d :: k) c.1 (fun e he => ?_)] at h1
          · exact hm.2 c (by simp) h1
          · rcases List.mem_cons.mp he with rfl | he
            · exact hlt
            · exact lt_trans hlt (hk'.1 e he)
        · exact heq
        · exfalso
          have h1 := h d.1
          rw [read.eq_2 d.1 d k, if_pos rfl, below (c :: m) d.1 (fun e he => ?_)] at h1
          · exact hk.2 d (by simp) h1.symm
          · rcases List.mem_cons.mp he with rfl | he
            · exact hgt
            · exact lt_trans hgt (hm'.1 e he)
      have hv : c.2 = d.2 := by
        have h1 := h c.1
        simpa [read, hcd] using h1
      have htail : m = k := by
        refine ih ⟨hm'.2, fun e he => hm.2 e (List.mem_cons_of_mem _ he)⟩
          ⟨hk'.2, fun e he => hk.2 e (List.mem_cons_of_mem _ he)⟩ fun a => ?_
        by_cases ha : c.1 = a
        · rw [below m a (fun e he => ha ▸ hm'.1 e he), below k a (fun e he => by rw [← ha, hcd]; exact hk'.1 e he)]
        · have h1 := h a
          rwa [read, read, if_neg ha, if_neg (by rwa [← hcd])] at h1
      rw [htail, Prod.ext hcd hv]

end Sys2Proof.Machine.Memory
end

