-- ==== Sys2Proof/Laws/Sized.lean ====
section
/-! SUPPORT. Sequences of a fixed length: what `overlay`, `ofListD` and `at` give. -/

namespace Sys2Proof

namespace Sized

variable {α : Type} {n : Nat}

theorem eq_of_toList {v w : Sized α n} (h : v.toList = w.toList) : v = w := by
  cases v; cases w; simp_all

@[simp] theorem length_toList (v : Sized α n) : v.toList.length = n := v.length_eq

@[simp] theorem toList_fill (a : α) : (fill n a).toList = List.replicate n a := rfl

theorem toList_ofListD (a : α) (l : List α) : (ofListD n a l).toList = (l ++ List.replicate n a).take n := rfl

/-- A list of the right length is kept as it is. -/
theorem toList_ofListD_of_length {a : α} {l : List α} (h : l.length = n) : (ofListD n a l).toList = l := by
  simp [toList_ofListD, ← h]

@[simp] theorem ofListD_toList (a : α) (v : Sized α n) : ofListD n a v.toList = v :=
  eq_of_toList (toList_ofListD_of_length v.length_eq)

theorem toList_overlay (v : Sized α n) (pos : Nat) (xs : List α) :
    (v.overlay pos xs).toList = (v.toList.take pos ++ xs ++ v.toList.drop (pos + xs.length)).take n := rfl

/-- Where the written part fits, nothing is cut off. -/
theorem toList_overlay_of_le {v : Sized α n} {pos : Nat} {xs : List α} (h : pos + xs.length ≤ n) :
    (v.overlay pos xs).toList = v.toList.take pos ++ xs ++ v.toList.drop (pos + xs.length) := by
  rw [toList_overlay, List.take_of_length_le]
  simp; omega

/-- Inside the written part an overlay reads as what was written. -/
theorem getElem?_overlay_inside {v : Sized α n} {pos i : Nat} {xs : List α} (hp : pos ≤ i) (hi : i < pos + xs.length)
    (h : i < n) : (v.overlay pos xs).toList[i]? = xs[i - pos]? := by
  rw [toList_overlay, List.getElem?_take_of_lt h, List.append_assoc, List.getElem?_append_right (by simp; omega),
    List.getElem?_append_left (by simp; omega)]
  congr 1
  simp; omega

/-- Outside the written part an overlay reads as before. -/
theorem getElem?_overlay_outside {v : Sized α n} {pos i : Nat} {xs : List α} (hi : i < pos ∨ pos + xs.length ≤ i)
    (h : i < n) : (v.overlay pos xs).toList[i]? = v.toList[i]? := by
  rw [toList_overlay, List.getElem?_take_of_lt h]
  rcases hi with hi | hi
  · rw [List.append_assoc, List.getElem?_append_left (by simp; omega), List.getElem?_take_of_lt hi]
  · by_cases hp : pos ≤ n
    · rw [List.getElem?_append_right (by simp; omega), List.getElem?_drop]
      congr 1
      simp; omega
    · omega

/-- A write over the start of a sequence is what its start then holds. -/
theorem take_overlay_zero {v : Sized α n} {xs : List α} (h : xs.length ≤ n) :
    (v.overlay 0 xs).toList.take xs.length = xs := by
  rw [toList_overlay_of_le (by omega)]
  simp

/-- A write that continues a known start extends it. -/
theorem take_overlay_append {v : Sized α n} {pre xs : List α} (hv : v.toList.take pre.length = pre)
    (h : pre.length + xs.length ≤ n) :
    (v.overlay pre.length xs).toList.take (pre ++ xs).length = pre ++ xs := by
  rw [toList_overlay_of_le h, hv]
  exact List.take_left

/-! ### Segments -/

/-- The sequence holds `xs` from `pos` on. -/
def Has (v : Sized α n) (pos : Nat) (xs : List α) : Prop := (v.toList.drop pos).take xs.length = xs

theorem has_nil (v : Sized α n) (pos : Nat) : v.Has pos [] := by simp [Has]

theorem has_self (v : Sized α n) : v.Has 0 v.toList := by simp [Has]

/-- A write that fits leaves its segment. -/
theorem has_overlay_same {v : Sized α n} {pos : Nat} {xs : List α} (h : pos + xs.length ≤ n) :
    (v.overlay pos xs).Has pos xs := by
  have hl : (v.toList.take pos).length = pos := by simp; omega
  rw [Has, toList_overlay_of_le h, List.append_assoc, List.drop_append_of_le_length (by omega), List.drop_of_length_le
    (by omega)]
  simp

/-- A write elsewhere keeps a segment. -/
theorem has_overlay_disjoint {v : Sized α n} {pos pos' : Nat} {xs ys : List α} (h : v.Has pos xs)
    (hd : pos' + ys.length ≤ pos ∨ pos + xs.length ≤ pos') (hn : pos + xs.length ≤ n) : (v.overlay pos' ys).Has pos xs := by
  refine Eq.trans ?_ h
  apply List.ext_getElem?
  intro i
  by_cases hi : i < xs.length
  · rw [List.getElem?_take_of_lt hi, List.getElem?_take_of_lt hi, List.getElem?_drop, List.getElem?_drop,
      getElem?_overlay_outside (by omega) (by omega)]
  · rw [List.getElem?_eq_none (by simp; omega), List.getElem?_eq_none (by simp; omega)]

/-- Adjacent segments join. -/
theorem has_append {v : Sized α n} {pos : Nat} {xs ys : List α} (h : v.Has pos xs) (h' : v.Has (pos + xs.length) ys) :
    v.Has pos (xs ++ ys) := by
  rw [Has] at *
  rw [List.length_append, List.take_add, h, List.drop_drop, h']

end Sized

namespace Bytes

variable {n : Nat}

@[simp] theorem toList_zero : (Bytes.zero n).toList = List.replicate n 0 := rfl

theorem toList_ofList_of_length {l : List Byte} (h : l.length = n) : (Bytes.ofList n l).toList = l :=
  Sized.toList_ofListD_of_length h

@[simp] theorem ofList_toList (v : Bytes n) : Bytes.ofList n v.toList = v := Sized.ofListD_toList 0 v

theorem at_eq_getD (v : Bytes n) (i : Nat) : v.at i = v.toList[i]?.getD 0 := by
  simp [Bytes.at, List.getD_eq_getElem?_getD]

theorem at_overlay_inside {v : Bytes n} {pos i : Nat} {xs : List Byte} (hp : pos ≤ i) (hi : i < pos + xs.length)
    (h : i < n) : Bytes.at (v.overlay pos xs) i = xs.getD (i - pos) 0 := by
  simp [at_eq_getD, Sized.getElem?_overlay_inside hp hi h, List.getD_eq_getElem?_getD]

theorem at_overlay_outside {v : Bytes n} {pos i : Nat} {xs : List Byte} (hi : i < pos ∨ pos + xs.length ≤ i) :
    Bytes.at (v.overlay pos xs) i = v.at i := by
  by_cases h : i < n
  · simp [at_eq_getD, Sized.getElem?_overlay_outside hi h]
  · simp [at_eq_getD, List.getElem?_eq_none (l := v.toList) (i := i) (by simp; omega),
      List.getElem?_eq_none (l := (v.overlay pos xs).toList) (i := i) (by simp; omega)]

end Bytes

end Sys2Proof
end

