-- ==== Sys2Proof/Laws/State.lean ====
section
/-! SUPPORT. Each named update of the state, field by field. -/

namespace Sys2Proof.Machine.State

variable (s : State)

/-! `putRsp` -/

@[simp] theorem putRsp_seq (pos : Nat) (xs : List Byte) : (s.putRsp pos xs).seq = s.seq := rfl
@[simp] theorem putRsp_buf (pos : Nat) (xs : List Byte) : (s.putRsp pos xs).buf = s.buf := rfl
@[simp] theorem putRsp_nCap (pos : Nat) (xs : List Byte) : (s.putRsp pos xs).nCap = s.nCap := rfl
@[simp] theorem putRsp_off (pos : Nat) (xs : List Byte) : (s.putRsp pos xs).off = s.off := rfl
@[simp] theorem putRsp_ph (pos : Nat) (xs : List Byte) : (s.putRsp pos xs).ph = s.ph := rfl
@[simp] theorem putRsp_pol (pos : Nat) (xs : List Byte) : (s.putRsp pos xs).pol = s.pol := rfl
@[simp] theorem putRsp_dec (pos : Nat) (xs : List Byte) : (s.putRsp pos xs).dec = s.dec := rfl
@[simp] theorem putRsp_nDec (pos : Nat) (xs : List Byte) : (s.putRsp pos xs).nDec = s.nDec := rfl
@[simp] theorem putRsp_cmd (pos : Nat) (xs : List Byte) : (s.putRsp pos xs).cmd = s.cmd := rfl
@[simp] theorem putRsp_cmdLen (pos : Nat) (xs : List Byte) : (s.putRsp pos xs).cmdLen = s.cmdLen := rfl
@[simp] theorem putRsp_rsp (pos : Nat) (xs : List Byte) : (s.putRsp pos xs).rsp = s.rsp.overlay pos xs := rfl
@[simp] theorem putRsp_rspValid (pos : Nat) (xs : List Byte) : (s.putRsp pos xs).rspValid = s.rspValid := rfl
@[simp] theorem putRsp_crc (pos : Nat) (xs : List Byte) : (s.putRsp pos xs).crc = s.crc := rfl
@[simp] theorem putRsp_gate (pos : Nat) (xs : List Byte) : (s.putRsp pos xs).gate = s.gate := rfl
@[simp] theorem putRsp_cs (pos : Nat) (xs : List Byte) : (s.putRsp pos xs).cs = s.cs := rfl
@[simp] theorem putRsp_nv (pos : Nat) (xs : List Byte) : (s.putRsp pos xs).nv = s.nv := rfl
@[simp] theorem putRsp_tx (pos : Nat) (xs : List Byte) : (s.putRsp pos xs).tx = s.tx := rfl
@[simp] theorem putRsp_waiting (pos : Nat) (xs : List Byte) : (s.putRsp pos xs).waiting = s.waiting := rfl
@[simp] theorem putRsp_env (pos : Nat) (xs : List Byte) : (s.putRsp pos xs).env = s.env := rfl

/-! `putCmd` -/

@[simp] theorem putCmd_seq (p : List Byte) : (s.putCmd p).seq = s.seq := rfl
@[simp] theorem putCmd_buf (p : List Byte) : (s.putCmd p).buf = s.buf := rfl
@[simp] theorem putCmd_nCap (p : List Byte) : (s.putCmd p).nCap = s.nCap := rfl
@[simp] theorem putCmd_off (p : List Byte) : (s.putCmd p).off = s.off := rfl
@[simp] theorem putCmd_ph (p : List Byte) : (s.putCmd p).ph = s.ph := rfl
@[simp] theorem putCmd_pol (p : List Byte) : (s.putCmd p).pol = s.pol := rfl
@[simp] theorem putCmd_dec (p : List Byte) : (s.putCmd p).dec = s.dec := rfl
@[simp] theorem putCmd_nDec (p : List Byte) : (s.putCmd p).nDec = s.nDec := rfl
@[simp] theorem putCmd_cmd (p : List Byte) : (s.putCmd p).cmd = s.cmd.overlay 0 p := rfl
@[simp] theorem putCmd_cmdLen (p : List Byte) : (s.putCmd p).cmdLen = p.length := rfl
@[simp] theorem putCmd_rsp (p : List Byte) : (s.putCmd p).rsp = s.rsp := rfl
@[simp] theorem putCmd_rspValid (p : List Byte) : (s.putCmd p).rspValid = s.rspValid := rfl
@[simp] theorem putCmd_crc (p : List Byte) : (s.putCmd p).crc = s.crc := rfl
@[simp] theorem putCmd_gate (p : List Byte) : (s.putCmd p).gate = s.gate := rfl
@[simp] theorem putCmd_cs (p : List Byte) : (s.putCmd p).cs = s.cs := rfl
@[simp] theorem putCmd_nv (p : List Byte) : (s.putCmd p).nv = s.nv := rfl
@[simp] theorem putCmd_tx (p : List Byte) : (s.putCmd p).tx = s.tx := rfl
@[simp] theorem putCmd_waiting (p : List Byte) : (s.putCmd p).waiting = s.waiting := rfl
@[simp] theorem putCmd_env (p : List Byte) : (s.putCmd p).env = s.env := rfl

/-! `enterCapture` -/

@[simp] theorem enterCapture_seq : (s.enterCapture).seq = .capture := rfl
@[simp] theorem enterCapture_buf : (s.enterCapture).buf = s.buf := rfl
@[simp] theorem enterCapture_nCap : (s.enterCapture).nCap = 0 := rfl
@[simp] theorem enterCapture_off : (s.enterCapture).off = s.off := rfl
@[simp] theorem enterCapture_ph : (s.enterCapture).ph = s.ph := rfl
@[simp] theorem enterCapture_pol : (s.enterCapture).pol = s.pol := rfl
@[simp] theorem enterCapture_dec : (s.enterCapture).dec = s.dec := rfl
@[simp] theorem enterCapture_nDec : (s.enterCapture).nDec = s.nDec := rfl
@[simp] theorem enterCapture_cmd : (s.enterCapture).cmd = s.cmd := rfl
@[simp] theorem enterCapture_cmdLen : (s.enterCapture).cmdLen = s.cmdLen := rfl
@[simp] theorem enterCapture_rsp : (s.enterCapture).rsp = s.rsp := rfl
@[simp] theorem enterCapture_rspValid : (s.enterCapture).rspValid = s.rspValid := rfl
@[simp] theorem enterCapture_crc : (s.enterCapture).crc = s.crc := rfl
@[simp] theorem enterCapture_gate : (s.enterCapture).gate = s.gate := rfl
@[simp] theorem enterCapture_cs : (s.enterCapture).cs = s.cs := rfl
@[simp] theorem enterCapture_nv : (s.enterCapture).nv = s.nv := rfl
@[simp] theorem enterCapture_tx : (s.enterCapture).tx = s.tx := rfl
@[simp] theorem enterCapture_waiting : (s.enterCapture).waiting = s.waiting := rfl
@[simp] theorem enterCapture_env : (s.enterCapture).env = s.env := rfl

/-! `diagnose` -/

@[simp] theorem diagnose_seq (f : Failure) : (s.diagnose f).seq = s.seq := rfl
@[simp] theorem diagnose_buf (f : Failure) : (s.diagnose f).buf = s.buf := rfl
@[simp] theorem diagnose_nCap (f : Failure) : (s.diagnose f).nCap = s.nCap := rfl
@[simp] theorem diagnose_off (f : Failure) : (s.diagnose f).off = s.off := rfl
@[simp] theorem diagnose_ph (f : Failure) : (s.diagnose f).ph = s.ph := rfl
@[simp] theorem diagnose_pol (f : Failure) : (s.diagnose f).pol = s.pol := rfl
@[simp] theorem diagnose_dec (f : Failure) : (s.diagnose f).dec = s.dec := rfl
@[simp] theorem diagnose_nDec (f : Failure) : (s.diagnose f).nDec = s.nDec := rfl
@[simp] theorem diagnose_cmd (f : Failure) : (s.diagnose f).cmd = s.cmd := rfl
@[simp] theorem diagnose_cmdLen (f : Failure) : (s.diagnose f).cmdLen = s.cmdLen := rfl
@[simp] theorem diagnose_rsp (f : Failure) : (s.diagnose f).rsp = s.rsp := rfl
@[simp] theorem diagnose_rspValid (f : Failure) : (s.diagnose f).rspValid = s.rspValid := rfl
@[simp] theorem diagnose_crc (f : Failure) : (s.diagnose f).crc = s.crc := rfl
@[simp] theorem diagnose_gate (f : Failure) : (s.diagnose f).gate = s.gate := rfl
@[simp] theorem diagnose_cs (f : Failure) : (s.diagnose f).cs = s.cs := rfl
@[simp] theorem diagnose_nv (f : Failure) : (s.diagnose f).nv = s.nv := rfl
@[simp] theorem diagnose_tx (f : Failure) : (s.diagnose f).tx = s.tx := rfl
@[simp] theorem diagnose_waiting (f : Failure) : (s.diagnose f).waiting = s.waiting := rfl
@[simp] theorem diagnose_env (f : Failure) : (s.diagnose f).env = { s.env with diags := s.env.diags ++ [f.code] } := rfl

/-! `raise` -/

@[simp] theorem raise_seq (f : Failure) : (s.raise f).seq = .capture := rfl
@[simp] theorem raise_buf (f : Failure) : (s.raise f).buf = s.buf := rfl
@[simp] theorem raise_nCap (f : Failure) : (s.raise f).nCap = 0 := rfl
@[simp] theorem raise_off (f : Failure) : (s.raise f).off = s.off := rfl
@[simp] theorem raise_ph (f : Failure) : (s.raise f).ph = s.ph := rfl
@[simp] theorem raise_pol (f : Failure) : (s.raise f).pol = s.pol := rfl
@[simp] theorem raise_dec (f : Failure) : (s.raise f).dec = s.dec := rfl
@[simp] theorem raise_nDec (f : Failure) : (s.raise f).nDec = s.nDec := rfl
@[simp] theorem raise_cmd (f : Failure) : (s.raise f).cmd = s.cmd := rfl
@[simp] theorem raise_cmdLen (f : Failure) : (s.raise f).cmdLen = s.cmdLen := rfl
@[simp] theorem raise_rsp (f : Failure) : (s.raise f).rsp = s.rsp := rfl
@[simp] theorem raise_rspValid (f : Failure) : (s.raise f).rspValid = false := rfl
@[simp] theorem raise_crc (f : Failure) : (s.raise f).crc = s.crc := rfl
@[simp] theorem raise_gate (f : Failure) : (s.raise f).gate = s.gate := rfl
@[simp] theorem raise_cs (f : Failure) : (s.raise f).cs = s.cs := rfl
@[simp] theorem raise_nv (f : Failure) : (s.raise f).nv = s.nv := rfl
@[simp] theorem raise_tx (f : Failure) : (s.raise f).tx = s.tx := rfl
@[simp] theorem raise_waiting (f : Failure) : (s.raise f).waiting = s.waiting := rfl
@[simp] theorem raise_env (f : Failure) : (s.raise f).env = { s.env with diags := s.env.diags ++ [f.code] } := rfl

/-! `noResponse` -/

@[simp] theorem noResponse_seq : (s.noResponse).seq = .capture := rfl
@[simp] theorem noResponse_buf : (s.noResponse).buf = s.buf := rfl
@[simp] theorem noResponse_nCap : (s.noResponse).nCap = 0 := rfl
@[simp] theorem noResponse_off : (s.noResponse).off = s.off := rfl
@[simp] theorem noResponse_ph : (s.noResponse).ph = s.ph := rfl
@[simp] theorem noResponse_pol : (s.noResponse).pol = s.pol := rfl
@[simp] theorem noResponse_dec : (s.noResponse).dec = s.dec := rfl
@[simp] theorem noResponse_nDec : (s.noResponse).nDec = s.nDec := rfl
@[simp] theorem noResponse_cmd : (s.noResponse).cmd = s.cmd := rfl
@[simp] theorem noResponse_cmdLen : (s.noResponse).cmdLen = s.cmdLen := rfl
@[simp] theorem noResponse_rsp : (s.noResponse).rsp = s.rsp := rfl
@[simp] theorem noResponse_rspValid : (s.noResponse).rspValid = false := rfl
@[simp] theorem noResponse_crc : (s.noResponse).crc = s.crc := rfl
@[simp] theorem noResponse_gate : (s.noResponse).gate = s.gate := rfl
@[simp] theorem noResponse_cs : (s.noResponse).cs = s.cs := rfl
@[simp] theorem noResponse_nv : (s.noResponse).nv = s.nv := rfl
@[simp] theorem noResponse_tx : (s.noResponse).tx = s.tx := rfl
@[simp] theorem noResponse_waiting : (s.noResponse).waiting = s.waiting := rfl
@[simp] theorem noResponse_env : (s.noResponse).env = s.env := rfl

/-! `respond` -/

@[simp] theorem respond_seq : (s.respond).seq = .transmit := rfl
@[simp] theorem respond_buf : (s.respond).buf = s.buf := rfl
@[simp] theorem respond_nCap : (s.respond).nCap = s.nCap := rfl
@[simp] theorem respond_off : (s.respond).off = s.off := rfl
@[simp] theorem respond_ph : (s.respond).ph = s.ph := rfl
@[simp] theorem respond_pol : (s.respond).pol = s.pol := rfl
@[simp] theorem respond_dec : (s.respond).dec = s.dec := rfl
@[simp] theorem respond_nDec : (s.respond).nDec = s.nDec := rfl
@[simp] theorem respond_cmd : (s.respond).cmd = s.cmd := rfl
@[simp] theorem respond_cmdLen : (s.respond).cmdLen = s.cmdLen := rfl
@[simp] theorem respond_rsp : (s.respond).rsp = s.rsp := rfl
@[simp] theorem respond_rspValid : (s.respond).rspValid = true := rfl
@[simp] theorem respond_crc : (s.respond).crc = s.crc := rfl
@[simp] theorem respond_gate : (s.respond).gate = s.gate := rfl
@[simp] theorem respond_cs : (s.respond).cs = s.cs := rfl
@[simp] theorem respond_nv : (s.respond).nv = s.nv := rfl
@[simp] theorem respond_tx : (s.respond).tx = s.tx := rfl
@[simp] theorem respond_waiting : (s.respond).waiting = s.waiting := rfl
@[simp] theorem respond_env : (s.respond).env = s.env := rfl

/-! `putHeader` -/

@[simp] theorem putHeader_seq (c : Byte) (idm : Bytes 8) : (s.putHeader c idm).seq = s.seq := rfl
@[simp] theorem putHeader_buf (c : Byte) (idm : Bytes 8) : (s.putHeader c idm).buf = s.buf := rfl
@[simp] theorem putHeader_nCap (c : Byte) (idm : Bytes 8) : (s.putHeader c idm).nCap = s.nCap := rfl
@[simp] theorem putHeader_off (c : Byte) (idm : Bytes 8) : (s.putHeader c idm).off = s.off := rfl
@[simp] theorem putHeader_ph (c : Byte) (idm : Bytes 8) : (s.putHeader c idm).ph = s.ph := rfl
@[simp] theorem putHeader_pol (c : Byte) (idm : Bytes 8) : (s.putHeader c idm).pol = s.pol := rfl
@[simp] theorem putHeader_dec (c : Byte) (idm : Bytes 8) : (s.putHeader c idm).dec = s.dec := rfl
@[simp] theorem putHeader_nDec (c : Byte) (idm : Bytes 8) : (s.putHeader c idm).nDec = s.nDec := rfl
@[simp] theorem putHeader_cmd (c : Byte) (idm : Bytes 8) : (s.putHeader c idm).cmd = s.cmd := rfl
@[simp] theorem putHeader_cmdLen (c : Byte) (idm : Bytes 8) : (s.putHeader c idm).cmdLen = s.cmdLen := rfl
@[simp] theorem putHeader_rsp (c : Byte) (idm : Bytes 8) : (s.putHeader c idm).rsp = s.rsp.overlay 1 ((c + 1) :: idm.toList) := rfl
@[simp] theorem putHeader_rspValid (c : Byte) (idm : Bytes 8) : (s.putHeader c idm).rspValid = s.rspValid := rfl
@[simp] theorem putHeader_crc (c : Byte) (idm : Bytes 8) : (s.putHeader c idm).crc = s.crc := rfl
@[simp] theorem putHeader_gate (c : Byte) (idm : Bytes 8) : (s.putHeader c idm).gate = s.gate := rfl
@[simp] theorem putHeader_cs (c : Byte) (idm : Bytes 8) : (s.putHeader c idm).cs = s.cs := rfl
@[simp] theorem putHeader_nv (c : Byte) (idm : Bytes 8) : (s.putHeader c idm).nv = s.nv := rfl
@[simp] theorem putHeader_tx (c : Byte) (idm : Bytes 8) : (s.putHeader c idm).tx = s.tx := rfl
@[simp] theorem putHeader_waiting (c : Byte) (idm : Bytes 8) : (s.putHeader c idm).waiting = s.waiting := rfl
@[simp] theorem putHeader_env (c : Byte) (idm : Bytes 8) : (s.putHeader c idm).env = s.env := rfl

/-! `putLength` -/

@[simp] theorem putLength_seq (n : Nat) : (s.putLength n).seq = s.seq := rfl
@[simp] theorem putLength_buf (n : Nat) : (s.putLength n).buf = s.buf := rfl
@[simp] theorem putLength_nCap (n : Nat) : (s.putLength n).nCap = s.nCap := rfl
@[simp] theorem putLength_off (n : Nat) : (s.putLength n).off = s.off := rfl
@[simp] theorem putLength_ph (n : Nat) : (s.putLength n).ph = s.ph := rfl
@[simp] theorem putLength_pol (n : Nat) : (s.putLength n).pol = s.pol := rfl
@[simp] theorem putLength_dec (n : Nat) : (s.putLength n).dec = s.dec := rfl
@[simp] theorem putLength_nDec (n : Nat) : (s.putLength n).nDec = s.nDec := rfl
@[simp] theorem putLength_cmd (n : Nat) : (s.putLength n).cmd = s.cmd := rfl
@[simp] theorem putLength_cmdLen (n : Nat) : (s.putLength n).cmdLen = s.cmdLen := rfl
@[simp] theorem putLength_rsp (n : Nat) : (s.putLength n).rsp = s.rsp.overlay 0 [BitVec.ofNat 8 n] := rfl
@[simp] theorem putLength_rspValid (n : Nat) : (s.putLength n).rspValid = s.rspValid := rfl
@[simp] theorem putLength_crc (n : Nat) : (s.putLength n).crc = s.crc := rfl
@[simp] theorem putLength_gate (n : Nat) : (s.putLength n).gate = s.gate := rfl
@[simp] theorem putLength_cs (n : Nat) : (s.putLength n).cs = s.cs := rfl
@[simp] theorem putLength_nv (n : Nat) : (s.putLength n).nv = s.nv := rfl
@[simp] theorem putLength_tx (n : Nat) : (s.putLength n).tx = s.tx := rfl
@[simp] theorem putLength_waiting (n : Nat) : (s.putLength n).waiting = s.waiting := rfl
@[simp] theorem putLength_env (n : Nat) : (s.putLength n).env = s.env := rfl

/-! `putFlags` -/

@[simp] theorem putFlags_seq (f g : Byte) : (s.putFlags f g).seq = s.seq := rfl
@[simp] theorem putFlags_buf (f g : Byte) : (s.putFlags f g).buf = s.buf := rfl
@[simp] theorem putFlags_nCap (f g : Byte) : (s.putFlags f g).nCap = s.nCap := rfl
@[simp] theorem putFlags_off (f g : Byte) : (s.putFlags f g).off = s.off := rfl
@[simp] theorem putFlags_ph (f g : Byte) : (s.putFlags f g).ph = s.ph := rfl
@[simp] theorem putFlags_pol (f g : Byte) : (s.putFlags f g).pol = s.pol := rfl
@[simp] theorem putFlags_dec (f g : Byte) : (s.putFlags f g).dec = s.dec := rfl
@[simp] theorem putFlags_nDec (f g : Byte) : (s.putFlags f g).nDec = s.nDec := rfl
@[simp] theorem putFlags_cmd (f g : Byte) : (s.putFlags f g).cmd = s.cmd := rfl
@[simp] theorem putFlags_cmdLen (f g : Byte) : (s.putFlags f g).cmdLen = s.cmdLen := rfl
@[simp] theorem putFlags_rsp (f g : Byte) : (s.putFlags f g).rsp = s.rsp.overlay 10 [f, g] := rfl
@[simp] theorem putFlags_rspValid (f g : Byte) : (s.putFlags f g).rspValid = s.rspValid := rfl
@[simp] theorem putFlags_crc (f g : Byte) : (s.putFlags f g).crc = s.crc := rfl
@[simp] theorem putFlags_gate (f g : Byte) : (s.putFlags f g).gate = s.gate := rfl
@[simp] theorem putFlags_cs (f g : Byte) : (s.putFlags f g).cs = s.cs := rfl
@[simp] theorem putFlags_nv (f g : Byte) : (s.putFlags f g).nv = s.nv := rfl
@[simp] theorem putFlags_tx (f g : Byte) : (s.putFlags f g).tx = s.tx := rfl
@[simp] theorem putFlags_waiting (f g : Byte) : (s.putFlags f g).waiting = s.waiting := rfl
@[simp] theorem putFlags_env (f g : Byte) : (s.putFlags f g).env = s.env := rfl

/-! `statusOk` -/

@[simp] theorem statusOk_seq : (s.statusOk).seq = s.seq := rfl
@[simp] theorem statusOk_buf : (s.statusOk).buf = s.buf := rfl
@[simp] theorem statusOk_nCap : (s.statusOk).nCap = s.nCap := rfl
@[simp] theorem statusOk_off : (s.statusOk).off = s.off := rfl
@[simp] theorem statusOk_ph : (s.statusOk).ph = s.ph := rfl
@[simp] theorem statusOk_pol : (s.statusOk).pol = s.pol := rfl
@[simp] theorem statusOk_dec : (s.statusOk).dec = s.dec := rfl
@[simp] theorem statusOk_nDec : (s.statusOk).nDec = s.nDec := rfl
@[simp] theorem statusOk_cmd : (s.statusOk).cmd = s.cmd := rfl
@[simp] theorem statusOk_cmdLen : (s.statusOk).cmdLen = s.cmdLen := rfl
@[simp] theorem statusOk_rsp : (s.statusOk).rsp = s.rsp.overlay 10 [0x00, 0x00] := rfl
@[simp] theorem statusOk_rspValid : (s.statusOk).rspValid = s.rspValid := rfl
@[simp] theorem statusOk_crc : (s.statusOk).crc = s.crc := rfl
@[simp] theorem statusOk_gate : (s.statusOk).gate = s.gate := rfl
@[simp] theorem statusOk_cs : (s.statusOk).cs = s.cs := rfl
@[simp] theorem statusOk_nv : (s.statusOk).nv = s.nv := rfl
@[simp] theorem statusOk_tx : (s.statusOk).tx = s.tx := rfl
@[simp] theorem statusOk_waiting : (s.statusOk).waiting = s.waiting := rfl
@[simp] theorem statusOk_env : (s.statusOk).env = s.env := rfl

/-! `passBoundary` -/

@[simp] theorem passBoundary_seq : (s.passBoundary).seq = s.seq := rfl
@[simp] theorem passBoundary_buf : (s.passBoundary).buf = s.buf := rfl
@[simp] theorem passBoundary_nCap : (s.passBoundary).nCap = s.nCap := rfl
@[simp] theorem passBoundary_off : (s.passBoundary).off = s.off := rfl
@[simp] theorem passBoundary_ph : (s.passBoundary).ph = s.ph := rfl
@[simp] theorem passBoundary_pol : (s.passBoundary).pol = s.pol := rfl
@[simp] theorem passBoundary_dec : (s.passBoundary).dec = s.dec := rfl
@[simp] theorem passBoundary_nDec : (s.passBoundary).nDec = s.nDec := rfl
@[simp] theorem passBoundary_cmd : (s.passBoundary).cmd = s.cmd := rfl
@[simp] theorem passBoundary_cmdLen : (s.passBoundary).cmdLen = s.cmdLen := rfl
@[simp] theorem passBoundary_rsp : (s.passBoundary).rsp = s.rsp := rfl
@[simp] theorem passBoundary_rspValid : (s.passBoundary).rspValid = s.rspValid := rfl
@[simp] theorem passBoundary_crc : (s.passBoundary).crc = s.crc := rfl
@[simp] theorem passBoundary_gate : (s.passBoundary).gate = s.gate := rfl
@[simp] theorem passBoundary_cs : (s.passBoundary).cs = s.cs := rfl
@[simp] theorem passBoundary_nv : (s.passBoundary).nv = s.nv := rfl
@[simp] theorem passBoundary_tx : (s.passBoundary).tx = s.tx := rfl
@[simp] theorem passBoundary_waiting : (s.passBoundary).waiting = s.waiting := rfl
@[simp] theorem passBoundary_env : (s.passBoundary).env = { s.env with rst := s.env.rst.tail } := rfl

/-! `hang` -/

@[simp] theorem hang_seq : (s.hang).seq = s.seq := rfl
@[simp] theorem hang_buf : (s.hang).buf = s.buf := rfl
@[simp] theorem hang_nCap : (s.hang).nCap = s.nCap := rfl
@[simp] theorem hang_off : (s.hang).off = s.off := rfl
@[simp] theorem hang_ph : (s.hang).ph = s.ph := rfl
@[simp] theorem hang_pol : (s.hang).pol = s.pol := rfl
@[simp] theorem hang_dec : (s.hang).dec = s.dec := rfl
@[simp] theorem hang_nDec : (s.hang).nDec = s.nDec := rfl
@[simp] theorem hang_cmd : (s.hang).cmd = s.cmd := rfl
@[simp] theorem hang_cmdLen : (s.hang).cmdLen = s.cmdLen := rfl
@[simp] theorem hang_rsp : (s.hang).rsp = s.rsp := rfl
@[simp] theorem hang_rspValid : (s.hang).rspValid = s.rspValid := rfl
@[simp] theorem hang_crc : (s.hang).crc = s.crc := rfl
@[simp] theorem hang_gate : (s.hang).gate = s.gate := rfl
@[simp] theorem hang_cs : (s.hang).cs = s.cs := rfl
@[simp] theorem hang_nv : (s.hang).nv = s.nv := rfl
@[simp] theorem hang_tx : (s.hang).tx = s.tx := rfl
@[simp] theorem hang_waiting : (s.hang).waiting = true := rfl
@[simp] theorem hang_env : (s.hang).env = s.env := rfl

/-! `loadCard` -/

@[simp] theorem loadCard_seq : (s.loadCard).seq = s.seq := rfl
@[simp] theorem loadCard_buf : (s.loadCard).buf = s.buf := rfl
@[simp] theorem loadCard_nCap : (s.loadCard).nCap = s.nCap := rfl
@[simp] theorem loadCard_off : (s.loadCard).off = s.off := rfl
@[simp] theorem loadCard_ph : (s.loadCard).ph = s.ph := rfl
@[simp] theorem loadCard_pol : (s.loadCard).pol = s.pol := rfl
@[simp] theorem loadCard_dec : (s.loadCard).dec = s.dec := rfl
@[simp] theorem loadCard_nDec : (s.loadCard).nDec = s.nDec := rfl
@[simp] theorem loadCard_cmd : (s.loadCard).cmd = s.cmd := rfl
@[simp] theorem loadCard_cmdLen : (s.loadCard).cmdLen = s.cmdLen := rfl
@[simp] theorem loadCard_rsp : (s.loadCard).rsp = s.rsp := rfl
@[simp] theorem loadCard_rspValid : (s.loadCard).rspValid = s.rspValid := rfl
@[simp] theorem loadCard_crc : (s.loadCard).crc = s.crc := rfl
@[simp] theorem loadCard_gate : (s.loadCard).gate = s.gate := rfl
@[simp] theorem loadCard_cs : (s.loadCard).cs = { s.cs with idm := s.nv.idm, pmm := s.nv.pmm, svc := s.nv.svc, sys := s.nv.sys, blk := s.nv.blk } := rfl
@[simp] theorem loadCard_nv : (s.loadCard).nv = s.nv := rfl
@[simp] theorem loadCard_tx : (s.loadCard).tx = s.tx := rfl
@[simp] theorem loadCard_waiting : (s.loadCard).waiting = s.waiting := rfl
@[simp] theorem loadCard_env : (s.loadCard).env = s.env := rfl

/-! `logError` -/

@[simp] theorem logError_seq : (s.logError).seq = s.seq := rfl
@[simp] theorem logError_buf : (s.logError).buf = s.buf := rfl
@[simp] theorem logError_nCap : (s.logError).nCap = s.nCap := rfl
@[simp] theorem logError_off : (s.logError).off = s.off := rfl
@[simp] theorem logError_ph : (s.logError).ph = s.ph := rfl
@[simp] theorem logError_pol : (s.logError).pol = s.pol := rfl
@[simp] theorem logError_dec : (s.logError).dec = s.dec := rfl
@[simp] theorem logError_nDec : (s.logError).nDec = s.nDec := rfl
@[simp] theorem logError_cmd : (s.logError).cmd = s.cmd := rfl
@[simp] theorem logError_cmdLen : (s.logError).cmdLen = s.cmdLen := rfl
@[simp] theorem logError_rsp : (s.logError).rsp = s.rsp := rfl
@[simp] theorem logError_rspValid : (s.logError).rspValid = s.rspValid := rfl
@[simp] theorem logError_crc : (s.logError).crc = s.crc := rfl
@[simp] theorem logError_gate : (s.logError).gate = s.gate := rfl
@[simp] theorem logError_cs : (s.logError).cs = { s.cs with elog := s.cs.elog.overlay 0 [Bytes.ofList 16 s.packet] } := rfl
@[simp] theorem logError_nv : (s.logError).nv = s.nv := rfl
@[simp] theorem logError_tx : (s.logError).tx = s.tx := rfl
@[simp] theorem logError_waiting : (s.logError).waiting = s.waiting := rfl
@[simp] theorem logError_env : (s.logError).env = s.env := rfl

/-! `statusFail` -/

@[simp] theorem statusFail_seq (f : StatusFailure) : (s.statusFail f).seq = .transmit := rfl
@[simp] theorem statusFail_buf (f : StatusFailure) : (s.statusFail f).buf = s.buf := rfl
@[simp] theorem statusFail_nCap (f : StatusFailure) : (s.statusFail f).nCap = s.nCap := rfl
@[simp] theorem statusFail_off (f : StatusFailure) : (s.statusFail f).off = s.off := rfl
@[simp] theorem statusFail_ph (f : StatusFailure) : (s.statusFail f).ph = s.ph := rfl
@[simp] theorem statusFail_pol (f : StatusFailure) : (s.statusFail f).pol = s.pol := rfl
@[simp] theorem statusFail_dec (f : StatusFailure) : (s.statusFail f).dec = s.dec := rfl
@[simp] theorem statusFail_nDec (f : StatusFailure) : (s.statusFail f).nDec = s.nDec := rfl
@[simp] theorem statusFail_cmd (f : StatusFailure) : (s.statusFail f).cmd = s.cmd := rfl
@[simp] theorem statusFail_cmdLen (f : StatusFailure) : (s.statusFail f).cmdLen = s.cmdLen := rfl
@[simp] theorem statusFail_rsp (f : StatusFailure) : (s.statusFail f).rsp = (s.rsp.overlay 0 [12]).overlay 10 [0xFF, f.flag2] := rfl
@[simp] theorem statusFail_rspValid (f : StatusFailure) : (s.statusFail f).rspValid = true := rfl
@[simp] theorem statusFail_crc (f : StatusFailure) : (s.statusFail f).crc = s.crc := rfl
@[simp] theorem statusFail_gate (f : StatusFailure) : (s.statusFail f).gate = s.gate := rfl
@[simp] theorem statusFail_cs (f : StatusFailure) : (s.statusFail f).cs = { s.cs with elog := s.cs.elog.overlay 0 [Bytes.ofList 16 s.packet] } := rfl
@[simp] theorem statusFail_nv (f : StatusFailure) : (s.statusFail f).nv = s.nv := rfl
@[simp] theorem statusFail_tx (f : StatusFailure) : (s.statusFail f).tx = s.tx := rfl
@[simp] theorem statusFail_waiting (f : StatusFailure) : (s.statusFail f).waiting = s.waiting := rfl
@[simp] theorem statusFail_env (f : StatusFailure) : (s.statusFail f).env = s.env := rfl

/-! `powerLoss` -/

@[simp] theorem powerLoss_seq : (s.powerLoss).seq = .load := rfl
@[simp] theorem powerLoss_buf : (s.powerLoss).buf = unspecifiedBytes _ := rfl
@[simp] theorem powerLoss_nCap : (s.powerLoss).nCap = 0 := rfl
@[simp] theorem powerLoss_off : (s.powerLoss).off = 0 := rfl
@[simp] theorem powerLoss_ph : (s.powerLoss).ph = 0 := rfl
@[simp] theorem powerLoss_pol : (s.powerLoss).pol = false := rfl
@[simp] theorem powerLoss_dec : (s.powerLoss).dec = unspecifiedBytes _ := rfl
@[simp] theorem powerLoss_nDec : (s.powerLoss).nDec = 0 := rfl
@[simp] theorem powerLoss_cmd : (s.powerLoss).cmd = unspecifiedBytes _ := rfl
@[simp] theorem powerLoss_cmdLen : (s.powerLoss).cmdLen = 0 := rfl
@[simp] theorem powerLoss_rsp : (s.powerLoss).rsp = unspecifiedBytes _ := rfl
@[simp] theorem powerLoss_rspValid : (s.powerLoss).rspValid = false := rfl
@[simp] theorem powerLoss_crc : (s.powerLoss).crc = 0 := rfl
@[simp] theorem powerLoss_gate : (s.powerLoss).gate = false := rfl
@[simp] theorem powerLoss_cs : (s.powerLoss).cs = CardState.afterReset s.env.elogReset := rfl
@[simp] theorem powerLoss_nv : (s.powerLoss).nv = s.nv := rfl
@[simp] theorem powerLoss_tx : (s.powerLoss).tx = none := rfl
@[simp] theorem powerLoss_waiting : (s.powerLoss).waiting = false := rfl
@[simp] theorem powerLoss_env : (s.powerLoss).env = s.env := rfl

/-! `nvUpdate` -/

@[simp] theorem nvUpdate_seq (u : NvWrite) : (s.nvUpdate u).seq = s.seq := by cases u <;> rfl
@[simp] theorem nvUpdate_buf (u : NvWrite) : (s.nvUpdate u).buf = s.buf := by cases u <;> rfl
@[simp] theorem nvUpdate_nCap (u : NvWrite) : (s.nvUpdate u).nCap = s.nCap := by cases u <;> rfl
@[simp] theorem nvUpdate_off (u : NvWrite) : (s.nvUpdate u).off = s.off := by cases u <;> rfl
@[simp] theorem nvUpdate_ph (u : NvWrite) : (s.nvUpdate u).ph = s.ph := by cases u <;> rfl
@[simp] theorem nvUpdate_pol (u : NvWrite) : (s.nvUpdate u).pol = s.pol := by cases u <;> rfl
@[simp] theorem nvUpdate_dec (u : NvWrite) : (s.nvUpdate u).dec = s.dec := by cases u <;> rfl
@[simp] theorem nvUpdate_nDec (u : NvWrite) : (s.nvUpdate u).nDec = s.nDec := by cases u <;> rfl
@[simp] theorem nvUpdate_cmd (u : NvWrite) : (s.nvUpdate u).cmd = s.cmd := by cases u <;> rfl
@[simp] theorem nvUpdate_cmdLen (u : NvWrite) : (s.nvUpdate u).cmdLen = s.cmdLen := by cases u <;> rfl
@[simp] theorem nvUpdate_rsp (u : NvWrite) : (s.nvUpdate u).rsp = s.rsp := by cases u <;> rfl
@[simp] theorem nvUpdate_rspValid (u : NvWrite) : (s.nvUpdate u).rspValid = s.rspValid := by cases u <;> rfl
@[simp] theorem nvUpdate_crc (u : NvWrite) : (s.nvUpdate u).crc = s.crc := by cases u <;> rfl
@[simp] theorem nvUpdate_gate (u : NvWrite) : (s.nvUpdate u).gate = s.gate := by cases u <;> rfl
@[simp] theorem nvUpdate_tx (u : NvWrite) : (s.nvUpdate u).tx = s.tx := by cases u <;> rfl
@[simp] theorem nvUpdate_waiting (u : NvWrite) : (s.nvUpdate u).waiting = s.waiting := by cases u <;> rfl
@[simp] theorem nvUpdate_env (u : NvWrite) : (s.nvUpdate u).env = s.env := by cases u <;> rfl
@[simp] theorem nvUpdate_cs_elog (u : NvWrite) : (s.nvUpdate u).cs.elog = s.cs.elog := by cases u <;> rfl
@[simp] theorem nvUpdate_idm_nv (v : Bytes 8) : (s.nvUpdate (.idm v)).nv = { s.nv with idm := v } := rfl
@[simp] theorem nvUpdate_idm_cs (v : Bytes 8) : (s.nvUpdate (.idm v)).cs = { s.cs with idm := v } := rfl
@[simp] theorem nvUpdate_pmm_nv (v : Bytes 8) : (s.nvUpdate (.pmm v)).nv = { s.nv with pmm := v } := rfl
@[simp] theorem nvUpdate_pmm_cs (v : Bytes 8) : (s.nvUpdate (.pmm v)).cs = { s.cs with pmm := v } := rfl
@[simp] theorem nvUpdate_svc_nv (v : CodeTable) : (s.nvUpdate (.svc v)).nv = { s.nv with svc := v } := rfl
@[simp] theorem nvUpdate_svc_cs (v : CodeTable) : (s.nvUpdate (.svc v)).cs = { s.cs with svc := v } := rfl
@[simp] theorem nvUpdate_sys_nv (v : CodeTable) : (s.nvUpdate (.sys v)).nv = { s.nv with sys := v } := rfl
@[simp] theorem nvUpdate_sys_cs (v : CodeTable) : (s.nvUpdate (.sys v)).cs = { s.cs with sys := v } := rfl
@[simp] theorem nvUpdate_blk_nv (b : Nat) (v : Block) :
    (s.nvUpdate (.blk b v)).nv = { s.nv with blk := s.nv.blk.writeBlock b v } := rfl
@[simp] theorem nvUpdate_blk_cs (b : Nat) (v : Block) :
    (s.nvUpdate (.blk b v)).cs = { s.cs with blk := s.cs.blk.writeBlock b v } := rfl

/-! The views of a register follow the register. -/

theorem window_congr {s t : State} (h : t.buf = s.buf) (hn : t.nCap = s.nCap) : t.window = s.window := by
  simp [window, h, hn]

theorem packet_congr {s t : State} (h : t.cmd = s.cmd) (hn : t.cmdLen = s.cmdLen) : t.packet = s.packet := by
  simp [packet, h, hn]

theorem response_congr {s t : State} (h : t.rsp = s.rsp) : t.response = s.response := by
  simp [response, h]

@[simp] theorem putRsp_packet (pos : Nat) (xs : List Byte) : (s.putRsp pos xs).packet = s.packet := rfl
@[simp] theorem putHeader_packet (c : Byte) (idm : Bytes 8) : (s.putHeader c idm).packet = s.packet := rfl
@[simp] theorem putLength_packet (n : Nat) : (s.putLength n).packet = s.packet := rfl
@[simp] theorem passBoundary_packet : s.passBoundary.packet = s.packet := rfl
@[simp] theorem nvUpdate_packet (u : NvWrite) : (s.nvUpdate u).packet = s.packet :=
  packet_congr (by simp) (by simp)

end Sys2Proof.Machine.State
end

