-- ==== Sys2Proof/Laws/Ops.lean ====
section
/-! SUPPORT. What each shared operation can do, said once: replies, store calls, the address check, the block map, the block
loops. -/

namespace Sys2Proof.Machine

/-! ### Replies -/

/-- Bytes at the start of RSP whose first is their number are the Response packet (R26). -/
theorem State.response_of_has {s : State} {bytes : List Byte} (h : s.rsp.Has 0 bytes)
    (hl : (bytes.headD 0).toNat = bytes.length) (hne : bytes ≠ []) : s.response = bytes := by
  have h0 : s.rsp.at 0 = bytes.headD 0 := by
    rw [Sized.Has, List.drop_zero] at h
    rw [Bytes.at_eq_getD, ← h]
    cases bytes with
    | nil => exact absurd rfl hne
    | cons b bs => cases hs : s.rsp.toList <;> simp_all
  rw [State.response, h0, hl]
  simpa [Sized.Has] using h

/-- After the header and the length are written, RSP starts with them (R93, R228). -/
theorem State.has_header (s : State) (c : Byte) (idm : Bytes 8) (len : Nat) :
    ((s.putHeader c idm).putLength len).rsp.Has 0 (BitVec.ofNat 8 len :: (c + 1) :: idm.toList) := by
  have h1 : ((s.putHeader c idm).putLength len).rsp.Has 0 [BitVec.ofNat 8 len] := by
    simpa using Sized.has_overlay_same (by simp [Config.packetBuf])
  have h2 : ((s.putHeader c idm).putLength len).rsp.Has 1 ((c + 1) :: idm.toList) := by
    simp only [State.putLength_rsp, State.putHeader_rsp]
    refine Sized.has_overlay_disjoint (Sized.has_overlay_same ?_) (.inl ?_) ?_ <;> simp [Config.packetBuf]
  exact Sized.has_append h1 (by simpa using h2)

/-! ### Blocking calls -/

/-- An agent that always answers answers any number of calls. -/
theorem takeAnswers_of_not_mem {l : List Bool} (h : false ∉ l) (k : Nat) : takeAnswers k l = (true, l.drop k) := by
  induction k generalizing l with
  | zero => rfl
  | succ k ih =>
    cases l with
    | nil => simp [takeAnswers]
    | cons b l =>
      simp only [List.mem_cons, not_or] at h
      cases b
      · simp at h
      · simpa [takeAnswers] using ih h.2

/-! ### The non-volatile store -/

/-- The state with other schedules of the store and of `rst`. -/
def State.withSchedules (s : State) (store rst : List Bool) : State :=
  { s with env := { s.env with store := store, rst := rst } }

/-- The state after some `NvUpdate` calls, with what they leave of the environment's schedules. -/
def State.afterUpdates (s : State) (us : List NvWrite) (store rst : List Bool) : State :=
  (us.foldl State.nvUpdate s).withSchedules store rst

/-- An update does not look at the environment. -/
theorem State.nvUpdate_withSchedules (s : State) (u : NvWrite) (store rst : List Bool) :
    (s.withSchedules store rst).nvUpdate u = (s.nvUpdate u).withSchedules store rst := by cases u <;> rfl

theorem State.foldl_nvUpdate_withSchedules (us : List NvWrite) (s : State) (store rst : List Bool) :
    us.foldl State.nvUpdate (s.withSchedules store rst) = (us.foldl State.nvUpdate s).withSchedules store rst := by
  induction us generalizing s with
  | nil => rfl
  | cons u us ih => rw [List.foldl_cons, State.nvUpdate_withSchedules, ih, List.foldl_cons]

/-- An update changes the image and the Card State only (R66). -/
theorem State.foldl_nvUpdate_frame (us : List NvWrite) (s : State) :
    us.foldl State.nvUpdate s =
      { s with nv := (us.foldl State.nvUpdate s).nv, cs := (us.foldl State.nvUpdate s).cs } := by
  induction us generalizing s with
  | nil => rfl
  | cons u us ih =>
    rw [List.foldl_cons, ih (s.nvUpdate u)]
    cases u <;> rfl

theorem State.foldl_nvUpdate_elog (us : List NvWrite) (s : State) :
    (us.foldl State.nvUpdate s).cs.elog = s.cs.elog := by
  induction us generalizing s with
  | nil => rfl
  | cons u us ih => rw [List.foldl_cons, ih, State.nvUpdate_cs_elog]

/-- The first of two or more calls, answered and with no reset after it: the others follow. -/
theorem nvUpdates_cons_answered {u u' : NvWrite} {us : List NvWrite} {s : State} {store : List Bool}
    (h : takeAnswers 1 s.env.store = (true, store)) (hr : s.rstNow = false) :
    nvUpdates (u :: u' :: us) s = nvUpdates (u' :: us) ((s.nvUpdate u).withSchedules store s.env.rst.tail) := by
  have hu : (s.withSchedules store s.env.rst).nvUpdate u = (s.nvUpdate u).withSchedules store s.env.rst :=
    s.nvUpdate_withSchedules u _ _
  have hn : ((s.withSchedules store s.env.rst).nvUpdate u).rstNow = false := by rw [hu]; exact hr
  rw [nvUpdates, h]
  refine (if_pos rfl).trans (Eq.trans (if_neg (ne_true_of_eq_false hn)) ?_)
  exact congrArg (fun t => nvUpdates (u' :: us) (State.passBoundary t)) hu

theorem State.afterUpdates_cons (s : State) (u : NvWrite) (us : List NvWrite) (a b store rst : List Bool) :
    State.afterUpdates ((s.nvUpdate u).withSchedules a b) us store rst = s.afterUpdates (u :: us) store rst := by
  rw [State.afterUpdates, State.foldl_nvUpdate_withSchedules]
  rfl

/-- What a call that is not answered says of the schedule. -/
theorem mem_of_takeAnswers_false {l l' : List Bool} {k : Nat} (h : takeAnswers k l = (false, l')) : false ∈ l := by
  by_contra hn
  rw [takeAnswers_of_not_mem hn] at h
  cases h

theorem State.mem_of_rstNow {s : State} (h : s.rstNow = true) : true ∈ s.env.rst := by
  cases hl : s.env.rst with
  | nil => simp [State.rstNow, hl] at h
  | cons b l => simp_all [State.rstNow]

/-- What a sequence of `NvUpdate` calls can end in (R66, R360, R374): all of them done; or a prefix done, and then a reset or a
call that is never answered. Nothing else than the updates, the schedules, and that end has happened. -/
theorem nvUpdates_cases (us : List NvWrite) (s : State) :
    (∃ store rst, nvUpdates us s = .done (s.afterUpdates us store rst)) ∨
      (∃ k store rst, k ≤ us.length ∧
        ((true ∈ s.env.rst ∧ nvUpdates us s = .cut (s.afterUpdates (us.take k) store rst).powerLoss) ∨
          (false ∈ s.env.store ∧ nvUpdates us s = .cut (s.afterUpdates (us.take k) store rst).hang))) := by
  induction us generalizing s with
  | nil => exact .inl ⟨s.env.store, s.env.rst, rfl⟩
  | cons u us ih =>
    rcases hans : takeAnswers 1 s.env.store with ⟨answered, store⟩
    cases answered
    · exact .inr ⟨0, store, s.env.rst, by simp, .inr ⟨mem_of_takeAnswers_false hans, by rw [nvUpdates, hans]; rfl⟩⟩
    · cases us with
      | nil =>
        refine .inl ⟨store, s.env.rst, ?_⟩
        rw [nvUpdates, hans]
        exact congrArg _ (s.nvUpdate_withSchedules u store s.env.rst)
      | cons u' us =>
        by_cases hr : s.rstNow = true
        · refine .inr ⟨1, store, s.env.rst.tail, by simp, .inl ⟨State.mem_of_rstNow hr, ?_⟩⟩
          have hu := s.nvUpdate_withSchedules u store s.env.rst
          have hn : ((s.withSchedules store s.env.rst).nvUpdate u).rstNow = true := by rw [hu]; exact hr
          rw [nvUpdates, hans]
          refine Eq.trans (if_pos hn) ?_
          exact congrArg (fun t => NvOutcome.cut (State.powerLoss (State.passBoundary t))) hu
        · have hsub : ∀ b, b ∈ store → b ∈ s.env.store := by
            intro b hb
            cases hl : s.env.store with
            | nil => simp_all [takeAnswers]
            | cons a l => cases a <;> simp_all [takeAnswers]
          rw [nvUpdates_cons_answered hans (by simpa using hr)]
          rcases ih ((s.nvUpdate u).withSchedules store s.env.rst.tail) with ⟨st, rs, h⟩ | ⟨k, st, rs, hk, h⟩
          · exact .inl ⟨st, rs, by rw [h, State.afterUpdates_cons]⟩
          · refine .inr ⟨k + 1, st, rs, by simpa using hk, ?_⟩
            rw [State.afterUpdates_cons] at h
            rcases h with ⟨hm, h⟩ | ⟨hm, h⟩
            · exact .inl ⟨List.mem_of_mem_tail hm, h⟩
            · exact .inr ⟨hsub _ hm, h⟩

/-- Where the store answers and no reset falls, all updates are done (R66, R72). -/
theorem nvUpdates_of_storeAnswers (us : List NvWrite) {s : State} (h : s.StoreAnswers) :
    nvUpdates us s = .done (s.afterUpdates us (s.env.store.drop us.length) (s.env.rst.drop (us.length - 1))) := by
  induction us generalizing s with
  | nil => rfl
  | cons u us ih =>
    obtain ⟨hs, hr⟩ := h
    have hans := takeAnswers_of_not_mem hs 1
    cases us with
    | nil =>
      rw [nvUpdates, hans]
      exact congrArg _ (s.nvUpdate_withSchedules u _ s.env.rst)
    | cons u' us =>
      have hnow : s.rstNow = false := by
        simp only [State.rstNow]
        cases hl : s.env.rst with
        | nil => rfl
        | cons b l => cases b <;> simp_all [State.NoReset]
      rw [nvUpdates_cons_answered hans hnow, ih, State.afterUpdates_cons]
      · simp [State.withSchedules, Nat.add_comm]
      · exact ⟨fun hm => hs (List.mem_of_mem_drop hm), fun hm => hr (List.mem_of_mem_tail hm)⟩

/-! ### The address check -/

theorem State.addressMatch_iff (s : State) (idm : Bytes 8) : s.addressMatch idm = true ↔ s.AddressedBy idm := by
  simp [State.addressMatch, State.AddressedBy]

theorem addressed_of_match {code : Byte} {handler : β → State → State} {idm : Bytes 8} {ops : β} {s : State}
    (h : s.AddressedBy idm) : addressed code handler (.full idm ops) s = handler ops (s.putHeader code idm) := by
  simp [addressed, (s.addressMatch_iff idm).mpr h]

/-- What an addressed command can do (R218): run its handler, or be silent. -/
theorem addressed_cases (code : Byte) (handler : β → State → State) (a : Addressed β) (s : State) :
    (∃ idm ops, a = .full idm ops ∧ s.AddressedBy idm ∧
        addressed code handler a s = handler ops (s.putHeader code idm)) ∨
      (∃ idm bytes, a = .short idm bytes ∧ s.AddressedBy idm ∧
        addressed code handler a s = (s.putHeader code idm).noResponse) ∨
      addressed code handler a s = s.noResponse := by
  cases a with
  | noIdm bytes => exact .inr (.inr rfl)
  | short idm bytes =>
    by_cases h : s.addressMatch idm
    · exact .inr (.inl ⟨idm, bytes, rfl, (s.addressMatch_iff idm).mp h, by simp [addressed, h]⟩)
    · exact .inr (.inr (by simp [addressed, h]))
  | full idm ops =>
    by_cases h : s.addressMatch idm
    · exact .inl ⟨idm, ops, rfl, (s.addressMatch_iff idm).mp h, by simp [addressed, h]⟩
    · exact .inr (.inr (by simp [addressed, h]))

/-! ### The block loops -/

/-- The reads of a Read command change RSP only; they end at the first unresolved block (R265, R267). -/
theorem readBlocks_cases (bs : List Byte) (j : Nat) (s : State) :
    (readBlocks bs j s).2 = { s with rsp := (readBlocks bs j s).2.rsp } ∧
      ((readBlocks bs j s).1 = true ↔ ∀ b ∈ bs, memRead s.cs b ≠ none) := by
  induction bs generalizing j s with
  | nil => exact ⟨rfl, by simp [readBlocks]⟩
  | cons b bs ih =>
    rw [readBlocks]
    cases h : memRead s.cs b with
    | none => exact ⟨rfl, by simp [h]⟩
    | some d =>
      have := ih (j + 1) (s.putRsp (13 + 16 * j) d.toList)
      refine ⟨?_, ?_⟩
      · simpa [State.putRsp] using this.1
      · simpa [h] using this.2

/-- What is written is a whole field: a real block, a table, or the two halves of the identity (R311 to R316). -/
theorem memWrite_cases {b : Byte} {v : Block} {n : Nat} {us : List NvWrite} (h : memWrite b v n = some us) :
    (b.toNat < Config.nBlocks ∧ us = [.blk b.toNat v]) ∨
      (b = 0x83 ∧ n = 1 ∧ us = [.idm (Bytes.ofList 8 (v.toList.take 8)), .pmm (Bytes.ofList 8 (v.toList.drop 8))]) ∨
      (b = 0x84 ∧ n = 1 ∧ us = [.svc (CodeTable.ofBlock v)]) ∨
      (b = 0x85 ∧ n = 1 ∧ us = [.sys (CodeTable.ofBlock v)]) ∨
      ((b = 0x80 ∨ b = 0x90 ∨ b = 0x91) ∧ us = []) := by
  unfold memWrite at h
  repeat' split at h
  all_goals simp_all

/-- A planned update of a block names one of the twelve (R292, R311). -/
theorem planWrites_blocks {n : Nat} {ps : List (Byte × Block)} {b : Nat} {v : Block}
    (h : .blk b v ∈ (planWrites n ps).1) : b < Config.nBlocks := by
  induction ps with
  | nil => simp [planWrites] at h
  | cons p ps ih =>
    rw [planWrites] at h
    cases hm : memWrite p.1 p.2 n with
    | none => simp [hm] at h
    | some us =>
      simp only [hm, List.mem_append] at h
      rcases h with h | h
      · rcases memWrite_cases hm with ⟨hb, rfl⟩ | ⟨-, -, rfl⟩ | ⟨-, -, rfl⟩ | ⟨-, -, rfl⟩ | ⟨-, rfl⟩ <;> simp_all
      · exact ih h

theorem blockCountOk_iff (n : Byte) : blockCountOk n = true ↔ CountOk n := by
  rw [blockCountOk, Bool.and_eq_true, decide_eq_true_eq, decide_eq_true_eq]
  exact Iff.rfl

/-! ### Code tables -/

theorem CodeTable.activeLen_le (t : CodeTable) : t.activeLen ≤ 4 := by
  have := (List.takeWhile_sublist (fun c => c != sentinel) (l := t.toList)).length_le
  simpa [CodeTable.activeLen, CodeTable.active] using this

/-- No active entry is the sentinel (R41). -/
theorem CodeTable.ne_sentinel_of_mem_active {t : CodeTable} {c : Code} (h : c ∈ t.active) : c ≠ sentinel := by
  simpa using List.mem_takeWhile_imp h

@[simp] theorem length_codeBytes (cs : List Code) : (codeBytes cs).length = 2 * cs.length := by
  induction cs with
  | nil => rfl
  | cons c cs ih => simp [codeBytes, ih]; omega

end Sys2Proof.Machine
end

