-- ==== Sys2Proof/Laws/Phases.lean ====
section
/-! SUPPORT. What each phase of the sequencer can do, said once: one inversion lemma for each. -/

namespace Sys2Proof.Machine

/-- CAPTURE (R141, R142, R144, R145): it waits, ends the window, drops a marker, overflows, or stores one byte. -/
theorem captureStep_cases (s : State) :
    (s.env.samples = [] ∧ captureStep s = s) ∨
      ∃ b rest, s.env.samples = b :: rest ∧
        ((isMarker b = true ∧ 16 ≤ s.nCap ∧
            captureStep s = { s with seq := .sync, env := { s.env with samples := rest } }) ∨
          (isMarker b = true ∧ s.nCap < 16 ∧ captureStep s = { s with env := { s.env with samples := rest } }) ∨
          (isMarker b = false ∧ s.nCap + 1 = 528 ∧
            captureStep s = afterFailure
              { s with buf := s.buf.overlay s.nCap [b], env := { s.env with samples := rest } } 1) ∨
          (isMarker b = false ∧ s.nCap + 1 ≠ 528 ∧
            captureStep s =
              { s with buf := s.buf.overlay s.nCap [b], nCap := s.nCap + 1, env := { s.env with samples := rest } })) := by
  unfold captureStep
  cases hs : s.env.samples with
  | nil => exact .inl ⟨rfl, rfl⟩
  | cons b rest =>
    refine .inr ⟨b, rest, rfl, ?_⟩
    simp only [captureByte]
    cases hm : isMarker b
    · simp only [Bool.false_eq_true, if_false]
      by_cases hc : s.nCap + 1 = 528
      · exact .inr (.inr (.inl ⟨trivial, hc, if_pos hc⟩))
      · exact .inr (.inr (.inr ⟨trivial, hc, if_neg hc⟩))
    · simp only [if_true, Params.minCapture]
      by_cases hc : 16 ≤ s.nCap
      · exact .inl ⟨trivial, hc, if_pos hc⟩
      · exact .inr (.inl ⟨trivial, by omega, if_neg hc⟩)

/-- A report lies inside the window (R124). -/
theorem syncScan_off {table : List (Word × Word)} {i : Nat} {w : List Byte} {r : SyncReport}
    (h : syncScan table i w = some r) : i ≤ r.off ∧ r.off + 1 < i + w.length := by
  induction w generalizing i with
  | nil => simp [syncScan] at h
  | cons b0 w ih =>
    cases w with
    | nil => simp [syncScan] at h
    | cons b1 rest =>
      rw [syncScan] at h
      split at h
      · next r' hr =>
        have hoff : r'.off = i := by
          unfold syncReport at hr
          split at hr
          · cases hr
          · cases hr; rfl
          · cases hr; rfl
          · split at hr <;> cases hr <;> rfl
        cases h
        simp [hoff]
      · have := ih h
        simp at this ⊢
        omega

/-- SYNC (R125, R127): it reports, or raises NoSync. -/
theorem syncStep_cases (s : State) :
    (∃ r, syncScan Params.signature 0 s.window = some r ∧ r.off + 1 < s.window.length ∧
        syncStep s = { s with off := r.off, ph := r.ph, pol := r.pol, seq := .assemble }) ∨
      (syncScan Params.signature 0 s.window = none ∧ syncStep s = afterFailure s 2) := by
  unfold syncStep
  cases h : syncScan Params.signature 0 s.window with
  | some r => exact .inl ⟨r, rfl, by simpa using (syncScan_off h).2, rfl⟩
  | none => exact .inr ⟨rfl, rfl⟩

/-- At most half of the sample bytes become data bytes (R24, R181). -/
theorem length_decodeWindow_le (p : Fin 8) (pol : Bool) (w : List Byte) : 2 * (decodeWindow p pol w).length ≤ w.length := by
  induction w using decodeWindow.induct (p := p) with
  | case1 b0 b1 rest h ih => rw [decodeWindow, if_pos h]; simp; omega
  | case2 b0 b1 rest h => rw [decodeWindow, if_neg h]; simp
  | case3 w h =>
    unfold decodeWindow
    split
    · exact absurd rfl (h _ _ _)
    · simp

/-- The checks of ASSEMBLE (R182 to R184): LengthError, ChecksumError, or acceptance. -/
theorem checkFrame_cases (d : List Byte) (s : State) :
    ((d = [] ∨ 253 < (d.headD 0).toNat ∨ d.length < (d.headD 0).toNat + 2) ∧
        checkFrame d s = afterFailure s 3) ∨
      (∃ l rest, d = l :: rest ∧ l.toNat ≤ 253 ∧ l.toNat + 2 ≤ d.length ∧
        ((trailerOk (crc16 (d.take l.toNat)) (trailerWord (d.getD l.toNat 0) (d.getD (l.toNat + 1) 0)) = false ∧
            checkFrame d s = afterFailure { s with crc := crc16 (d.take l.toNat) } 4) ∨
          (trailerOk (crc16 (d.take l.toNat)) (trailerWord (d.getD l.toNat 0) (d.getD (l.toNat + 1) 0)) = true ∧
            checkFrame d s =
              { s with crc := crc16 (d.take l.toNat), cmd := s.cmd.overlay 0 (d.take l.toNat), cmdLen := l.toNat,
                       seq := .dispatch }))) := by
  cases d with
  | nil => exact .inl ⟨.inl rfl, rfl⟩
  | cons l rest =>
    unfold checkFrame
    simp only [Config.maxL]
    by_cases h1 : 253 < l.toNat
    · exact .inl ⟨.inr (.inl h1), if_pos h1⟩
    · by_cases h2 : (l :: rest).length < l.toNat + 2
      · exact .inl ⟨.inr (.inr h2), (if_neg h1).trans (if_pos h2)⟩
      · refine .inr ⟨l, rest, rfl, by omega, by omega, ?_⟩
        rw [if_neg h1, if_neg h2]
        have hl : ((l :: rest).take l.toNat).length = l.toNat := by rw [List.length_take]; omega
        split
        · next h => exact .inr ⟨h, by rw [State.putCmd, hl]⟩
        · next h => exact .inl ⟨by simpa using h, rfl⟩

/-- TRANSMIT (R195 to R204): the checksum, one byte handed over or a wait for good, the gate opening, or the end. -/
theorem transmitStep_cases (s : State) :
    (s.tx = none ∧
        transmitStep s = { s with crc := crc16 s.response, tx := some (txActions s.response (crc16 s.response)) }) ∨
      (∃ b rest sink, s.tx = some (.emit b :: rest) ∧
        transmitStep s =
          { s with tx := some rest, env := { s.env with sink := sink, sent := s.env.sent ++ [⟨s.gate, b⟩] } }) ∨
      (∃ b rest sink, s.tx = some (.emit b :: rest) ∧
        transmitStep s = { s with waiting := true, env := { s.env with sink := sink } }) ∨
      (∃ rest, s.tx = some (.gateOn :: rest) ∧ transmitStep s = { s with gate := true, tx := some rest }) ∨
      (s.tx = some [] ∧ s.cmd.at 1 = 0x00 ∧
        transmitStep s = { s with gate := false, rspValid := false, tx := none, seq := .delay }) ∨
      (s.tx = some [] ∧ s.cmd.at 1 ≠ 0x00 ∧
        transmitStep s = { s with gate := false, rspValid := false, tx := none, seq := .capture, nCap := 0 }) := by
  unfold transmitStep
  split
  · next h => exact .inl ⟨h, rfl⟩
  · next b rest h =>
    rcases ha : takeAnswers 1 s.env.sink with ⟨answered, sink⟩
    cases answered
    · exact .inr (.inr (.inl ⟨b, rest, sink, h, by rw [emitSymbol, ha]; rfl⟩))
    · exact .inr (.inl ⟨b, rest, sink, h, by rw [emitSymbol, ha]; rfl⟩)
  · next rest h => exact .inr (.inr (.inr (.inl ⟨rest, h, rfl⟩)))
  · next h =>
    by_cases hc : s.cmd.at 1 = 0x00
    · exact .inr (.inr (.inr (.inr (.inl ⟨h, hc, by rw [endTransmit]; exact if_pos hc⟩))))
    · exact .inr (.inr (.inr (.inr (.inr ⟨h, hc, by rw [endTransmit]; exact if_neg hc⟩))))

/-- LOAD (R362, R374): the image is moved, or a read is never answered. -/
theorem loadStep_cases (s : State) :
    (∃ store, loadStep s =
        { s with seq := .capture, nCap := 0,
                 cs := { s.cs with idm := s.nv.idm, pmm := s.nv.pmm, svc := s.nv.svc, sys := s.nv.sys, blk := s.nv.blk },
                 env := { s.env with store := store } }) ∨
      (∃ store, loadStep s = { s with waiting := true, env := { s.env with store := store } }) := by
  rcases ha : takeAnswers loadCalls s.env.store with ⟨answered, store⟩
  cases answered
  · exact .inr ⟨store, by rw [loadStep, ha]; rfl⟩
  · exact .inl ⟨store, by rw [loadStep, ha]; rfl⟩

/-- A packet with a code whose first byte is its length is an instruction (R92, R97): no packet is left over. -/
theorem rowOf_ne_none (w : Word) : rowOf w ≠ none := by
  intro h
  have h' := h
  simp only [rowOf, Option.map_eq_none_iff, List.find?_eq_none, opcodeTable] at h'
  have h0 := h' ⟨.unsupportedEven, 0x0000, 0x0100⟩ (by simp)
  have h1 := h' ⟨.oddCode, 0x0100, 0x0100⟩ (by simp)
  have hb : w &&& 0x0100 = 0x0000 ∨ w &&& 0x0100 = 0x0100 := by
    cases hw : w.getLsbD 8
    · left; ext i hi; simp; intro; interval_cases i <;> simp_all
    · right; ext i hi; simp; interval_cases i <;> simp_all
  rcases hb with hb | hb <;> simp_all

/-- DISPATCH (R217, R218): an instruction runs, a packet without a code is silent, and the fault is left to a malformed register. -/
theorem dispatchStep_cases (s : State) :
    (∃ i, decode s.packet = .ok i ∧ dispatchStep s = exec i s) ∨
      (s.packet.length < 2 ∧ dispatchStep s = .next s.noResponse) ∨
      (2 ≤ s.packet.length ∧ (s.packet.headD 0).toNat ≠ s.packet.length ∧
        dispatchStep s = .fault .malformedCommandRegister) := by
  unfold dispatchStep
  match hp : s.packet with
  | [] => exact .inr (.inl ⟨by simp, rfl⟩)
  | [b] => exact .inr (.inl ⟨by simp, rfl⟩)
  | len :: code :: body =>
    by_cases hl : len.toNat ≠ body.length + 2
    · have hd : decode (len :: code :: body) = .error .lengthByteMismatch := by rw [decode, if_pos hl]
      exact .inr (.inr ⟨by simp, by simpa using hl, by rw [hd]⟩)
    · cases hr : rowOf (decodeWord code body) with
      | none => exact absurd hr (rowOf_ne_none _)
      | some r =>
        have hd : decode (len :: code :: body) = .ok (decodeRow r code body) := by rw [decode, if_neg hl, hr]
        exact .inl ⟨_, hd, by rw [hd]⟩

end Sys2Proof.Machine
end

