-- ==== Sys2Proof/Laws/Commands.lean ====
section
/-! SUPPORT. What a command can do to the state, said once: `exec_cases`. -/

namespace Sys2Proof.Machine

/-- The state after a reply, with the error log it leaves. -/
def State.afterReply (s : State) (rsp : Bytes Config.packetBuf) (elog : Sized Block 2) : State :=
  { s with rsp := rsp, rspValid := true, seq := .transmit, cs := { s.cs with elog := elog } }

/-- A silence: at most RSP is written (R216, R337). -/
def IsSilence (s t : State) : Prop :=
  ∃ rsp, t = { s with rsp := rsp, rspValid := false, seq := .capture, nCap := 0 }

/-- A reply of 2 to 253 bytes (R207), by which the error log's slot 1 is not touched (R320). -/
def IsReply (s t : State) : Prop :=
  ∃ rsp elog, 2 ≤ (rsp.at 0).toNat ∧ (rsp.at 0).toNat ≤ 253 ∧ elog.toList[1]? = s.cs.elog.toList[1]? ∧ t = s.afterReply rsp elog

/-- A silence or a reply. -/
def IsOutcome (s t : State) : Prop := IsSilence s t ∨ IsReply s t

/-- Bytes of RSP above the length byte do not change it. -/
theorem at_zero_overlay {r : Bytes Config.packetBuf} {pos : Nat} {xs : List Byte} (h : 0 < pos) :
    Bytes.at (r.overlay pos xs) 0 = r.at 0 := Bytes.at_overlay_outside (.inl h)

/-- The length byte that was written (R93). -/
theorem at_zero_putLength (r : Bytes Config.packetBuf) (len : Nat) (h : len < 256) :
    (Bytes.at (r.overlay 0 [BitVec.ofNat 8 len]) 0).toNat = len := by
  rw [Bytes.at_overlay_inside (Nat.le_refl 0) (by simp) (by simp [Config.packetBuf])]
  simpa using h

/-- `logError` keeps slot 1 (R320). -/
theorem State.logError_slot (s : State) : s.logError.cs.elog.toList[1]? = s.cs.elog.toList[1]? :=
  Sized.getElem?_overlay_outside (.inr (by simp)) (by omega)

theorem State.statusFail_isReply (s : State) (f : StatusFailure) : IsReply s (s.statusFail f) := by
  refine ⟨(s.statusFail f).rsp, s.logError.cs.elog, ?_, ?_, s.logError_slot, rfl⟩ <;>
    simp only [State.statusFail, State.respond_rsp, State.putFlags_rsp, State.putLength_rsp] <;>
    rw [at_zero_overlay (by omega), at_zero_putLength _ _ (by omega)] <;> omega

/-- What happens after the header is written counts from before it. -/
theorem IsOutcome.of_rsp {s t : State} {rsp : Bytes Config.packetBuf} (h : IsOutcome { s with rsp := rsp } t) : IsOutcome s t := by
  rcases h with ⟨r, rfl⟩ | ⟨r, e, h2, h253, he, rfl⟩
  · exact .inl ⟨r, rfl⟩
  · exact .inr ⟨r, e, h2, h253, he, rfl⟩

theorem outcome_noResponse (s : State) : IsOutcome s s.noResponse := .inl ⟨s.rsp, rfl⟩

/-- `t` is `s` but for RSP. -/
def RspOnly (s t : State) : Prop := t = { s with rsp := t.rsp }

theorem RspOnly.refl (s : State) : RspOnly s s := rfl

theorem RspOnly.putRsp {s t : State} (h : RspOnly s t) (pos : Nat) (xs : List Byte) : RspOnly s (t.putRsp pos xs) := by
  rw [RspOnly] at *
  rw [h]
  rfl

/-- A reply whose length byte was written first. -/
theorem outcome_respond {s t : State} (len : Nat) (hl : 2 ≤ len ∧ len ≤ 253) (ht : RspOnly s t)
    (h0 : (t.rsp.at 0).toNat = len) : IsOutcome s t.respond := by
  refine .inr ⟨t.rsp, s.cs.elog, by omega, by omega, rfl, ?_⟩
  rw [RspOnly] at ht
  rw [ht]
  rfl

theorem polling_outcome (req : Code) (rc : Byte) (s : State) : IsOutcome s (polling req rc s) := by
  unfold polling
  split
  · exact outcome_noResponse s
  · next slot _ =>
    split
    · exact outcome_noResponse s
    · next extra he =>
      have hlen : extra.length ≤ 2 := by
        unfold pollExtra at he
        repeat' split at he
        all_goals cases he
        all_goals simp [Params.commCap]
      refine outcome_respond (18 + extra.length) (by omega)
        ((((((RspOnly.refl s).putRsp _ _).putRsp _ _).putRsp _ _).putRsp _ _).putRsp _ _ |>.putRsp _ _) ?_
      simp only [State.putRsp_rsp, State.putLength_rsp]
      rw [at_zero_overlay (by omega), at_zero_overlay (by omega), at_zero_overlay (by omega), at_zero_overlay (by omega),
        at_zero_overlay (by omega), at_zero_putLength _ _ (by omega)]

theorem requestResponse_outcome (s : State) : IsOutcome s (requestResponse s) := by
  refine outcome_respond 11 (by omega) (((RspOnly.refl s).putRsp _ _).putRsp _ _) ?_
  simp only [State.putRsp_rsp, State.putLength_rsp]
  rw [at_zero_overlay (by omega), at_zero_putLength _ _ (by omega)]

theorem requestService_outcome (ops : ReqSvcOps) (s : State) : IsOutcome s (requestService ops s) := by
  unfold requestService
  split
  · next h =>
    simp only [nodeCountOk, Bool.and_eq_true, decide_eq_true_eq] at h
    refine outcome_respond (11 + 2 * ops.n.toNat) (by omega)
      ((((RspOnly.refl s).putRsp _ _).putRsp _ _).putRsp _ _) ?_
    simp only [State.putRsp_rsp, State.putLength_rsp]
    rw [at_zero_overlay (by omega), at_zero_overlay (by omega), at_zero_putLength _ _ (by omega)]
  · exact outcome_noResponse s

theorem searchServiceCode_outcome (ops : SearchOps) (s : State) : IsOutcome s (searchServiceCode ops s) := by
  refine outcome_respond 12 (by omega) (((RspOnly.refl s).putRsp _ _).putRsp _ _) ?_
  simp only [State.putRsp_rsp, State.putLength_rsp]
  rw [at_zero_overlay (by omega), at_zero_putLength _ _ (by omega)]

theorem requestSystemCode_outcome (s : State) : IsOutcome s (requestSystemCode s) := by
  unfold requestSystemCode
  simp only
  have hk := s.cs.sys.activeLen_le
  split
  · exact outcome_noResponse s
  · refine outcome_respond (11 + 2 * s.cs.sys.activeLen) (by omega)
      ((((RspOnly.refl s).putRsp _ _).putRsp _ _).putRsp _ _) ?_
    simp only [State.putRsp_rsp, State.putLength_rsp]
    rw [at_zero_overlay (by omega), at_zero_overlay (by omega), at_zero_putLength _ _ (by omega)]

theorem readCommand_outcome (ops : ReadOps) (s : State) : IsOutcome s (readCommand ops s) := by
  unfold readCommand
  split
  · exact .inr (s.statusFail_isReply _)
  split
  · exact .inr (s.statusFail_isReply _)
  split
  · exact .inr (s.statusFail_isReply _)
  next hn =>
  split
  · exact .inr (s.statusFail_isReply _)
  next bs _ =>
  have hf := (readBlocks_cases bs 0 s).1
  split
  · next s' hs =>
    rw [hs] at hf
    simp only at hf
    rw [hf]
    exact IsOutcome.of_rsp (.inr (State.statusFail_isReply _ _))
  · next s' hs =>
    rw [hs] at hf
    simp only at hf
    have hc : CountOk ops.n := (blockCountOk_iff ops.n).mp (by simpa using hn)
    have hn : ops.n.toNat ≤ 12 := hc.2
    refine outcome_respond (13 + 16 * ops.n.toNat) (by omega)
      ((((show RspOnly s s' from hf).putRsp _ _).putRsp _ _).putRsp _ _) ?_
    simp only [State.putRsp_rsp, State.putLength_rsp, State.statusOk, State.putFlags_rsp]
    rw [at_zero_overlay (by omega), at_zero_overlay (by omega), at_zero_putLength _ _ (by omega)]

/-- What a Write can end in (R270, R271, R313, R374): a silence or a failure with nothing written; its updates and a reply; or a
prefix of its updates, and then a reset or a wait for good. -/
def WriteOutcome (s t : State) : Prop :=
  IsOutcome s t ∨
    ∃ us store rst rsp, (∀ b v, .blk b v ∈ us → b < Config.nBlocks) ∧
      (IsReply (s.afterUpdates us store rst) t ∨
        (true ∈ s.env.rst ∧ t = (State.afterUpdates { s with rsp := rsp } us store rst).powerLoss) ∨
        (false ∈ s.env.store ∧ t = (State.afterUpdates { s with rsp := rsp } us store rst).hang))

theorem writeCommand_outcome (ops : WriteOps) (s : State) : WriteOutcome s (writeCommand ops s) := by
  unfold writeCommand
  split
  · exact .inl (.inr (s.statusFail_isReply _))
  split
  · exact .inl (.inr (s.statusFail_isReply _))
  split
  · exact .inl (.inr (s.statusFail_isReply _))
  next used bs _ =>
  split
  · exact .inl (outcome_noResponse s)
  generalize hp : planWrites ops.n.toNat (pairBlocks (ops.body.drop used) 0 bs) = plan
  have hb : ∀ b v, .blk b v ∈ plan.1 → b < Config.nBlocks := fun b v h => planWrites_blocks (hp ▸ h)
  rcases nvUpdates_cases plan.1 s with ⟨store, rst, h⟩ | ⟨k, store, rst, -, h⟩
  · refine .inr ⟨plan.1, store, rst, s.rsp, hb, .inl ?_⟩
    rw [h]
    simp only
    split
    · refine ⟨_, (s.afterUpdates plan.1 store rst).cs.elog, ?_, ?_, rfl, rfl⟩ <;>
        simp only [State.statusOk, State.putFlags_rsp, State.putLength_rsp] <;>
        rw [at_zero_overlay (by omega), at_zero_putLength _ _ (by omega)] <;> omega
    · exact State.statusFail_isReply _ _
  · refine .inr ⟨plan.1.take k, store, rst, s.rsp, fun b v hm => hb b v (List.mem_of_mem_take hm), .inr ?_⟩
    rcases h with ⟨hm, h⟩ | ⟨hm, h⟩ <;> rw [h]
    · exact .inl ⟨hm, rfl⟩
    · exact .inr ⟨hm, rfl⟩

theorem nvUpdate_rsp (s : State) (u : NvWrite) (r : Bytes Config.packetBuf) :
    State.nvUpdate { s with rsp := r } u = { s.nvUpdate u with rsp := r } := by cases u <;> rfl

theorem afterUpdates_rsp (s : State) (us : List NvWrite) (store rst : List Bool) (r : Bytes Config.packetBuf) :
    State.afterUpdates { s with rsp := r } us store rst = { s.afterUpdates us store rst with rsp := r } := by
  induction us generalizing s with
  | nil => rfl
  | cons u us ih =>
    have := ih (s.nvUpdate u)
    rw [← nvUpdate_rsp] at this
    exact this

theorem WriteOutcome.of_rsp {s t : State} {rsp : Bytes Config.packetBuf} (h : WriteOutcome { s with rsp := rsp } t) :
    WriteOutcome s t := by
  rcases h with h | ⟨us, store, rst, r, hb, h⟩
  · exact .inl h.of_rsp
  · refine .inr ⟨us, store, rst, r, hb, ?_⟩
    rcases h with h | h | h
    · rw [afterUpdates_rsp] at h
      obtain ⟨r', e, h2, h253, he, rfl⟩ := h
      exact .inl ⟨r', e, h2, h253, he, rfl⟩
    · exact .inr (.inl h)
    · exact .inr (.inr h)

/-- An addressed command with a handler that answers or is silent does the same (R218, R235). -/
theorem addressed_outcome {code : Byte} {handler : β → State → State} (a : Addressed β) (s : State)
    (h : ∀ ops u, IsOutcome u (handler ops u)) : IsOutcome s (addressed code handler a s) := by
  rcases addressed_cases code handler a s with ⟨idm, ops, -, -, e⟩ | ⟨idm, bytes, -, -, e⟩ | e <;> rw [e]
  · exact (h ops _).of_rsp
  · exact (outcome_noResponse _).of_rsp
  · exact outcome_noResponse s

/-- Every command ends in a silence or a reply of 2 to 253 bytes with no field written but RSP and slot 0 of the error log; Echo
copies the packet; Write also updates storage, or is cut short. -/
theorem exec_cases (i : Instr) (s : State) :
    ∃ t, exec i s = .next t ∧
      (((∀ a, i ≠ .write a) ∧ (∀ data, i ≠ .echo data) ∧ IsOutcome s t) ∨
        ((∃ data, i = .echo data) ∧ t = s.afterReply (s.rsp.overlay 0 s.packet) s.cs.elog) ∨
        ((∃ a, i = .write a) ∧ WriteOutcome s t)) := by
  cases i with
  | poll ops =>
    cases ops with
    | short bytes => exact ⟨_, rfl, .inl ⟨nofun, nofun, outcome_noResponse s⟩⟩
    | full sys rc unread => exact ⟨_, rfl, .inl ⟨nofun, nofun, polling_outcome sys rc s⟩⟩
  | echo data => exact ⟨_, rfl, .inr (.inl ⟨⟨data, rfl⟩, rfl⟩)⟩
  | reqsvc a => exact ⟨_, rfl, .inl ⟨nofun, nofun, addressed_outcome a s fun o u => requestService_outcome o u⟩⟩
  | reqrsp a => exact ⟨_, rfl, .inl ⟨nofun, nofun, addressed_outcome a s fun _ u => requestResponse_outcome u⟩⟩
  | read a => exact ⟨_, rfl, .inl ⟨nofun, nofun, addressed_outcome a s fun o u => readCommand_outcome o u⟩⟩
  | write a =>
    refine ⟨_, rfl, .inr (.inr ⟨⟨a, rfl⟩, ?_⟩)⟩
    rcases addressed_cases 0x08 writeCommand a s with ⟨idm, ops, -, -, e⟩ | ⟨idm, bytes, -, -, e⟩ | e <;> rw [e]
    · exact (writeCommand_outcome ops _).of_rsp
    · exact .inl (outcome_noResponse _).of_rsp
    · exact .inl (outcome_noResponse s)
  | search a => exact ⟨_, rfl, .inl ⟨nofun, nofun, addressed_outcome a s fun o u => searchServiceCode_outcome o u⟩⟩
  | reqsys a => exact ⟨_, rfl, .inl ⟨nofun, nofun, addressed_outcome a s fun _ u => requestSystemCode_outcome u⟩⟩
  | auth1 a => exact ⟨_, rfl, .inl ⟨nofun, nofun, addressed_outcome a s fun _ u => outcome_noResponse u⟩⟩
  | unsupportedEven code a => exact ⟨_, rfl, .inl ⟨nofun, nofun, addressed_outcome a s fun _ u => outcome_noResponse u⟩⟩
  | oddCode code a => exact ⟨_, rfl, .inl ⟨nofun, nofun, outcome_noResponse s⟩⟩

end Sys2Proof.Machine
end

