-- ==== Sys2Proof/Laws/Decode.lean ====
section
/-! SUPPORT. How a decode word matches the rows of the opcode table, byte by byte. -/

namespace Sys2Proof

/-- A mask over a word of two bytes acts on each byte. -/
theorem append_and_append (x y a b : Byte) : (x ++ y) &&& (a ++ b) = (x &&& a) ++ (y &&& b) := BitVec.and_append

/-- Two words of two bytes are equal when their bytes are. -/
theorem append_eq_append_iff (x y a b : Byte) : x ++ y = a ++ b ↔ x = a ∧ y = b := by
  refine ⟨fun h => ?_, fun h => by rw [h.1, h.2]⟩
  have h1 := congrArg (BitVec.extractLsb' 8 8) h
  have h2 := congrArg (BitVec.extractLsb' 0 8) h
  rw [BitVec.extractLsb'_append_eq_left, BitVec.extractLsb'_append_eq_left] at h1
  rw [BitVec.extractLsb'_append_eq_right, BitVec.extractLsb'_append_eq_right] at h2
  exact ⟨h1, h2⟩

/-- A row matches a word when the masked bytes are the row's bytes (R97). -/
theorem row_matches_iff (c f vc vf mc mf : Byte) :
    (((c ++ f) &&& (mc ++ mf) : Word) == vc ++ vf) = decide (c &&& mc = vc ∧ f &&& mf = vf) := by
  rw [append_and_append, Bool.eq_iff_iff]
  simp [append_eq_append_iff]

/-- The rows in file order, byte by byte (R97). -/
theorem rowOf_append (c f : Byte) :
    rowOf (c ++ f) =
      if c = 0x00 then some Row.poll
      else if c = 0xF0 ∧ f = 0x00 then some .echo
      else if c = 0x02 then some .reqsvc
      else if c = 0x04 then some .reqrsp
      else if c = 0x06 then some .read
      else if c = 0x08 then some .write
      else if c = 0x0A then some .search
      else if c = 0x0C then some .reqsys
      else if c = 0x10 then some .auth1
      else if c &&& 1 = 0 then some .unsupportedEven
      else if c &&& 1 = 1 then some .oddCode
      else none := by
  have full : ∀ x : Byte, x &&& 0xFF = x := fun x => BitVec.and_allOnes
  have zero : ∀ x : Byte, x &&& 0x00 = 0x00 := fun x => BitVec.and_zero
  have code : ∀ v : Byte, (((c ++ f) &&& ((0xFF : Byte) ++ (0x00 : Byte)) : Word) == v ++ (0x00 : Byte)) = decide (c = v) := by
    intro v
    rw [row_matches_iff, full, zero]
    simp
  have parity : ∀ v : Byte,
      (((c ++ f) &&& ((0x01 : Byte) ++ (0x00 : Byte)) : Word) == v ++ (0x00 : Byte)) = decide (c &&& 1 = v) := by
    intro v
    rw [row_matches_iff, zero]
    simp
  have echo := row_matches_iff c f 0xF0 0x00 0xFF 0xFF
  rw [full, full] at echo
  have r0 : (((c ++ f) &&& (0xFF00 : Word)) == (0x0000 : Word)) = _ := code 0x00
  have r1 : (((c ++ f) &&& (0xFFFF : Word)) == (0xF000 : Word)) = _ := echo
  have r2 : (((c ++ f) &&& (0xFF00 : Word)) == (0x0200 : Word)) = _ := code 0x02
  have r3 : (((c ++ f) &&& (0xFF00 : Word)) == (0x0400 : Word)) = _ := code 0x04
  have r4 : (((c ++ f) &&& (0xFF00 : Word)) == (0x0600 : Word)) = _ := code 0x06
  have r5 : (((c ++ f) &&& (0xFF00 : Word)) == (0x0800 : Word)) = _ := code 0x08
  have r6 : (((c ++ f) &&& (0xFF00 : Word)) == (0x0A00 : Word)) = _ := code 0x0A
  have r7 : (((c ++ f) &&& (0xFF00 : Word)) == (0x0C00 : Word)) = _ := code 0x0C
  have r8 : (((c ++ f) &&& (0xFF00 : Word)) == (0x1000 : Word)) = _ := code 0x10
  have r9 : (((c ++ f) &&& (0x0100 : Word)) == (0x0000 : Word)) = _ := parity 0x00
  have r10 : (((c ++ f) &&& (0x0100 : Word)) == (0x0100 : Word)) = _ := parity 0x01
  simp only [rowOf, opcodeTable, List.find?_cons, r0, r1, r2, r3, r4, r5, r6, r7, r8, r9, r10]
  clear r0 r1 r2 r3 r4 r5 r6 r7 r8 r9 r10 echo code parity full zero
  by_cases h0 : c = 0x00
  · simp [h0]
  by_cases h1 : c = 0xF0 ∧ f = 0x00
  · simp [h1]
  simp only [h0, h1, decide_false, if_false]
  by_cases h2 : c = 0x02
  · simp [h2]
  by_cases h3 : c = 0x04
  · simp [h3]
  by_cases h4 : c = 0x06
  · simp [h4]
  by_cases h5 : c = 0x08
  · simp [h5]
  by_cases h6 : c = 0x0A
  · simp [h6]
  by_cases h7 : c = 0x0C
  · simp [h7]
  by_cases h8 : c = 0x10
  · simp [h8]
  simp only [h2, h3, h4, h5, h6, h7, h8, decide_false, if_false]
  by_cases h9 : c &&& 1 = 0
  · simp only [h9, decide_true, if_true, Option.map_some]
  by_cases h10 : c &&& 1 = 1
  · rw [h10]; rfl
  · simp only [h9, h10, decide_false, if_false]; rfl

end Sys2Proof
end

