-- ==== Sys2Proof/Laws/PerInstr.lean ====
section
/-! SUPPORT. What holds of every instruction as syntax, one lemma for each constructor. -/

namespace Sys2Proof.Laws

/-- The bytes of an addressed command after the code are at most 251 (R92, R182). -/
theorem length_encodeAddressed {need : Nat} {ok : β → Bool} {len : β → Nat} {enc : β → List Byte} {a : Addressed β}
    (h : a.wellFormed need ok len = true) (hn : need ≤ 243) (he : ∀ o, (enc o).length = len o) :
    (encodeAddressed enc a).length ≤ 251 := by
  cases a with
  | noIdm bytes => simp [Addressed.wellFormed, encodeAddressed] at *; omega
  | short idm bytes =>
    have := idm.length_eq
    simp [Addressed.wellFormed, encodeAddressed] at *; omega
  | full idm o =>
    have := idm.length_eq
    simp only [Addressed.wellFormed, Bool.and_eq_true, decide_eq_true_eq] at h
    have hm : Config.maxL = 253 := rfl
    simp only [encodeAddressed, List.length_append, he]; omega

/-- The byte after the code is the first of the body (R97). -/
theorem headD_encodeAddressed {enc : β → List Byte} (a : Addressed β) :
    (encodeAddressed enc a).headD 0xFF = a.firstByte := by
  cases a with
  | noIdm bytes => rfl
  | short idm bytes =>
    obtain ⟨l, hl⟩ := idm
    cases l with
    | nil => simp at hl
    | cons b l => simp [encodeAddressed, Addressed.firstByte]
  | full idm o =>
    obtain ⟨l, hl⟩ := idm
    cases l with
    | nil => simp at hl
    | cons b l => simp [encodeAddressed, Addressed.firstByte]

namespace EncodedLength

/-- A well-formed instruction has 2 to 253 bytes (R92). -/
def Statement (i : Instr) : Prop := i.WellFormed → 2 ≤ (encode i).length ∧ (encode i).length ≤ 253

theorem of_body {i : Instr} (h : i.WellFormed → i.body.length ≤ 251) : Statement i := by
  intro hw
  have := h hw
  simp only [encode, List.length_cons]
  omega

theorem poll (ops : PollOps) : Statement (.poll ops) := of_body fun h => by
  cases ops with
  | short bytes => simp [Instr.WellFormed, Instr.wellFormed, Instr.body] at *; omega
  | full sys rc unread =>
    simp only [Instr.WellFormed, Instr.wellFormed, decide_eq_true_eq] at h
    have hm : Config.maxL = 253 := rfl
    simp only [Instr.body, List.length_cons]; omega

theorem echo (data : List Byte) : Statement (.echo data) := of_body fun h => by
  simp only [Instr.WellFormed, Instr.wellFormed, decide_eq_true_eq] at h
  have hm : Config.maxL = 253 := rfl
  simp only [Instr.body, List.length_cons]; omega

theorem reqsvc (a : Addressed ReqSvcOps) : Statement (.reqsvc a) :=
  of_body fun h => length_encodeAddressed h (by omega) fun o => by simp only [List.length_cons]; omega

theorem reqrsp (a : Addressed (List Byte)) : Statement (.reqrsp a) :=
  of_body fun h => length_encodeAddressed h (by omega) fun _ => rfl

theorem read (a : Addressed ReadOps) : Statement (.read a) :=
  of_body fun h => length_encodeAddressed h (by omega) fun o => by simp only [List.length_cons]; omega

theorem write (a : Addressed WriteOps) : Statement (.write a) :=
  of_body fun h => length_encodeAddressed h (by omega) fun o => by simp only [List.length_cons]; omega

theorem search (a : Addressed SearchOps) : Statement (.search a) :=
  of_body fun h => length_encodeAddressed h (by omega) fun o => by simp only [List.length_cons]; omega

theorem reqsys (a : Addressed (List Byte)) : Statement (.reqsys a) :=
  of_body fun h => length_encodeAddressed h (by omega) fun _ => rfl

theorem auth1 (a : Addressed (List Byte)) : Statement (.auth1 a) :=
  of_body fun h => length_encodeAddressed h (by omega) fun _ => rfl

theorem unsupportedEven (code : Byte) (a : Addressed (List Byte)) : Statement (.unsupportedEven code a) :=
  of_body fun h => by
    simp only [Instr.WellFormed, Instr.wellFormed, Bool.and_eq_true] at h
    exact length_encodeAddressed h.1 (by omega) fun _ => rfl

theorem oddCode (code : Byte) (a : Addressed (List Byte)) : Statement (.oddCode code a) :=
  of_body fun h => by
    simp only [Instr.WellFormed, Instr.wellFormed, Bool.and_eq_true] at h
    exact length_encodeAddressed h.1 (by omega) fun _ => rfl

end EncodedLength

namespace RowMatch

/-- The row of an instruction. -/
def row : Instr → Row
  | .poll _ => .poll
  | .echo _ => .echo
  | .reqsvc _ => .reqsvc
  | .reqrsp _ => .reqrsp
  | .read _ => .read
  | .write _ => .write
  | .search _ => .search
  | .reqsys _ => .reqsys
  | .auth1 _ => .auth1
  | .unsupportedEven _ _ => .unsupportedEven
  | .oddCode _ _ => .oddCode

/-- The decode word of a well-formed instruction selects its own row (R97). -/
def Statement (i : Instr) : Prop := i.WellFormed → rowOf (decodeWord i.code i.body) = some (row i)

theorem poll (ops : PollOps) : Statement (.poll ops) := fun _ => (rowOf_append _ _).trans rfl

theorem echo (data : List Byte) : Statement (.echo data) := fun _ => (rowOf_append _ _).trans rfl

theorem reqsvc (a : Addressed ReqSvcOps) : Statement (.reqsvc a) := fun _ => (rowOf_append _ _).trans (by simp [Instr.code, row])

theorem reqrsp (a : Addressed (List Byte)) : Statement (.reqrsp a) := fun _ =>
  (rowOf_append _ _).trans (by simp [Instr.code, row])

theorem read (a : Addressed ReadOps) : Statement (.read a) := fun _ => (rowOf_append _ _).trans (by simp [Instr.code, row])

theorem write (a : Addressed WriteOps) : Statement (.write a) := fun _ => (rowOf_append _ _).trans (by simp [Instr.code, row])

theorem search (a : Addressed SearchOps) : Statement (.search a) := fun _ => (rowOf_append _ _).trans (by simp [Instr.code, row])

theorem reqsys (a : Addressed (List Byte)) : Statement (.reqsys a) := fun _ =>
  (rowOf_append _ _).trans (by simp [Instr.code, row])

theorem auth1 (a : Addressed (List Byte)) : Statement (.auth1 a) := fun _ =>
  (rowOf_append _ _).trans (by simp [Instr.code, row])

/-- What the check on a catch-all code says of the code alone, byte by byte. -/
theorem even_code : ∀ c : Byte, c.getLsbD 0 = false → c &&& 1 = 0 := by decide +kernel

theorem odd_code : ∀ c : Byte, c.getLsbD 0 = true →
    c &&& 1 = 1 ∧ c ≠ 0x00 ∧ c ≠ 0xF0 ∧ c ≠ 0x02 ∧ c ≠ 0x04 ∧ c ≠ 0x06 ∧ c ≠ 0x08 ∧ c ≠ 0x0A ∧ c ≠ 0x0C ∧ c ≠ 0x10 := by
  decide +kernel

theorem unsupportedEven (code : Byte) (a : Addressed (List Byte)) : Statement (.unsupportedEven code a) := fun h => by
  simp only [Instr.WellFormed, Instr.wellFormed, Bool.and_eq_true] at h
  have h2 := h.2
  simp [isUnsupportedEven] at h2
  refine (rowOf_append _ _).trans ?_
  simp only [Instr.code, Instr.body, row, headD_encodeAddressed]
  have he : code &&& 1 = 0 := even_code code (by simpa using h2.1.1)
  obtain ⟨⟨-, c0, c2, c4, c6, c8, cA, cC, c10⟩, hf⟩ := h2
  have hf' : ¬ (code = 0xF0#8 ∧ a.firstByte = 0x00#8) := by tauto
  simp only [BitVec.ofNat_eq_ofNat] at he ⊢
  simp only [c0, c2, c4, c6, c8, cA, cC, c10, he, hf', if_false, if_true]

theorem oddCode (code : Byte) (a : Addressed (List Byte)) : Statement (.oddCode code a) := fun h => by
  simp only [Instr.WellFormed, Instr.wellFormed, Bool.and_eq_true] at h
  obtain ⟨h1, c0, cF, c2, c4, c6, c8, cA, cC, c10⟩ := odd_code code h.2
  refine (rowOf_append _ _).trans ?_
  simp only [BitVec.ofNat_eq_ofNat, ne_eq] at *
  simp only [Instr.code, row, c0, cF, c2, c4, c6, c8, cA, cC, c10, h1, false_and, if_false]
  decide

end RowMatch

end Sys2Proof.Laws
end

