-- ==== Sys2Proof/Tests/Slice0.lean ====
section
/-! SUPPORT. Tests by hand calculation and from the vectors of spec 95_test_vectors.md; then, for every statement that has hypotheses,
concrete states and operands that meet them. -/

namespace Sys2Proof.Tests

open Sys2Proof Sys2Proof.Machine

-- One proof after another: many kernel evaluations side by side would each hold a thread.
set_option Elab.async false

/-! ### Helpers -/

/-- The IDm of the spec's base Card State. -/
def idm : Bytes 8 := Bytes.ofList 8 [0x01, 0x02, 0x03, 0x04, 0x05, 0x06, 0x07, 0x08]

/-- Another card's IDm: the low nibble of the first byte differs. -/
def otherIdm : Bytes 8 := Bytes.ofList 8 [0x02, 0x02, 0x03, 0x04, 0x05, 0x06, 0x07, 0x08]

/-- The base Card State of 95_test_vectors.md, with blocks 0 and 1 only. -/
def card : CardState where
  idm := idm
  pmm := Sized.fill 8 0x11
  svc := ⟨[⟨0x0F, 0x0F⟩, ⟨0x0B, 0x00⟩, ⟨0x00, 0x00⟩, ⟨0x09, 0x00⟩], rfl⟩
  sys := ⟨[⟨0x12, 0xFC⟩, ⟨0x88, 0xB4⟩, ⟨0x00, 0x00⟩, ⟨0x00, 0x00⟩], rfl⟩
  blk := (Memory.writeBlock [] 0 (Sized.fill 16 0xA0)).writeBlock 1 (Sized.fill 16 0x10)
  elog := ⟨[Sized.fill 16 0xE0, Sized.fill 16 0xE1], rfl⟩

/-- A card in a phase, with the base Card State and the same image. -/
def at_ (q : Seq) : State :=
  { State.reset with seq := q, cs := card, nv := ⟨card.idm, card.pmm, card.svc, card.sys, card.blk⟩ }

/-- A card in DISPATCH. -/
def ready : State := at_ .dispatch

/-- A card in DISPATCH with the packet of an instruction. -/
def holding (i : Instr) : State := ready.putCmd (encode i)

/-- An empty code table. -/
def emptyTable : CodeTable := Sized.fill 4 ⟨0x00, 0x00⟩

/-- The next state, if there is one. -/
def after : Host.Outcome State Fault Refusal → Option State
  | .next t => some t
  | _ => none

/-- What one instruction answers: `RSP_VALID` and the response. -/
def answer (i : Instr) (s : State) : Option (Bool × List Byte) := (after (exec i s)).map fun t => (t.rspValid, t.response)

/-- The symbol bytes of the frame of the packet 06 00 FF FF 01 00 (R208). -/
def pollFrame : List Byte :=
  [0x55, 0x55, 0x55, 0x55, 0x55, 0x55, 0x55, 0x55, 0x55, 0x55, 0x55, 0x55, 0x9A, 0x59, 0x65, 0xA6,
   0x55, 0x69, 0x55, 0x55, 0xAA, 0xAA, 0xAA, 0xAA, 0x55, 0x56, 0x55, 0x55, 0x5A, 0x99, 0x56, 0x55]

/-- A window in a phase, with a report. -/
def windowed (q : Seq) (w : List Byte) (off : Nat) (p : Fin 8) (pol : Bool) : State :=
  { at_ q with buf := (at_ q).buf.overlay 0 w, nCap := w.length, off := off, ph := p, pol := pol }

/-! ### WellFormed refuses -/

theorem test_wf_poll_short : ¬ (Instr.poll (.short [0xFF, 0xFF, 0x00])).WellFormed := by decide
theorem test_wf_poll_long : ¬ (Instr.poll (.full ⟨0xFF, 0xFF⟩ 0 (List.replicate 249 0))).WellFormed := by decide +kernel
theorem test_wf_echo_long : ¬ (Instr.echo (List.replicate 251 0)).WellFormed := by decide +kernel
theorem test_wf_noIdm : ¬ (Instr.reqrsp (.noIdm (List.replicate 8 0))).WellFormed := by decide
theorem test_wf_short_bare : ¬ (Instr.reqsys (.short idm [])).WellFormed := by decide
theorem test_wf_short_reqsvc : ¬ (Instr.reqsvc (.short idm [0x01])).WellFormed := by decide
theorem test_wf_short_read : ¬ (Instr.read (.short idm (List.replicate 6 0))).WellFormed := by decide
theorem test_wf_short_write : ¬ (Instr.write (.short idm (List.replicate 22 0))).WellFormed := by decide
theorem test_wf_short_search : ¬ (Instr.search (.short idm [0x00, 0x00])).WellFormed := by decide
theorem test_wf_read_list : ¬ (Instr.read (.full idm ⟨1, ⟨0, 0⟩, 1, [0x80]⟩)).WellFormed := by decide
theorem test_wf_write_body : ¬ (Instr.write (.full idm ⟨1, ⟨0, 0⟩, 1, List.replicate 17 0⟩)).WellFormed := by decide
theorem test_wf_reqsvc_long : ¬ (Instr.reqsvc (.full idm ⟨1, List.replicate 243 0⟩)).WellFormed := by decide +kernel
theorem test_wf_search_long : ¬ (Instr.search (.full idm ⟨0, 0, List.replicate 242 0⟩)).WellFormed := by decide +kernel
theorem test_wf_bare_long : ¬ (Instr.auth1 (.full idm (List.replicate 244 0))).WellFormed := by decide +kernel
theorem test_wf_even_is_odd : ¬ (Instr.unsupportedEven 0x0F (.noIdm [])).WellFormed := by decide
theorem test_wf_even_is_row : ¬ (Instr.unsupportedEven 0x0C (.noIdm [])).WellFormed := by decide
theorem test_wf_even_is_echo : ¬ (Instr.unsupportedEven 0xF0 (.noIdm [0x00])).WellFormed := by decide
theorem test_wf_odd_is_even : ¬ (Instr.oddCode 0x02 (.noIdm [])).WellFormed := by decide

/-! ### Decoding: the bytes are written out from the tables of R95 and the examples of R236, R224, R247, R268, R251, R254 -/

theorem test_decode_poll : decode [0x06, 0x00, 0x88, 0xB4, 0x01, 0x00] = .ok (.poll (.full ⟨0x88, 0xB4⟩ 0x01 [0x00])) := rfl
theorem test_decode_echo : decode [0x04, 0xF0, 0x00, 0xAB] = .ok (.echo [0xAB]) := rfl
theorem test_decode_reqsvc :
    decode [0x0D, 0x02, 0x01, 0x02, 0x03, 0x04, 0x05, 0x06, 0x07, 0x08, 0x01, 0x0B, 0x00] =
      .ok (.reqsvc (.full idm ⟨0x01, [0x0B, 0x00]⟩)) := rfl
theorem test_decode_reqrsp :
    decode [0x0A, 0x04, 0x01, 0x02, 0x03, 0x04, 0x05, 0x06, 0x07, 0x08] = .ok (.reqrsp (.full idm [])) := rfl
theorem test_decode_read :
    decode [0x10, 0x06, 0x01, 0x02, 0x03, 0x04, 0x05, 0x06, 0x07, 0x08, 0x01, 0x10, 0x0B, 0x02, 0x80, 0x05] =
      .ok (.read (.full idm ⟨0x01, ⟨0x10, 0x0B⟩, 0x02, [0x80, 0x05]⟩)) := rfl
theorem test_decode_write :
    decode ([0x20, 0x08, 0x01, 0x02, 0x03, 0x04, 0x05, 0x06, 0x07, 0x08, 0x01, 0x09, 0x00, 0x01, 0x80, 0x05] ++
        List.replicate 16 0xC3) =
      .ok (.write (.full idm ⟨0x01, ⟨0x09, 0x00⟩, 0x01, [0x80, 0x05] ++ List.replicate 16 0xC3⟩)) := rfl
theorem test_decode_search :
    decode [0x0C, 0x0A, 0x01, 0x02, 0x03, 0x04, 0x05, 0x06, 0x07, 0x08, 0x01, 0x02] =
      .ok (.search (.full idm ⟨0x01, 0x02, []⟩)) := rfl
theorem test_decode_reqsys :
    decode [0x0A, 0x0C, 0x01, 0x02, 0x03, 0x04, 0x05, 0x06, 0x07, 0x08] = .ok (.reqsys (.full idm [])) := rfl
theorem test_decode_auth1 :
    decode [0x0A, 0x10, 0x01, 0x02, 0x03, 0x04, 0x05, 0x06, 0x07, 0x08] = .ok (.auth1 (.full idm [])) := rfl
theorem test_decode_unsupportedEven : decode [0x02, 0xF0] = .ok (.unsupportedEven 0xF0 (.noIdm [])) := rfl
theorem test_decode_oddCode : decode [0x03, 0x05, 0x00] = .ok (.oddCode 0x05 (.noIdm [0x00])) := rfl

/-- Short operand forms, one byte below each command's minimum (R220, R246, R250, R265, R270). -/
theorem test_decode_short :
    decode [0x04, 0x00, 0xFF, 0xFF] = .ok (.poll (.short [0xFF, 0xFF])) ∧
    decode ([0x0A, 0x02] ++ idm.toList) = .ok (.reqsvc (.short idm [])) ∧
    decode ([0x0B, 0x0A] ++ idm.toList ++ [0x00]) = .ok (.search (.short idm [0x00])) ∧
    decode ([0x0F, 0x06] ++ idm.toList ++ [1, 0, 0, 1, 0x80]) = .ok (.read (.short idm [1, 0, 0, 1, 0x80])) ∧
    decode ([0x1F, 0x08] ++ idm.toList ++ List.replicate 21 1) = .ok (.write (.short idm (List.replicate 21 1))) :=
  ⟨rfl, rfl, rfl, rfl, rfl⟩

theorem test_decode_rejects :
    decode [] = .error .noCommandCode ∧ decode [0x01] = .error .noCommandCode ∧ decode [0x03, 0x00] = .error .lengthByteMismatch :=
  ⟨rfl, rfl, rfl⟩

/-! ### The blocks: R130, R147, R162, R174, R187, R197, R208 -/

theorem test_crc_values :
    crc16 [0x31, 0x32, 0x33, 0x34, 0x35, 0x36, 0x37, 0x38, 0x39] = 0x31C3 ∧ crc16 [0x01] = 0x1021 ∧ crc16 [0xFF] = 0x1EF0 ∧
      crc16 [0x06, 0x00, 0xFF, 0xFF, 0x01, 0x00] = 0x3A10 := by decide +kernel

theorem test_symbols : frameSymbols [0x06, 0x00, 0xFF, 0xFF, 0x01, 0x00] 0x3A10 = pollFrame := by decide +kernel

theorem test_extract :
    extract Params.phaseTable [0xD5, 0x4B] 1 true = 0x06 ∧ extract Params.phaseTable [0x35, 0x52, 0xD5] 3 true = 0x06 ∧
      extract Params.phaseTable [0x4C, 0xAA, 0xD2] 7 false = 0x06 ∧ extract Params.phaseTable [0x9A, 0x59] 0 false = 0xB2 := by
  decide +kernel

theorem test_sync_worked_example :
    syncScan Params.signature 0 pollFrame = some ⟨12, 0, false⟩ ∧
      syncScan Params.signature 0
        [0xF5, 0x55, 0x55, 0x55, 0x55, 0x55, 0x55, 0x55, 0x55, 0x55, 0x55, 0x55, 0x4C, 0xB4, 0xD3, 0x4B] =
        some ⟨12, 3, true⟩ := by decide +kernel

theorem test_assemble_accepts :
    (after (step (windowed .assemble pollFrame 12 0 false))).map (fun t => (t.seq, t.packet)) =
      some (.dispatch, [0x06, 0x00, 0xFF, 0xFF, 0x01, 0x00]) := by decide +kernel

theorem test_assemble_tolerance :
    (after (step (windowed .assemble (pollFrame.take 31 ++ [0x56]) 12 0 false))).map State.seq = some .dispatch ∧
      (after (step (windowed .assemble (pollFrame.take 31 ++ [0x59]) 12 0 false))).map (fun t => (t.seq, t.env.diags)) =
        some (.capture, [4]) := by decide +kernel

/-- The diagnostics of the last run of 95_test_vectors.md, in its order. -/
theorem test_diagnostic_codes :
    [Failure.noSync, .checksumError, .lengthError, .frameTooLong].map Failure.code = [2, 4, 3, 1] := by decide

theorem test_shifted_frame : (shifted 3 true true pollFrame).take 16 =
    [0xF5, 0x55, 0x55, 0x55, 0x55, 0x55, 0x55, 0x55, 0x55, 0x55, 0x55, 0x55, 0x4C, 0xB4, 0xD3, 0x4B] := by decide +kernel

/-! ### The commands: R224, R236, R247, R230, R268, R273, R251, R254 -/

theorem test_poll_slot1 : answer (.poll (.full ⟨0x88, 0xB4⟩ 0x01 [0x00])) ready =
    some (true, [0x14, 0x01, 0x11, 0x02, 0x03, 0x04, 0x05, 0x06, 0x07, 0x08, 0x11, 0x11, 0x11, 0x11, 0x11, 0x11, 0x11, 0x11,
      0x88, 0xB4]) := by decide +kernel

theorem test_poll_wildcard : answer (.poll (.full ⟨0xFF, 0xFF⟩ 0x00 [0x00])) ready =
    some (true, [0x12, 0x01, 0x01, 0x02, 0x03, 0x04, 0x05, 0x06, 0x07, 0x08, 0x11, 0x11, 0x11, 0x11, 0x11, 0x11, 0x11, 0x11]) := by
  decide +kernel

theorem test_echo : answer (.echo [0xAB]) (holding (.echo [0xAB])) = some (true, [0x04, 0xF0, 0x00, 0xAB]) := by decide +kernel

theorem test_reqsvc : answer (.reqsvc (.full idm ⟨0x01, [0x0B, 0x00]⟩)) ready =
    some (true, [0x0D, 0x03, 0x01, 0x02, 0x03, 0x04, 0x05, 0x06, 0x07, 0x08, 0x01, 0x00, 0x00]) := by decide +kernel

theorem test_reqsvc_count : (answer (.reqsvc (.full idm ⟨33, []⟩)) ready).map Prod.fst = some false ∧
    (answer (.reqsvc (.full idm ⟨32, []⟩)) ready).map (fun a => a.2.length) = some 75 := by decide +kernel

theorem test_reqrsp_high_nibble :
    answer (.reqrsp (.full (Bytes.ofList 8 [0x11, 0x02, 0x03, 0x04, 0x05, 0x06, 0x07, 0x08]) [])) ready =
      some (true, [0x0B, 0x05, 0x11, 0x02, 0x03, 0x04, 0x05, 0x06, 0x07, 0x08, 0x00]) := by decide +kernel

theorem test_reqrsp_other_card : answer (.reqrsp (.full otherIdm [])) ready = some (false, []) := by decide +kernel

theorem test_read_block : answer (.read (.full idm ⟨1, ⟨0x0F, 0x0F⟩, 1, [0x80, 0x00]⟩)) ready =
    some (true, [0x1D, 0x07, 0x01, 0x02, 0x03, 0x04, 0x05, 0x06, 0x07, 0x08, 0x00, 0x00, 0x01] ++ List.replicate 16 0xA0) := by
  decide +kernel

theorem test_read_unknown_service :
    (after (exec (.read (.full idm ⟨1, ⟨0x10, 0x0B⟩, 1, [0x80, 0x00]⟩))
      (holding (.read (.full idm ⟨1, ⟨0x10, 0x0B⟩, 1, [0x80, 0x00]⟩))))).map
        (fun t => (t.response, t.cs.elog.toList.map Sized.toList)) =
      some ([0x0C, 0x07, 0x01, 0x02, 0x03, 0x04, 0x05, 0x06, 0x07, 0x08, 0xFF, 0xA6],
        [[0x10, 0x06, 0x01, 0x02, 0x03, 0x04, 0x05, 0x06, 0x07, 0x08, 0x01, 0x10, 0x0B, 0x01, 0x80, 0x00],
          List.replicate 16 0xE1]) := by decide +kernel

theorem test_write_block5 :
    (after (exec (.write (.full idm ⟨1, ⟨0x09, 0x00⟩, 1, [0x80, 0x05] ++ List.replicate 16 0xC3⟩)) ready)).map
        (fun t => (t.response, t.nv.blk.read 79, t.nv.blk.read 80, t.cs.blk.read 95, t.cs.blk.read 96)) =
      some ([0x0C, 0x09, 0x01, 0x02, 0x03, 0x04, 0x05, 0x06, 0x07, 0x08, 0x00, 0x00], 0x00, 0xC3, 0xC3, 0x00) := by decide +kernel

theorem test_write_identity :
    (after (exec (.write (.full idm ⟨1, ⟨0, 0⟩, 1, [0x80, 0x83] ++ List.replicate 8 0x21 ++ List.replicate 8 0x43⟩)) ready)).map
        (fun t => (t.response, t.nv.idm, t.cs.pmm)) =
      some ([0x0C, 0x09, 0x01, 0x02, 0x03, 0x04, 0x05, 0x06, 0x07, 0x08, 0x00, 0x00], Sized.fill 8 0x21, Sized.fill 8 0x43) := by
  decide +kernel

theorem test_search_found : answer (.search (.full idm ⟨0x01, 0x00, []⟩)) ready =
    some (true, [0x0C, 0x0B, 0x01, 0x02, 0x03, 0x04, 0x05, 0x06, 0x07, 0x08, 0x0B, 0x00]) := by decide +kernel

theorem test_search_after_sentinel : answer (.search (.full idm ⟨0x03, 0x00, []⟩)) ready =
    some (true, [0x0C, 0x0B, 0x01, 0x02, 0x03, 0x04, 0x05, 0x06, 0x07, 0x08, 0xFF, 0xFF]) := by decide +kernel

theorem test_reqsys : answer (.reqsys (.full idm [])) ready =
    some (true, [0x0F, 0x0D, 0x01, 0x02, 0x03, 0x04, 0x05, 0x06, 0x07, 0x08, 0x02, 0x12, 0xFC, 0x88, 0xB4]) := by decide +kernel

theorem test_reqsys_empty :
    (answer (.reqsys (.full idm [])) { ready with cs := { card with sys := emptyTable } }).map Prod.fst = some false := by
  decide +kernel

theorem test_auth1 : (answer (.auth1 (.full idm [])) ready).map Prod.fst = some false := by decide +kernel
theorem test_unsupportedEven : (answer (.unsupportedEven 0xF2 (.full idm [])) ready).map Prod.fst = some false := by decide +kernel
theorem test_oddCode : (answer (.oddCode 0x05 (.full idm [])) ready).map Prod.fst = some false := by decide +kernel

/-- The instruction of a table row runs as the first after reset (fetch word of READ: code 06, next byte 00). -/
theorem test_fetch_word :
    decodeTableWord 16 0x0600 = some (.read (.full (Bytes.zero 8) ⟨0, ⟨0, 0⟩, 0, List.replicate 239 0⟩)) ∧
      (after (step (State.reset.withFetchWord 16 0x0600))).map (fun t => t.response) =
        some ([0x0C, 0x07] ++ List.replicate 8 0x00 ++ [0xFF, 0xA1]) := by decide +kernel

/-! ### Witnesses: what meets the hypotheses of the statements, at the boundaries of each clause -/

/-- 253 bytes, the longest packet: an Echo. -/
def longestPacket : List Byte := [0xFD, 0xF0, 0x00] ++ List.replicate 250 0x00

theorem witness_DecodeEncode : (Instr.echo (List.replicate 250 0)).WellFormed ∧ (Instr.poll (.short [])).WellFormed ∧
    (Instr.unsupportedEven 0xF0 (.noIdm [])).WellFormed ∧ (Instr.write (.full idm ⟨1, ⟨0, 0⟩, 1, List.replicate 18 0⟩)).WellFormed := by
  decide +kernel

theorem witness_EncodeDecode : decode longestPacket = .ok (.echo (List.replicate 250 0)) := by
  decide +kernel

theorem witness_DecodedIsWellFormed : longestPacket.length ≤ 253 ∧ decode longestPacket = .ok (.echo (List.replicate 250 0)) :=
  by decide +kernel

theorem witness_StepRunsDecodedInstruction :
    (holding (.echo [0xAB])).Runs ∧ (holding (.echo [0xAB])).seq = .dispatch ∧
      decode (holding (.echo [0xAB])).packet = .ok (.echo [0xAB]) := ⟨by decide, rfl, rfl⟩

theorem witness_ShortestPacketIsSilent :
    (ready.putCmd []).Runs ∧ (ready.putCmd []).seq = .dispatch ∧ (ready.putCmd []).packet.length = 0 ∧ (ready.putCmd [0x01]).Runs ∧
      (ready.putCmd [0x01]).seq = .dispatch ∧ (ready.putCmd [0x01]).packet.length = 1 := by decide +kernel

/-- A transmission in progress, with `rst` about to be sampled 1. -/
def dying : State := { at_ .transmit with gate := true, rspValid := true, env := { Env.init with rst := [true] } }

theorem witness_ResetTakesTableValues :
    dying.rstNow = true ∧ { ready with nv := dying.nv, env := dying.env }.nv = dying.nv ∧
      { ready with nv := dying.nv, env := dying.env }.env = dying.env := ⟨by decide, rfl, rfl⟩

theorem witness_LoadMovesImage : (at_ .load).Runs ∧ (at_ .load).seq = .load ∧ false ∉ (at_ .load).env.store.take 16 := by decide

theorem witness_DelayReturnsToCapture : (at_ .delay).Runs ∧ (at_ .delay).seq = .delay := by decide

/-- A card that listens, one byte short of overflow: it meets the invariant. -/
def listening : State :=
  { at_ .capture with nCap := 527, env := { Env.init with samples := [0x55], elogReset := card.elog } }

theorem witness_StepKeepsInv : listening.Inv ∧ (after (step listening)).isSome = true := by
  refine ⟨⟨?_, nofun, nofun, ?_, ?_, .inl rfl, nofun, ?_, nofun, nofun, nofun, nofun, ?_, ?_, fun _ => ?_, ?_⟩, ?_⟩
  · decide +kernel
  · decide +kernel
  · decide +kernel
  · decide +kernel
  · unfold Memory.ok; decide +kernel
  · unfold Memory.ok; decide +kernel
  · unfold State.Agree; decide +kernel
  · decide +kernel
  · decide +kernel

theorem witness_NothingTraps : listening.Inv := witness_StepKeepsInv.1

/-- A card in each phase, with something to do. -/
def busy : Seq → State
  | .load => at_ .load
  | .capture => listening
  | .sync => windowed .sync pollFrame 0 0 false
  | .assemble => windowed .assemble pollFrame 12 0 false
  | .dispatch => holding (.reqrsp (.full idm []))
  | .transmit => { at_ .transmit with tx := some [.gateOn], rspValid := true }
  | .delay => at_ .delay

theorem witness_PhaseTransitions (q : Seq) :
    (busy q).Runs ∧ (busy q).seq = q ∧ (busy q).NoReset ∧ (after (step (busy q))).isSome = true := by
  cases q <;> decide +kernel

/-- In each phase, what `OneWriterPerRegister` and `EnvironmentUse` speak of does change. -/
theorem witness_OneWriterPerRegister :
    (after (step (busy .capture))).map (fun t => (decide (t.buf ≠ listening.buf), t.nCap)) = some (true, 0) ∧
    (after (step (busy .sync))).map (fun t => (t.off, t.ph, t.pol)) = some (12, 0, false) ∧
    (after (step (busy .assemble))).map (fun t => (t.nDec, t.cmdLen, t.crc)) = some (8, 6, 0x3A10) ∧
    (after (step (busy .dispatch))).map (fun t => (t.rspValid, t.rsp.at 0)) = some (true, 11) ∧
    (after (step (busy .transmit))).map (fun t => t.gate) = some true := by decide +kernel

theorem witness_EnvironmentUse :
    (after (step listening)).map (fun t => (t.env.samples, t.env.diags)) = some ([], [1]) ∧
    (after (step { at_ .transmit with tx := some [.emit 0x55], gate := true })).map (fun t => t.env.sent) =
      some [⟨true, 0x55⟩] := by decide +kernel

/-- A Write of block 0 and a Read of an unmapped block, in the command register. -/
def writing : State := holding (.write (.full idm ⟨1, ⟨0, 0⟩, 1, [0x80, 0x00] ++ List.replicate 16 0x77⟩))
def failing : State := holding (.read (.full idm ⟨1, ⟨0x0F, 0x0F⟩, 1, [0x80, 0x89]⟩))

theorem witness_CardAndImageWriters :
    writing.Runs ∧ failing.Runs ∧ (at_ .load).Runs ∧
    (after (step writing)).map (fun t => decide (t.nv ≠ writing.nv)) = some true ∧
    (after (step failing)).map (fun t => decide (t.cs ≠ failing.cs)) = some true ∧
    (after (step { at_ .load with nv := NvImage.init })).map (fun t => decide (t.cs ≠ card)) = some true := by decide +kernel

theorem witness_EveryCommandAnswersOrIsSilent : ready.StoreAnswers := by decide

theorem witness_AddressedReplyHeader :
    ready.rspValid = false ∧ (after (exec (.reqrsp (.full idm [])) ready)).map State.rspValid = some true := by decide +kernel

/-- The same packet and Card State as `holding`, other registers different. -/
def disturbed (i : Instr) : State :=
  { holding i with rsp := Sized.fill _ 0xEE, buf := Sized.fill _ 0xEE, crc := 0xEEEE, nCap := 9, off := 3 }

theorem witness_CommandsAreStateless :
    (holding (.reqrsp (.full idm []))).cs = (disturbed (.reqrsp (.full idm []))).cs ∧
    (holding (.reqrsp (.full idm []))).Holds (.reqrsp (.full idm [])) ∧
    (disturbed (.reqrsp (.full idm []))).Holds (.reqrsp (.full idm [])) ∧
    (holding (.reqrsp (.full idm []))).StoreAnswers ∧ (disturbed (.reqrsp (.full idm []))).StoreAnswers ∧
    (after (exec (.reqrsp (.full idm [])) (holding (.reqrsp (.full idm []))))).isSome = true ∧
    (after (exec (.reqrsp (.full idm [])) (disturbed (.reqrsp (.full idm []))))).isSome = true := by decide +kernel

/-- A card in CAPTURE with a window length and samples to come. -/
def capturing (n : Nat) (samples : List Byte) : State := { at_ .capture with nCap := n, env := { Env.init with samples := samples } }

theorem witness_CaptureTakesOneSample :
    (capturing 0 []).Runs ∧ (capturing 0 []).env.samples = [] ∧
    (capturing 15 [0x00]).Runs ∧ (capturing 16 [0xFF]).Runs ∧ (capturing 526 [0x55]).Runs ∧ (capturing 527 [0x55]).Runs ∧
    (capturing 527 [0x55]).seq = .capture ∧ (capturing 527 [0x55]).env.samples = 0x55 :: [] := by decide

theorem witness_CaptureFillsWindow :
    (capturing 0 (([0x00] ++ List.replicate 16 0x55) ++ 0xFF :: [])).NoReset ∧
    (∀ b ∈ [(0xFF : Byte), 0x00], b = 0x00 ∨ b = 0xFF) ∧ (∀ b ∈ List.replicate 527 (0x55 : Byte), b ≠ 0x00 ∧ b ≠ 0xFF) ∧
    16 ≤ (List.replicate 16 (0x55 : Byte)).length ∧ (List.replicate 527 (0x55 : Byte)).length < 528 := by
  refine ⟨by decide, by decide, fun b hb => ?_, by decide +kernel, by decide +kernel⟩
  rw [List.eq_of_mem_replicate hb]
  decide

theorem witness_CaptureOverflows :
    (capturing 0 (List.replicate 528 0x55 ++ [0x12])).NoReset ∧ (capturing 0 (List.replicate 528 0x55 ++ [0x12])).waiting = false ∧
    (∀ b ∈ List.replicate 528 (0x55 : Byte), b ≠ 0x00 ∧ b ≠ 0xFF) ∧ (List.replicate 528 (0x55 : Byte)).length = 528 := by
  refine ⟨by decide, rfl, fun b hb => ?_, by decide +kernel⟩
  rw [List.eq_of_mem_replicate hb]
  decide

theorem witness_SyncReportsFirstMatch :
    (windowed .sync pollFrame 0 0 false).Runs ∧ HasSync (windowed .sync pollFrame 0 0 false).window 12 0 false ∧
    (∀ j, j < 12 → ∀ (q : Fin 8) (pol : Bool), ¬ HasSync (windowed .sync pollFrame 0 0 false).window j q pol) ∧
    HasSync (windowed .sync [0x65, 0xA6] 0 0 false).window 0 0 true ∧
    (∀ i, i + 1 < (windowed .sync [0x9A] 0 0 false).window.length → ∀ (p : Fin 8) (pol : Bool),
      ¬ HasSync (windowed .sync [0x9A] 0 0 false).window i p pol) := by
  unfold HasSync
  refine ⟨by decide, by decide +kernel, by decide +kernel, by decide +kernel, fun i hi => ?_⟩
  rw [show (windowed .sync [0x9A] 0 0 false).window.length = 1 by decide +kernel] at hi
  omega

theorem witness_ExtractorInvertsLineCode :
    (0x5569FF : BitVec 24).extractLsb' (8 - (0 : Fin 8).val) 16 =
        Params.symbolTable.getD ((0x06 : Byte).toNat / 16) 0 ++ Params.symbolTable.getD ((0x06 : Byte).toNat % 16) 0 ∧
      (0x00AAD2 : BitVec 24).extractLsb' (8 - (7 : Fin 8).val) 16 =
        Params.symbolTable.getD ((0x06 : Byte).toNat / 16) 0 ++ Params.symbolTable.getD ((0x06 : Byte).toNat % 16) 0 := by
  decide

theorem witness_AssemblerDecodesWindow : 0 < (decodeWindow 7 true [0x4C, 0xAA, 0xD2]).length := by decide +kernel

/-- Decoded bytes after the sync code: none; a length of 254; one byte too few; a wrong trailer; the two trailers that pass. -/
def assembling (frame : List Byte) : State := windowed .assemble (pollFrame.take 16 ++ frame) 12 0 false

def decodedOf (s : State) : List Byte := decodeWindow s.ph s.pol (s.window.drop (s.off + 4))

theorem witness_AssemblerRejects :
    (assembling []).Runs ∧ decodedOf (assembling []) = [] ∧
    (decodedOf (assembling [0xAA, 0xA9])).headD 0 = 0xFE ∧
    decodedOf (assembling [0x55, 0x56, 0x56, 0x55]) = [0x01, 0x10] ∧
    decodedOf (assembling [0x55, 0x56, 0x56, 0x55, 0x59, 0x59]) = [0x01, 0x10, 0x22] ∧
    wordAt [0x01, 0x10, 0x22] 1 ≠ crc16 [0x01] ∧ wordAt [0x01, 0x10, 0x22] 1 ≠ crc16 [0x01] ^^^ 1 := by decide +kernel

theorem witness_AssemblerAccepts :
    (assembling [0x55, 0x56, 0x56, 0x55, 0x59, 0x56]).Runs ∧
    decodedOf (assembling [0x55, 0x56, 0x56, 0x55, 0x59, 0x56]) = [0x01, 0x10, 0x21] ∧
    wordAt [0x01, 0x10, 0x21] 1 = crc16 [0x01] ∧ wordAt [0x01, 0x10, 0x20] 1 = crc16 [0x01] ^^^ 1 ∧
    wordAt [0x00, 0x00, 0x00] 0 = crc16 [] := by decide +kernel

/-- A card about to send the response 02 F0. -/
def sending : State := { at_ .transmit with rspValid := true, rsp := (at_ .transmit).rsp.overlay 0 [0x02, 0xF0] }

theorem witness_TransmissionTrace :
    sending.seq = .transmit ∧ sending.tx = none ∧ sending.gate = false ∧ sending.waiting = false ∧ sending.NoReset ∧
      false ∉ sending.env.sink ∧ sending.response = [0x02, 0xF0] := by decide +kernel

/-- A card in CAPTURE that will receive a packet at phase 7, inverted, in an idle line at 1. -/
def receiving (packet : List Byte) : State := capturing 0 (onAir 2 7 true true packet ++ [0xFF])

theorem witness_ReceiveInvertsSend :
    (receiving []).seq = .capture ∧ (receiving []).nCap = 0 ∧ (receiving []).waiting = false ∧ (receiving []).NoReset ∧
    longestPacket.length ≤ 253 ∧ (longestPacket.headD 0).toNat = longestPacket.length ∧
    (receiving longestPacket).env.samples = onAir 2 7 true true longestPacket ++ [0xFF] :=
  ⟨rfl, rfl, rfl, by decide, by decide +kernel, by decide +kernel, rfl⟩

theorem witness_EchoRoundTrip :
    (receiving []).tx = none ∧ (receiving []).gate = false ∧ false ∉ (receiving []).env.sink ∧ (Instr.echo []).WellFormed ∧
    (receiving (encode (.echo []))).env.samples = onAir 2 7 true true (encode (.echo [])) ++ [0xFF] :=
  ⟨rfl, rfl, by decide, by decide, rfl⟩

theorem witness_PollingReply :
    SlotChosen card.sys ⟨0xFF, 0xFF⟩ 0 ∧ SlotChosen card.sys ⟨0x88, 0xFF⟩ 1 ∧ SlotChosen card.sys ⟨0x12, 0xFC⟩ 0 := by
  unfold SlotChosen EntryMatches; decide +kernel

theorem witness_PollingSilences :
    (∀ slot, ¬ SlotChosen card.sys ⟨0x00, 0x00⟩ slot) ∧ 2 < (0x03 : Byte).toNat := by
  refine ⟨fun slot => ?_, by decide⟩
  rintro (⟨h, -⟩ | ⟨-, h, hm, -⟩)
  · exact absurd h (by decide)
  · have h2 : slot < 2 := h
    have : slot = 0 ∨ slot = 1 := by omega
    rcases this with rfl | rfl <;> revert hm <;> unfold EntryMatches <;> decide +kernel

theorem witness_PollingNeverLocksOut :
    (0x02 : Byte).toNat ≤ 2 ∧ 2 < (0x03 : Byte).toNat ∧ { ready with cs := { card with sys := emptyTable } }.cs.sys.activeLen = 0 ∧
      (⟨0x12, 0xFF⟩ : Code) ≠ ⟨0xFF, 0xFF⟩ := by decide +kernel

theorem witness_EchoReply :
    (Instr.echo []).WellFormed ∧ (holding (.echo [])).Holds (.echo []) ∧
      (holding (.echo (List.replicate 250 0))).Holds (.echo (List.replicate 250 0)) := by decide +kernel

/-- The base card is addressed by its IDm at any high nibble, and not by another card's or by none. -/
theorem witness_addressed :
    ready.AddressedBy idm ∧ ready.AddressedBy (Bytes.ofList 8 [0xF1, 0x02, 0x03, 0x04, 0x05, 0x06, 0x07, 0x08]) := by decide +kernel

theorem witness_RequestResponseReply : ready.AddressedBy idm := witness_addressed.1
theorem witness_UnansweredCommands : ready.AddressedBy idm := witness_addressed.1
theorem witness_TooShortReadOrWriteIsSilent : ready.AddressedBy idm := witness_addressed.1
theorem witness_RequestServiceReply : ready.AddressedBy idm := witness_addressed.1
theorem witness_SearchServiceCodeReply : ready.AddressedBy idm := witness_addressed.1
theorem witness_RequestSystemCodeReply : ready.AddressedBy idm := witness_addressed.1

theorem witness_OtherCardsCommandIsSilent :
    ready.NotAddressedBy (.full otherIdm [] : Addressed (List Byte)) ∧ ready.NotAddressedBy (.noIdm [] : Addressed ReadOps) := by
  refine ⟨fun i h => ?_, fun i h => by cases h⟩
  cases h
  decide +kernel

theorem witness_SentinelNeverMatches :
    card.svc.activeLen = 2 ∧ selectSlot card.sys ⟨0x88, 0xFF⟩ = some 1 := by decide +kernel

theorem witness_BlockReadMap :
    (0x0B : Byte).toNat < 12 ∧ 12 ≤ (0x0C : Byte).toNat ∧ (0x0F : Byte).toNat ≤ 15 ∧ 16 ≤ (0x10 : Byte).toNat ∧
      (0x80 : Byte).toNat ≤ 0x80 ∧ 0x89 ≤ (0x89 : Byte).toNat ∧ (0xDF : Byte).toNat ≤ 0xDF ∧ 0xE2 ≤ (0xFF : Byte).toNat := by
  decide

theorem witness_BlockWriteMap : ¬ Writable 0x0C 1 ∧ ¬ Writable 0x83 2 ∧ Writable 0x83 1 ∧ Writable 0x0B 12 := by
  unfold Writable AlwaysWritable; decide

/-- Twelve elements, the most a command may carry, of both forms. -/
def twelve : List BlockElement := List.replicate 11 (.short 0x00) ++ [.long 0x01]

theorem witness_ReadReply :
    Resolves card.svc ⟨0x0B, 0x00⟩ ∧ Resolves card.svc ⟨0xFF, 0xFF⟩ ∧ CountOk 12 ∧ CountOk 1 ∧
      twelve.length = (12 : Byte).toNat ∧
      twelve.map (fun e => memRead ready.cs e.number) =
        (List.replicate 11 (Sized.fill 16 0xA0 : Block) ++ [(Sized.fill 16 0x10 : Block)]).map some := by
  refine ⟨.inr ⟨1, by decide +kernel, by decide +kernel⟩, .inl rfl, ?_, ?_, by decide, by decide +kernel⟩ <;> unfold CountOk <;> decide

/-- A leading byte that no element has. -/
theorem not_startsWithList (n : Nat) (rest : List Byte) : ¬ StartsWithList (n + 1) (0x81 :: rest) := by
  rintro ⟨es, r, hn, h⟩
  cases es with
  | nil => simp at hn
  | cons e es => cases e <;> simp [listBytes, BlockElement.bytes] at h

theorem not_resolves : ¬ Resolves card.svc ⟨0x09, 0x00⟩ := by
  rintro (h | ⟨i, hi, h⟩)
  · exact absurd h (by decide)
  · have h2 : i < 2 := hi
    have : i = 0 ∨ i = 1 := by omega
    rcases this with rfl | rfl <;> revert h <;> decide +kernel

theorem witness_ReadFailureReply :
    ReadFailure card ⟨0, ⟨0x0F, 0x0F⟩, 1, [0x80, 0x00]⟩ 0xA1 ∧ ReadFailure card ⟨1, ⟨0x09, 0x00⟩, 1, [0x80, 0x00]⟩ 0xA6 ∧
    ReadFailure card ⟨1, ⟨0xFF, 0xFF⟩, 0, [0x80, 0x00]⟩ 0xA2 ∧ ReadFailure card ⟨1, ⟨0xFF, 0xFF⟩, 13, [0x80, 0x00]⟩ 0xA2 ∧
    ReadFailure card ⟨1, ⟨0xFF, 0xFF⟩, 1, [0x81, 0x00]⟩ 0xA6 ∧ ReadFailure card ⟨1, ⟨0xFF, 0xFF⟩, 1, [0x80, 0x10]⟩ 0xA8 := by
  have hr : Resolves card.svc ⟨0xFF, 0xFF⟩ := .inl rfl
  have h1 : CountOk 1 := by unfold CountOk; decide
  have h0 : ¬ CountOk 0 := by unfold CountOk; decide
  have h13 : ¬ CountOk 13 := by unfold CountOk; decide
  refine ⟨.inl ⟨by decide, rfl⟩, .inr (.inl ⟨rfl, not_resolves, rfl⟩), .inr (.inr (.inl ⟨rfl, hr, h0, rfl⟩)),
    .inr (.inr (.inl ⟨rfl, hr, h13, rfl⟩)), .inr (.inr (.inr (.inl ⟨rfl, hr, h1, not_startsWithList 0 _, rfl⟩))),
    .inr (.inr (.inr (.inr ⟨rfl, hr, h1, ⟨[.short 0x10], [], rfl, rfl, .short 0x10, by simp, by decide +kernel⟩, rfl⟩)))⟩

theorem witness_ReadIsIdempotent :
    (after (exec (.read (.full idm ⟨1, ⟨0x0F, 0x0F⟩, 1, [0x80, 0x00]⟩)) ready)).map
      (fun t => (t.rspValid, t.seq, decide (t.cs = ready.cs))) = some (true, .transmit, true) ∧ ready.rspValid = false := by
  decide +kernel

theorem witness_WriteBlocksReply :
    ready.AddressedBy idm ∧ ready.StoreAnswers ∧ 1 ≤ twelve.length ∧ twelve.length ≤ 12 ∧
      (List.replicate 12 (Sized.fill 16 0x77) : List Block).length = twelve.length ∧ (∀ e ∈ twelve, AlwaysWritable e.number) ∧
      AlwaysWritable 0x90 := by
  unfold AlwaysWritable; decide +kernel

theorem witness_WriteIdentityAndTables :
    ready.AddressedBy idm ∧ ready.StoreAnswers ∧ (BlockElement.short 0x83).number = 0x83 ∧
      (BlockElement.long 0x84).number = 0x84 ∧ (BlockElement.short 0x85).number = 0x85 := by decide +kernel

theorem witness_WriteFailureReply :
    WriteFailure ⟨2, ⟨0, 0⟩, 1, [0x80, 0x00]⟩ 0xA1 ∧ WriteFailure ⟨1, ⟨0, 0⟩, 0, [0x80, 0x00]⟩ 0xA2 ∧
    WriteFailure ⟨1, ⟨0, 0⟩, 13, [0x80, 0x00]⟩ 0xA2 ∧ WriteFailure ⟨1, ⟨0, 0⟩, 1, [0x81, 0x00]⟩ 0xA6 ∧
    ([0x80, 0x00] ++ List.replicate 17 0 : List Byte) = listBytes [.short 0x00] ++ List.replicate 17 0 ∧
      (List.replicate 17 (0 : Byte)).length ≠ 16 * (1 : Byte).toNat := by
  have h1 : CountOk 1 := by unfold CountOk; decide
  have h0 : ¬ CountOk 0 := by unfold CountOk; decide
  have h13 : ¬ CountOk 13 := by unfold CountOk; decide
  exact ⟨.inl ⟨by decide, rfl⟩, .inr (.inl ⟨rfl, h0, rfl⟩), .inr (.inl ⟨rfl, h13, rfl⟩),
    .inr (.inr ⟨rfl, h1, not_startsWithList 0 _, rfl⟩), rfl, by decide⟩

theorem witness_WriteStopsAtUnwritable :
    (∀ d ∈ [BlockElement.short 0x00], Writable d.number 3) ∧ ¬ Writable (BlockElement.short 0x83).number 3 ∧
      ([BlockElement.short 0x00] ++ BlockElement.short 0x83 :: [.short 0x01]).length = 3 ∧
      ¬ Writable (BlockElement.short 0x0C).number 1 := by
  unfold Writable AlwaysWritable; decide

/-- A card whose `rst` will be 1 after so many boundaries. -/
def failingPower (k : Nat) : State := { ready with env := { Env.init with rst := List.replicate k false ++ true :: [false] } }

theorem witness_WriteCutByPowerLoss :
    (failingPower 0).AddressedBy idm ∧ false ∉ (failingPower 0).env.store ∧ (failingPower 0).env.rst = true :: [false] ∧
    true ∉ [false] ∧ (∀ e ∈ twelve, e.number.toNat < 12) ∧ 10 + 1 < twelve.length ∧
    (failingPower 10).env.rst = List.replicate 10 false ++ true :: [false] := by decide +kernel

/-- A card whose store never answers its call `k`. -/
def failingStore (k : Nat) : State := { ready with env := { Env.init with store := List.replicate k true ++ false :: [] } }

/-- A card that waits, and loses power next. -/
def stuck : State := { ready with waiting := true, env := { Env.init with rst := [true] } }

/-- A card whose sink never takes the next byte, with the gate open. -/
def blocked : State :=
  { at_ .transmit with tx := some [.emit 0x55], gate := true, env := { Env.init with sink := [false] } }

/-- A card in LOAD whose last read is not answered. -/
def starving : State := { at_ .load with env := { Env.init with store := List.replicate 15 true ++ [false] } }

theorem witness_UnansweredCallsWaitForReset :
    (stuck.waiting = true ∧ stuck.rstNow = true ∧ { stuck with env := Env.init }.NoReset) ∧
    ((at_ .capture).waiting = false ∧ (at_ .capture).NoReset ∧ (at_ .capture).env.samples = []) ∧
    (starving.Runs ∧ starving.seq = .load ∧ false ∈ starving.env.store.take 16) ∧
    (blocked.Runs ∧ blocked.seq = .transmit ∧ blocked.tx = some (.emit 0x55 :: []) ∧ blocked.env.sink = false :: []) ∧
    (failingStore 0).AddressedBy idm ∧ (failingStore 0).NoReset ∧ (failingStore 0).seq = .dispatch ∧
    (failingStore 0).rspValid = false ∧ (failingStore 0).env.store = false :: [] ∧
    (failingStore 1).env.store = true :: false :: [] ∧ (BlockElement.short 0x83).number = 0x83 ∧ 11 < twelve.length ∧
    (failingStore 11).env.store = List.replicate 11 true ++ false :: [] := by decide +kernel

end Sys2Proof.Tests
end

/-! Bits, bytes and the line code: the channel as streams of samples. -/

namespace Sys2Proof.Machine

/-! ### Bits and bytes -/

theorem bitsOf_append (xs ys : List Byte) : bitsOf (xs ++ ys) = bitsOf xs ++ bitsOf ys := List.flatMap_append

theorem bitsOf_cons (b : Byte) (bs : List Byte) : bitsOf (b :: bs) = bitsOf [b] ++ bitsOf bs := bitsOf_append [b] bs

@[simp] theorem length_bitsOf (bs : List Byte) : (bitsOf bs).length = 8 * bs.length := by
  induction bs with
  | nil => rfl
  | cons b bs ih =>
    rw [bitsOf_cons, List.length_append, ih, List.length_cons]
    simp [bitsOf]; omega

theorem bytesOf_of_short {l : List Bool} (h : l.length < 8) : bytesOf l = [] := by
  unfold bytesOf
  split
  · simp at h; omega
  · rfl

/-- Eight bits in front of a stream are a byte in front of its bytes. -/
theorem bytesOf_octet {o : List Bool} (h : o.length = 8) (l : List Bool) : bytesOf (o ++ l) = byteOfBits o :: bytesOf l := by
  match o, h with
  | [_, _, _, _, _, _, _, _], _ => rfl

/-- Induction on a bit stream, a byte's bits at a time: it is shorter than a byte, or eight bits and a stream. -/
theorem octet_induction {P : List Bool → Prop} (short : ∀ l, l.length < 8 → P l)
    (octet : ∀ o l, o.length = 8 → P l → P (o ++ l)) (l : List Bool) : P l := by
  by_cases h : l.length < 8
  · exact short l h
  · rw [← List.take_append_drop 8 l]
    exact octet _ _ (by simp; omega) (octet_induction short octet (l.drop 8))
termination_by l.length
decreasing_by simp; omega

theorem bytesOf_append {a : List Bool} (b : List Bool) (h : 8 ∣ a.length) : bytesOf (a ++ b) = bytesOf a ++ bytesOf b := by
  induction a using octet_induction with
  | short l hl =>
    obtain rfl : l = [] := List.length_eq_zero_iff.mp (Nat.eq_zero_of_dvd_of_lt h hl)
    rfl
  | octet o l ho ih =>
    rw [List.append_assoc, bytesOf_octet ho, bytesOf_octet ho, ih (by simp at h; omega), List.cons_append]

@[simp] theorem length_bytesOf (l : List Bool) : (bytesOf l).length = l.length / 8 := by
  induction l using octet_induction with
  | short l hl => simp [bytesOf_of_short hl, Nat.div_eq_of_lt hl]
  | octet o l ho ih => simp [bytesOf_octet ho, ih, ho]

/-- The bits of a byte made of eight bits are those. -/
theorem bitsOf_byteOfBits {o : List Bool} (h : o.length = 8) : bitsOf [byteOfBits o] = o := by
  match o, h with
  | [b7, b6, b5, b4, b3, b2, b1, b0], _ =>
    revert b7 b6 b5 b4 b3 b2 b1 b0
    decide +kernel

/-- Packing bits into bytes loses only a last part of a byte. -/
theorem bitsOf_bytesOf (l : List Bool) : bitsOf (bytesOf l) = l.take (8 * (l.length / 8)) := by
  induction l using octet_induction with
  | short l hl => simp [bytesOf_of_short hl, Nat.div_eq_of_lt hl, bitsOf]
  | octet o l ho ih =>
    have hlen : 8 * ((o ++ l).length / 8) = o.length + 8 * (l.length / 8) := by simp [ho]; omega
    rw [bytesOf_octet ho, bitsOf_cons, bitsOf_byteOfBits ho, ih, hlen, List.take_length_add_append]

/-- Dropping whole bytes is dropping their bits. -/
theorem drop_bytesOf {l : List Bool} {n : Nat} (h : 8 * n ≤ l.length) : (bytesOf l).drop n = bytesOf (l.drop (8 * n)) := by
  have hl : (l.take (8 * n)).length = 8 * n := by simpa using h
  conv_lhs => rw [← List.take_append_drop (8 * n) l, bytesOf_append _ (by omega)]
  exact List.drop_left' (by simp; omega)

/-- Bits that fill the last byte of a stream add that byte. -/
theorem bytesOf_fill {l t : List Bool} (h : l.length % 8 + t.length = 8) : ∃ b, bytesOf (l ++ t) = bytesOf l ++ [b] := by
  induction l using octet_induction with
  | short l hl =>
    refine ⟨byteOfBits (l ++ t), ?_⟩
    rw [bytesOf_of_short hl, ← List.append_nil (l ++ t), bytesOf_octet (by simp; omega), List.append_nil]
    rfl
  | octet o l ho ih =>
    obtain ⟨b, hb⟩ := ih (by simp at h; omega)
    exact ⟨b, by rw [List.append_assoc, bytesOf_octet ho, bytesOf_octet ho, hb, List.cons_append]⟩

/-- Bit `q` in time order is bit `7 - q % 8` of byte `q / 8` (R13). -/
theorem getD_bitsOf (w : List Byte) (q : Nat) : (bitsOf w).getD q false = (w.getD (q / 8) 0).getLsbD (7 - q % 8) := by
  induction w generalizing q with
  | nil => simp [bitsOf]
  | cons b w ih =>
    rw [bitsOf_cons]
    by_cases hq : q < 8
    · have : ∀ r : Fin 8, (bitsOf [b]).getD r false = b.getLsbD (7 - r) := by
        intro r; fin_cases r <;> rfl
      rw [List.getD_append _ _ _ _ (by simpa using hq), this ⟨q, hq⟩, Nat.div_eq_of_lt hq, Nat.mod_eq_of_lt hq]
      rfl
    · rw [List.getD_append_right _ _ _ _ (by simp; omega), ih]
      have h1 : q / 8 = (q - 8) / 8 + 1 := by omega
      have h2 : (q - 8) % 8 = q % 8 := by omega
      simp [h1, h2]

/-- A bit of the first `n` bytes of a stream is the stream's. -/
theorem getD_bitsOf_take_bytesOf {l : List Bool} {n q : Nat} (hq : q < 8 * n) (hn : 8 * n ≤ l.length) :
    (bitsOf ((bytesOf l).take n)).getD q false = l.getD q false := by
  have hbyte : ((bytesOf l).take n).getD (q / 8) 0 = (bytesOf l).getD (q / 8) 0 := by
    simp only [List.getD_eq_getElem?_getD, List.getElem?_take_of_lt (show q / 8 < n by omega)]
  rw [getD_bitsOf, hbyte, ← getD_bitsOf, bitsOf_bytesOf]
  simp only [List.getD_eq_getElem?_getD, List.getElem?_take_of_lt (show q < 8 * (l.length / 8) by omega)]

/-! ### The line code -/

/-- The two samples of each bit (R197): the bit, then its complement. -/
def manchester (bits : List Bool) : List Bool := bits.flatMap fun b => [b, !b]

@[simp] theorem manchester_nil : manchester [] = [] := rfl
@[simp] theorem manchester_cons (b : Bool) (bits : List Bool) : manchester (b :: bits) = b :: (!b) :: manchester bits := rfl

theorem manchester_append (a b : List Bool) : manchester (a ++ b) = manchester a ++ manchester b := List.flatMap_append

@[simp] theorem length_manchester (bits : List Bool) : (manchester bits).length = 2 * bits.length := by
  induction bits with
  | nil => rfl
  | cons b bits ih => simp [ih]; omega

/-- Complementing the samples of a line code complements its bits. -/
theorem map_xor_manchester (pol : Bool) (bits : List Bool) :
    (manchester bits).map (xor pol) = manchester (bits.map (xor pol)) := by
  induction bits with
  | nil => rfl
  | cons b bits ih => cases pol <;> simp_all

/-- The first sample of each pair is the bit. -/
theorem getD_manchester (bits : List Bool) (k : Nat) : (manchester bits).getD (2 * k) false = bits.getD k false := by
  induction bits generalizing k with
  | nil => simp
  | cons b bits ih =>
    cases k with
    | zero => rfl
    | succ k => simpa [Nat.mul_succ] using ih k

/-- The symbol table is the line code of each nibble (R197). -/
theorem bitsOf_encodeByte : ∀ b : Byte, bitsOf (encodeByte Params.symbolTable b) = manchester (bitsOf [b]) := by
  decide +kernel

/-- The symbol bytes of data are their bits in the line code (R196, R197). -/
theorem bitsOf_symbols (bs : List Byte) :
    bitsOf (bs.flatMap (encodeByte Params.symbolTable)) = manchester (bitsOf bs) := by
  induction bs with
  | nil => rfl
  | cons b bs ih => rw [List.flatMap_cons, bitsOf_append, bitsOf_encodeByte, ih, bitsOf_cons b bs, manchester_append]

/-- In the line code followed by at most six samples, no level stays for the first seven samples, nor for eight anywhere. -/
theorem no_run_in_manchester (bits tail : List Bool) (level : Bool) (ht : tail.length ≤ 6) :
    ¬ List.replicate 7 level <+: manchester bits ++ tail ∧ ¬ List.replicate 8 level <:+: manchester bits ++ tail := by
  induction bits with
  | nil =>
    have short {k : Nat} (hk : 6 < k) : ¬ (List.replicate k level).length ≤ (manchester [] ++ tail).length := by
      simp; omega
    exact ⟨fun h => short (by omega) h.length_le, fun h => short (by omega) h.length_le⟩
  | cons b bits ih =>
    obtain ⟨ihp, ihi⟩ := ih
    refine ⟨?_, ?_⟩
    · cases b <;> cases level <;> simp [List.replicate, List.cons_prefix_cons]
    · rw [manchester_cons, List.cons_append, List.cons_append, List.infix_cons_iff, List.infix_cons_iff]
      rintro (h | h | h)
      · revert h; cases b <;> cases level <;> simp [List.replicate, List.cons_prefix_cons]
      · exact ihp (List.cons_prefix_cons.mp h).2
      · exact ihi h

/-- An idle-line marker is eight equal samples (R140). -/
theorem isMarker_byteOfBits {o : List Bool} (h : o.length = 8) (hm : isMarker (byteOfBits o) = true) :
    ∃ level, o = List.replicate 8 level := by
  match o, h with
  | [b7, b6, b5, b4, b3, b2, b1, b0], _ =>
    revert b7 b6 b5 b4 b3 b2 b1 b0
    decide +kernel

/-- A marker among packed bytes is a run of eight equal samples. -/
theorem run_of_marker {l : List Bool} {b : Byte} (hb : b ∈ bytesOf l) (hm : isMarker b = true) :
    ∃ level, List.replicate 8 level <:+: l := by
  induction l using octet_induction with
  | short l hl => simp [bytesOf_of_short hl] at hb
  | octet o l ho ih =>
    rw [bytesOf_octet ho, List.mem_cons] at hb
    rcases hb with rfl | hb
    · obtain ⟨level, rfl⟩ := isMarker_byteOfBits ho hm
      exact ⟨level, (List.prefix_append _ _).isInfix⟩
    · obtain ⟨level, h⟩ := ih hb
      exact ⟨level, h.trans (List.suffix_append _ _).isInfix⟩

end Sys2Proof.Machine

/-! The extractor and the decoder on a stream of samples. -/

namespace Sys2Proof.Machine

/-! ### The extractor on a bit stream -/

/-- The phase table names the first sample of each bit: sample `p + 2k` of the stream, for `k` in 0..7 (R157). -/
theorem phaseTable_eq : ∀ p : Fin 8, Params.phaseTable.getD p.val [] =
    (List.range 8).map fun k => ((p.val + 2 * k) / 8, (0x80 : Byte) >>> ((p.val + 2 * k) % 8)) := by
  decide +kernel

/-- Masking with `0x80` shifted down by `r` asks for bit `7 - r`. -/
theorem masked_bit : ∀ (b : Byte) (r : Fin 8), (b &&& (0x80 : Byte) >>> r.val != 0) = b.getLsbD (7 - r) := by
  decide +kernel

/-- The source of sample `q` in the table's form is bit `q` of the stream (R156). -/
theorem sourceBit_eq (w : List Byte) (q : Nat) :
    sourceBit w (q / 8, (0x80 : Byte) >>> (q % 8)) = (bitsOf w).getD q false := by
  rw [getD_bitsOf]
  exact masked_bit (w.getD (q / 8) 0) ⟨q % 8, Nat.mod_lt _ (by omega)⟩

/-- The polarity that complements a byte's bits is taken back by the extractor's `0xFF` (R156). -/
theorem byteOfBits_xor : ∀ (b : Byte) (pol : Bool),
    (if pol then byteOfBits ((bitsOf [b]).map (xor pol)) ^^^ 0xFF else byteOfBits ((bitsOf [b]).map (xor pol))) = b := by
  decide +kernel

/-- Where the first samples of eight bits are a byte's bits at the reported polarity, the byte is extracted (R156). -/
theorem extract_eq {w : List Byte} {p : Fin 8} {pol : Bool} {b : Byte}
    (h : ∀ k < 8, (bitsOf w).getD (p.val + 2 * k) false = ((bitsOf [b]).map (xor pol)).getD k false) :
    extract Params.phaseTable w p pol = b := by
  have hbits : (Params.phaseTable.getD p.val []).map (sourceBit w) = (bitsOf [b]).map (xor pol) := by
    rw [phaseTable_eq, List.map_map]
    apply List.ext_getElem
    · simp
    · intro k h1 h2
      have hk : k < 8 := by simpa using h1
      have := h k hk
      rw [List.getD_eq_getElem _ _ h2] at this
      simp only [List.getElem_map, List.getElem_range, Function.comp_apply, sourceBit_eq, this]
  rw [extract, hbits]
  exact byteOfBits_xor b pol

/-! ### The decoder on a bit stream -/

/-- The samples of data bytes at a polarity. -/
def dataSamples (pol : Bool) (bs : List Byte) : List Bool := manchester ((bitsOf bs).map (xor pol))

@[simp] theorem length_dataSamples (pol : Bool) (bs : List Byte) : (dataSamples pol bs).length = 16 * bs.length := by
  simp [dataSamples]; omega

theorem dataSamples_append (pol : Bool) (as bs : List Byte) :
    dataSamples pol (as ++ bs) = dataSamples pol as ++ dataSamples pol bs := by
  simp [dataSamples, bitsOf_append, manchester_append]

theorem dataSamples_cons (pol : Bool) (b : Byte) (bs : List Byte) :
    dataSamples pol (b :: bs) = dataSamples pol [b] ++ dataSamples pol bs := dataSamples_append pol [b] bs

/-- The samples of symbol bytes are those of the data they stand for. -/
theorem map_xor_symbols (pol : Bool) (bs : List Byte) :
    (bitsOf (bs.flatMap (encodeByte Params.symbolTable))).map (xor pol) = dataSamples pol bs := by
  rw [bitsOf_symbols, map_xor_manchester, dataSamples]

theorem need_eq (p : Fin 8) : need p = if p.val < 2 then 2 else 3 := rfl

theorem two_le_need (p : Fin 8) : 2 ≤ need p := by
  rw [need_eq]; split <;> omega

/-- The first data byte behind `p` samples that are skipped. -/
theorem extract_dataSamples {p : Fin 8} {pol : Bool} {skip tail : List Bool} (b : Byte) (hs : skip.length = p.val)
    (hn : 8 * need p ≤ p.val + 16 + tail.length) :
    extract Params.phaseTable ((bytesOf (skip ++ dataSamples pol [b] ++ tail)).take (need p)) p pol = b := by
  apply extract_eq
  intro k hk
  have hq : p.val + 2 * k < 8 * need p := by rw [need_eq]; split <;> omega
  rw [getD_bitsOf_take_bytesOf hq (by simp; omega), List.getD_append _ _ _ _ (by simp; omega),
    List.getD_append_right _ _ _ _ (by omega), hs, Nat.add_sub_cancel_left, dataSamples, getD_manchester]

/-- As long as all source bytes are inside the window, a data byte is decoded (R181). -/
theorem decodeWindow_of_le {p : Fin 8} {w : List Byte} (pol : Bool) (h : need p ≤ w.length) :
    decodeWindow p pol w = extract Params.phaseTable (w.take (need p)) p pol :: decodeWindow p pol (w.drop 2) := by
  have h2 := two_le_need p
  match w, h with
  | [], h => simp at h; omega
  | [_], h => simp at h; omega
  | b0 :: b1 :: rest, h => exact if_pos h

/-- A window shorter than a data byte's source bytes holds none (R181). -/
theorem decodeWindow_of_lt {p : Fin 8} {w : List Byte} (pol : Bool) (h : w.length < need p) :
    decodeWindow p pol w = [] := by
  match w, h with
  | [], _ => rfl
  | [_], _ => rfl
  | b0 :: b1 :: rest, h => exact if_neg (Nat.not_le_of_lt h)

/-- The decoder gives back the data bytes behind `p` samples (R181): the last of them needs a third sample byte from phase 2
on, and what is left over is less than a data byte. -/
theorem decodeWindow_dataSamples {p : Fin 8} {pol : Bool} {skip tail : List Bool} (bs : List Byte)
    (hs : skip.length = p.val) (hn : 8 * need p ≤ p.val + 16 + tail.length) (ht : p.val + tail.length < 16) :
    decodeWindow p pol (bytesOf (skip ++ dataSamples pol bs ++ tail)) = bs := by
  induction bs generalizing skip with
  | nil =>
    have h2 := two_le_need p
    exact decodeWindow_of_lt pol (by simp; omega)
  | cons b bs ih =>
    have hsplit : skip ++ dataSamples pol (b :: bs) ++ tail =
        skip ++ dataSamples pol [b] ++ (dataSamples pol bs ++ tail) := by
      rw [dataSamples_cons]; simp
    have hdrop : (skip ++ dataSamples pol [b] ++ (dataSamples pol bs ++ tail)).drop 16 =
        (skip ++ dataSamples pol [b]).drop 16 ++ dataSamples pol bs ++ tail := by
      rw [List.drop_append_of_le_length (by simp), List.append_assoc]
    rw [hsplit, decodeWindow_of_le pol (by simp; omega), extract_dataSamples b hs (by simp; omega),
      drop_bytesOf (by simp; omega), hdrop, ih (by simp [hs])]

end Sys2Proof.Machine

/-! The wire frame on the air: where its markers are, and the window that Frame Capture gets of it. -/

namespace Sys2Proof.Machine

/-! ### The synchronizer on a longer window -/

/-- The first match in a window is the first match in every longer one. -/
theorem syncScan_append {table : List (Word × Word)} {i : Nat} {w : List Byte} {r : SyncReport} (v : List Byte)
    (h : syncScan table i w = some r) : syncScan table i (w ++ v) = some r := by
  induction w generalizing i with
  | nil => simp [syncScan] at h
  | cons b0 w ih =>
    match w with
    | [] => simp [syncScan] at h
    | b1 :: rest =>
      rw [syncScan] at h
      rw [List.cons_append, List.cons_append, syncScan]
      split at h
      · exact h
      · exact ih h

/-! ### The wire frame on the air -/

/-- The samples of a wire frame that starts `p` samples late in an idle line: the sync header and what follows it. -/
def frameSamples (p : Fin 8) (pol idle : Bool) (body : List Byte) (tail : List Bool) : List Bool :=
  List.replicate p.val idle ++ dataSamples pol (Params.syncHeader ++ body) ++ tail

@[simp] theorem length_frameSamples (p : Fin 8) (pol idle : Bool) (body : List Byte) (tail : List Bool) :
    (frameSamples p pol idle body tail).length = p.val + 128 + 16 * body.length + tail.length := by
  simp [frameSamples, Params.syncHeader]; omega

/-- The delayed wire frame of a packet, as samples. -/
theorem shifted_frameSymbols (p : Fin 8) (pol idle : Bool) (packet : List Byte) (c : Word) :
    shifted p pol idle (frameSymbols packet c) =
      bytesOf (frameSamples p pol idle (packet ++ crcTrailer c) (List.replicate ((8 - p.val) % 8) idle)) := by
  rw [shifted, frameSymbols, map_xor_symbols, frameBytes, frameSamples, List.append_assoc Params.syncHeader]

/-- The idle samples before a frame and the frame's header. -/
def headerSamples (p : Fin 8) (pol idle : Bool) : List Bool :=
  List.replicate p.val idle ++ dataSamples pol Params.syncHeader

@[simp] theorem length_headerSamples (p : Fin 8) (pol idle : Bool) : (headerSamples p pol idle).length = p.val + 128 := by
  simp [headerSamples, Params.syncHeader]

/-- A frame's samples, cut after the first sixteen bytes. -/
theorem frameSamples_eq (p : Fin 8) (pol idle : Bool) (body : List Byte) (tail : List Bool) :
    frameSamples p pol idle body tail = (headerSamples p pol idle).take 128 ++
      ((headerSamples p pol idle).drop 128 ++ dataSamples pol body ++ tail) := by
  rw [← List.append_assoc, ← List.append_assoc, List.take_append_drop, frameSamples, headerSamples, dataSamples_append]
  simp

/-- The first sixteen sample bytes of a frame are the header's (R128). -/
theorem bytesOf_frameSamples (p : Fin 8) (pol idle : Bool) (body : List Byte) (tail : List Bool) :
    bytesOf (frameSamples p pol idle body tail) = bytesOf ((headerSamples p pol idle).take 128) ++
      bytesOf ((headerSamples p pol idle).drop 128 ++ dataSamples pol body ++ tail) := by
  rw [frameSamples_eq, bytesOf_append _ (by simp)]

/-- The header is located at byte 12 (R128), one lower where its first byte is missing. -/
theorem syncScan_header : ∀ (p : Fin 8) (pol idle : Bool),
    syncScan Params.signature 0 (bytesOf ((headerSamples p pol idle).take 128)) = some ⟨12, p, pol⟩ ∧
    syncScan Params.signature 0 ((bytesOf ((headerSamples p pol idle).take 128)).drop 1) = some ⟨11, p, pol⟩ := by
  decide +kernel

/-- The capture windows of a frame: no byte of it is an idle marker, the sync code is found, and the rest decodes. -/
structure Receivable (p : Fin 8) (pol : Bool) (body : List Byte) (off : Nat) (data : List Byte) : Prop where
  unmarked : ∀ b ∈ data, isMarker b = false
  longEnough : 15 + 2 * body.length ≤ data.length
  shortEnough : data.length ≤ 17 + 2 * body.length
  located : syncScan Params.signature 0 data = some ⟨off, p, pol⟩
  offset : off = 12 ∨ p = 7 ∧ off = 11
  decoded : decodeWindow p pol (data.drop (off + 4)) = body

/-- What follows the header's sixteen sample bytes decodes to the frame's data. -/
theorem decodeWindow_frameSamples {p : Fin 8} {pol idle : Bool} {body : List Byte} {tail : List Bool}
    (hn : 8 * need p ≤ p.val + 16 + tail.length) (ht : p.val + tail.length < 16) :
    decodeWindow p pol ((bytesOf (frameSamples p pol idle body tail)).drop 16) = body := by
  rw [bytesOf_frameSamples, List.drop_left' (by simp)]
  exact decodeWindow_dataSamples body (by simp) hn ht

/-- A frame without markers among its sample bytes is a window that can be received. -/
theorem receivable_whole {p : Fin 8} {pol idle : Bool} {body : List Byte} {tail : List Bool}
    (hm : ∀ b ∈ bytesOf (frameSamples p pol idle body tail), isMarker b = false)
    (hn : 8 * need p ≤ p.val + 16 + tail.length) (ht : p.val + tail.length < 16) :
    Receivable p pol body 12 (bytesOf (frameSamples p pol idle body tail)) where
  unmarked := hm
  longEnough := by simp; omega
  shortEnough := by simp; omega
  located := by
    rw [bytesOf_frameSamples]
    exact syncScan_append _ (syncScan_header p pol idle).1
  offset := .inl rfl
  decoded := decodeWindow_frameSamples hn ht

/-- At phase 7 the first sample byte holds one sample of the frame, and can be a marker. -/
theorem receivable_withoutFirst {pol idle : Bool} {body : List Byte} {tail : List Bool}
    (hm : ∀ b ∈ (bytesOf (frameSamples 7 pol idle body tail)).drop 1, isMarker b = false) (ht : tail.length = 1) :
    Receivable 7 pol body 11 ((bytesOf (frameSamples 7 pol idle body tail)).drop 1) where
  unmarked := hm
  longEnough := by simp [ht]; omega
  shortEnough := by simp [ht]; omega
  located := by
    rw [bytesOf_frameSamples, List.drop_append_of_le_length (by simp)]
    exact syncScan_append _ (syncScan_header 7 pol idle).2
  offset := .inr ⟨rfl, rfl⟩
  decoded := by
    rw [List.drop_drop]
    exact decodeWindow_frameSamples (by simp [need_eq, ht]) (by simp [ht])

/-! ### Where the markers are -/

/-- The frame's first sample is the polarity, since the header starts with a 0 bit (R90). -/
theorem dataSamples_frame (pol : Bool) (body : List Byte) :
    ∃ bits, dataSamples pol (Params.syncHeader ++ body) = manchester (pol :: bits) := by
  refine ⟨((bitsOf (Params.syncHeader ++ body)).map (xor pol)).tail, ?_⟩
  cases pol <;> rfl

/-- The samples of a run at the start of a stream are at its level. -/
theorem getElem?_of_run {l : List Bool} {level : Bool} {n i : Nat} (h : List.replicate n level <+: l) (hi : i < n) :
    l[i]? = some level := by
  rw [List.prefix_iff_getElem?.mp h i (by simpa using hi)]
  simp

/-- Idle samples before a frame make no run of eight, unless seven of them stand before a sample of their level. -/
theorem no_run_after_idle {p : Nat} {b idle level : Bool} {bits tail : List Bool} (hp : p ≤ 7) (h7 : p = 7 → idle ≠ b)
    (ht : tail.length ≤ 6) :
    ¬ List.replicate 8 level <:+: List.replicate p idle ++ manchester (b :: bits) ++ tail := by
  induction p with
  | zero => exact (no_run_in_manchester (b :: bits) tail level ht).2
  | succ p ih =>
    rw [List.replicate_succ (n := p), List.cons_append, List.cons_append, List.infix_cons_iff]
    rintro (h | h)
    · have hidle : idle = level := by simpa using getElem?_of_run h (i := 0) (by omega)
      have hfirst : b = level := by simpa [List.getElem?_append] using getElem?_of_run h (i := p + 1) (by omega)
      by_cases h6 : p + 1 = 7
      · exact h7 h6 (hidle.trans hfirst.symm)
      · have hsecond : (!b) = level := by
          simpa [List.getElem?_append] using getElem?_of_run h (i := p + 2) (by omega)
        exact Bool.not_ne_self b (hsecond.trans hfirst.symm)
    · exact ih (by omega) (by omega) h

/-- No byte of a frame's samples is a marker, but the first one at phase 7 (R142). -/
theorem unmarked_frameSamples {p : Fin 8} {pol idle : Bool} {body : List Byte} {tail : List Bool}
    (h7 : p.val = 7 → idle ≠ pol) (ht : tail.length ≤ 6) {b : Byte}
    (hb : b ∈ bytesOf (frameSamples p pol idle body tail)) : isMarker b = false := by
  by_contra hm
  obtain ⟨level, hrun⟩ := run_of_marker hb (by simpa using hm)
  obtain ⟨bits, hbits⟩ := dataSamples_frame pol body
  rw [frameSamples, hbits] at hrun
  exact no_run_after_idle (by omega) h7 ht hrun

/-- At phase 7 no byte after the first one is a marker (R142). -/
theorem unmarked_after_first {pol idle : Bool} {body : List Byte} {tail : List Bool} (ht : tail.length ≤ 6) {b : Byte}
    (hb : b ∈ (bytesOf (frameSamples 7 pol idle body tail)).drop 1) : isMarker b = false := by
  by_contra hm
  rw [drop_bytesOf (by simp; omega)] at hb
  obtain ⟨level, hrun⟩ := run_of_marker hb (by simpa using hm)
  obtain ⟨bits, hbits⟩ := dataSamples_frame pol body
  have hdrop : (frameSamples 7 pol idle body tail).drop (8 * 1) <:+ manchester (pol :: bits) ++ tail := by
    rw [frameSamples, hbits, List.append_assoc]
    exact List.drop_suffix 1 (manchester (pol :: bits) ++ tail)
  exact (no_run_in_manchester (pol :: bits) tail level ht).2 (hrun.trans hdrop.isInfix)

/-- At phase 7 seven idle samples and a first sample of their level make an idle byte. -/
theorem bytesOf_frameSamples_seven (idle : Bool) (body : List Byte) (tail : List Bool) :
    bytesOf (frameSamples 7 idle idle body tail) =
      idleByte idle :: (bytesOf (frameSamples 7 idle idle body tail)).drop 1 := by
  obtain ⟨bits, hbits⟩ := dataSamples_frame idle body
  rw [frameSamples, hbits]
  cases idle <;> rfl

theorem isMarker_idleByte (idle : Bool) : isMarker (idleByte idle) = true := by cases idle <;> rfl

/-- What Frame Capture meets of a wire frame (R142): perhaps a marker, a window that can be received, perhaps a marker. -/
theorem frame_window (p : Fin 8) (pol idle : Bool) (packet : List Byte) (c : Word) :
    ∃ pre data post off, shifted p pol idle (frameSymbols packet c) = pre ++ data ++ post ∧
      (∀ b ∈ pre, isMarker b = true) ∧ (∀ b ∈ post, isMarker b = true) ∧
      Receivable p pol (packet ++ crcTrailer c) off data := by
  rw [shifted_frameSymbols]
  generalize packet ++ crcTrailer c = body
  have hlen : (List.replicate ((8 - p.val) % 8) idle).length = (8 - p.val) % 8 := List.length_replicate
  generalize List.replicate ((8 - p.val) % 8) idle = tail at hlen
  by_cases h7 : p = 7 ∧ pol = idle
  · obtain ⟨rfl, rfl⟩ := h7
    exact ⟨[idleByte pol], _, [], 11, by simpa using bytesOf_frameSamples_seven pol body tail,
      by simp [isMarker_idleByte], by simp,
      receivable_withoutFirst (fun b => unmarked_after_first (by omega)) (by simpa using hlen)⟩
  have h7' : p.val = 7 → idle ≠ pol := fun h hi => h7 ⟨Fin.ext h, hi.symm⟩
  by_cases h1 : p.val = 1
  · obtain ⟨b, hb⟩ := bytesOf_fill (l := frameSamples p pol idle body []) (t := tail) (by simp; omega)
    have hfull : frameSamples p pol idle body [] ++ tail = frameSamples p pol idle body tail := by simp [frameSamples]
    rw [hfull] at hb
    have hcut : ∀ x ∈ bytesOf (frameSamples p pol idle body []), isMarker x = false :=
      fun x => unmarked_frameSamples h7' (by simp)
    cases hm : isMarker b
    · refine ⟨[], _, [], 12, (List.append_nil _).symm, by simp, by simp, receivable_whole ?_ ?_ (by omega)⟩
      · rw [hb]
        rintro x hx
        rcases List.mem_append.mp hx with hx | hx
        · exact hcut x hx
        · rw [List.mem_singleton.mp hx, hm]
      · simp [need_eq, h1]; omega
    · exact ⟨[], _, [b], 12, hb, by simp, by simpa using hm, receivable_whole hcut (by simp [need_eq, h1]) (by simp; omega)⟩
  · refine ⟨[], _, [], 12, (List.append_nil _).symm, by simp, by simp, receivable_whole ?_ ?_ (by omega)⟩
    · exact fun b => unmarked_frameSamples h7' (by omega)
    · rw [need_eq, hlen]; split <;> omega

end Sys2Proof.Machine

/-! Runs, one step of each phase, and the capture of a window. -/

namespace Sys2Proof.Machine

/-! ### Runs -/

/-- A run goes on from the first step's next state. -/
theorem run_of_step {M : Host.Core} {s t : M.State} (h : M.step s = .next t) (k : Nat) : M.run (k + 1) s = M.run k t := by
  simp only [Host.Core.run, h]

/-- A run that ends in a next state has a first step. -/
theorem step_of_run {M : Host.Core} {k : Nat} {s u : M.State} (h : M.run (k + 1) s = .next u) :
    ∃ t, M.step s = .next t ∧ M.run k t = .next u := by
  rw [Host.Core.run] at h
  cases hs : M.step s with
  | next t => exact ⟨t, rfl, by simpa [hs] using h⟩
  | fault r => simp [hs] at h
  | refused r => simp [hs] at h

/-- Runs compose. -/
theorem run_add {M : Host.Core} {k m : Nat} {s t : M.State} (h : M.run k s = .next t) : M.run (k + m) s = M.run m t := by
  induction k generalizing s with
  | zero => cases h; rw [Nat.zero_add]
  | succ k ih =>
    obtain ⟨s', hs, hk⟩ := step_of_run h
    rw [Nat.add_right_comm, run_of_step hs, ih hk]

/-- `k` steps lead from `s` to `t`. -/
def Reaches (k : Nat) (s t : State) : Prop := Host.Core.run Sys2Proof.core k s = .next t

theorem Reaches.refl (s : State) : Reaches 0 s s := rfl

/-- One step, then `k`. -/
theorem Reaches.cons {k : Nat} {s t u : State} (h : step s = .next t) (h' : Reaches k t u) : Reaches (k + 1) s u :=
  (run_of_step (M := Sys2Proof.core) h k).trans h'

theorem Reaches.single {s t : State} (h : step s = .next t) : Reaches 1 s t := .cons h (.refl t)

theorem Reaches.trans {k m : Nat} {s t u : State} (h : Reaches k s t) (h' : Reaches m t u) : Reaches (k + m) s u :=
  (run_add (M := Sys2Proof.core) h).trans h'

/-! ### One step of each phase -/

theorem State.runs_of_noReset {s : State} (hr : s.NoReset) (hw : s.waiting = false) : s.Runs :=
  ⟨by by_contra h; exact hr (State.mem_of_rstNow (by simpa using h)), hw⟩

/-- A CORE that runs passes the boundary and does its phase. -/
theorem step_of_runs {s : State} (h : s.Runs) : step s = runPhase s.passBoundary := by
  obtain ⟨hrst, -⟩ := h
  rw [step, hrst]
  rfl

theorem step_capture {s : State} (h : s.Runs) (hq : s.seq = .capture) : step s = .next (captureStep s.passBoundary) := by
  simp [step_of_runs h, runPhase, h.2, hq]

theorem step_sync {s : State} (h : s.Runs) (hq : s.seq = .sync) : step s = .next (syncStep s.passBoundary) := by
  simp [step_of_runs h, runPhase, h.2, hq]

theorem step_assemble {s : State} (h : s.Runs) (hq : s.seq = .assemble) : step s = .next (assembleStep s.passBoundary) := by
  simp [step_of_runs h, runPhase, h.2, hq]

theorem step_dispatch {s : State} (h : s.Runs) (hq : s.seq = .dispatch) : step s = dispatchStep s.passBoundary := by
  simp [step_of_runs h, runPhase, h.2, hq]

theorem step_transmit {s : State} (h : s.Runs) (hq : s.seq = .transmit) : step s = .next (transmitStep s.passBoundary) := by
  simp [step_of_runs h, runPhase, h.2, hq]

/-! ### Capturing a window -/

/-- The environment with the samples that are left and `k` boundaries passed. -/
def Env.after (e : Env) (samples : List Byte) (k : Nat) : Env := { e with samples := samples, rst := e.rst.drop k }

theorem Env.after_after (e : Env) (a b : List Byte) (j k : Nat) : (e.after a j).after b k = e.after b (j + k) := by
  simp [Env.after]

@[simp] theorem Env.samples_after (e : Env) (a : List Byte) (k : Nat) : (e.after a k).samples = a := rfl

theorem Env.noReset_after {e : Env} (h : true ∉ e.rst) (a : List Byte) (k : Nat) : true ∉ (e.after a k).rst :=
  fun hm => h (List.mem_of_mem_drop hm)

section
variable {s : State} {b : Byte} {rest : List Byte} (h : s.Runs) (hq : s.seq = .capture) (hs : s.env.samples = b :: rest)
include h hq hs

/-- A marker in a short window is dropped (R142). -/
theorem step_capture_drop (hm : isMarker b = true) (hn : s.nCap < 16) :
    step s = .next { s with env := s.env.after rest 1 } := by
  simp [step_capture h hq, captureStep, hs, captureByte, hm, Params.minCapture, Nat.not_le_of_lt hn, State.passBoundary,
    Env.after]

/-- A marker after sixteen bytes or more ends the window (R142). -/
theorem step_capture_end (hm : isMarker b = true) (hn : 16 ≤ s.nCap) :
    step s = .next { s with seq := .sync, env := s.env.after rest 1 } := by
  simp [step_capture h hq, captureStep, hs, captureByte, hm, Params.minCapture, hn, State.passBoundary, Env.after]

/-- Any other byte is stored, as long as the buffer is not full (R142, R144). -/
theorem step_capture_store (hm : isMarker b = false) (hn : s.nCap + 1 < 528) :
    step s = .next
      { s with buf := s.buf.overlay s.nCap [b], nCap := s.nCap + 1, env := s.env.after rest 1 } := by
  simp [step_capture h hq, captureStep, hs, captureByte, hm, Config.capBuf, Nat.ne_of_lt hn, State.passBoundary, Env.after]

end

/-- Markers before a frame are dropped (R142). -/
theorem reaches_skip {s : State} {lead rest : List Byte} (hq : s.seq = .capture) (hn : s.nCap = 0) (hw : s.waiting = false)
    (hr : s.NoReset) (hm : ∀ b ∈ lead, isMarker b = true) (hs : s.env.samples = lead ++ rest) :
    Reaches lead.length s { s with env := s.env.after rest lead.length } := by
  induction lead generalizing s with
  | nil => rw [← show s.env.samples = rest from hs]; exact .refl s
  | cons b lead ih =>
    have hstep := step_capture_drop (State.runs_of_noReset hr hw) hq hs (hm b (by simp)) (by omega)
    have hrest := ih (s := { s with env := s.env.after (lead ++ rest) 1 }) hq hn hw (Env.noReset_after hr _ 1)
      (fun x hx => hm x (by simp [hx])) rfl
    simpa [Env.after_after, Nat.add_comm] using Reaches.cons hstep hrest

/-- Bytes that are no markers are stored (R142). -/
theorem reaches_fill {s : State} {data rest : List Byte} (hq : s.seq = .capture) (hw : s.waiting = false) (hr : s.NoReset)
    (hm : ∀ b ∈ data, isMarker b = false) (hl : s.nCap + data.length < 528) (hs : s.env.samples = data ++ rest) :
    ∃ buf : Bytes Config.capBuf, buf.toList.take (s.nCap + data.length) = s.window ++ data ∧
      Reaches data.length s
        { s with buf := buf, nCap := s.nCap + data.length, env := s.env.after rest data.length } := by
  induction data generalizing s with
  | nil =>
    refine ⟨s.buf, by simp [State.window], ?_⟩
    rw [← show s.env.samples = rest from hs]; exact .refl s
  | cons b data ih =>
    rw [List.length_cons] at hl
    have hstep := step_capture_store (State.runs_of_noReset hr hw) hq hs (hm b (by simp)) (by omega)
    have hwin : (s.buf.overlay s.nCap [b]).toList.take (s.nCap + 1) = s.window ++ [b] := by
      have hlen : s.window.length = s.nCap := by simp [State.window, Config.capBuf]; omega
      have := Sized.take_overlay_append (v := s.buf) (pre := s.window) (xs := [b]) (by rw [hlen]; rfl)
        (by simp [hlen, Config.capBuf]; omega)
      simpa [hlen] using this
    obtain ⟨buf, hbuf, hrest⟩ := ih
      (s := { s with buf := s.buf.overlay s.nCap [b], nCap := s.nCap + 1, env := s.env.after (data ++ rest) 1 })
      hq hw (Env.noReset_after hr _ 1) (fun x hx => hm x (by simp [hx])) (by simp; omega) rfl
    refine ⟨buf, ?_, ?_⟩
    · simpa [State.window, hwin, Nat.add_assoc, Nat.add_comm 1] using hbuf
    · simpa [Env.after_after, Nat.add_assoc, Nat.add_comm 1] using Reaches.cons hstep hrest

/-- From an empty window: idle bytes, the window's bytes, and the marker that ends it (R141 to R143). -/
theorem reaches_sync {s : State} {lead data rest : List Byte} {m : Byte} (hq : s.seq = .capture) (hn : s.nCap = 0)
    (hw : s.waiting = false) (hr : s.NoReset) (hlead : ∀ b ∈ lead, isMarker b = true) (hm : isMarker m = true)
    (hdata : ∀ b ∈ data, isMarker b = false) (h16 : 16 ≤ data.length) (h528 : data.length < 528)
    (hs : s.env.samples = lead ++ data ++ m :: rest) :
    ∃ buf : Bytes Config.capBuf, buf.toList.take data.length = data ∧
      Reaches (lead.length + data.length + 1) s
        { s with seq := .sync, buf := buf, nCap := data.length,
                 env := s.env.after rest (lead.length + data.length + 1) } := by
  have hskip := reaches_skip (rest := data ++ m :: rest) hq hn hw hr hlead (by simpa using hs)
  obtain ⟨buf, hbuf, hfill⟩ := reaches_fill (s := { s with env := s.env.after (data ++ m :: rest) lead.length }) hq hw
    (Env.noReset_after hr _ _) hdata (by simpa [hn] using h528) rfl
  simp only [hn, Nat.zero_add, Env.after_after] at hskip hbuf hfill
  refine ⟨buf, by simpa [State.window, hn] using hbuf, (hskip.trans hfill).trans (.single ?_)⟩
  have hend := step_capture_end
    (s := { s with buf := buf, nCap := data.length, env := s.env.after (m :: rest) (lead.length + data.length) })
    (State.runs_of_noReset (Env.noReset_after hr _ _) hw) hq rfl hm h16
  simpa [Env.after_after] using hend

end Sys2Proof.Machine

/-! The receive path inverts the encoder (R206). -/

namespace Sys2Proof.Machine

/-! ### Receiving a frame -/

@[simp] theorem State.passBoundary_window (s : State) : s.passBoundary.window = s.window := rfl

/-- SYNC takes over the report of a window in which the sync code is found (R125). -/
theorem step_sync_located {s : State} {r : SyncReport} (h : s.Runs) (hq : s.seq = .sync)
    (hl : syncScan Params.signature 0 s.window = some r) :
    step s = .next
      { s with seq := .assemble, off := r.off, ph := r.ph, pol := r.pol, env := s.env.after s.env.samples 1 } := by
  rw [step_sync h hq, syncStep, State.passBoundary_window, hl]
  simp [State.passBoundary, Env.after]

/-- The trailer that the encoder sends is accepted (R172, R183). -/
theorem trailerOk_crcTrailer (x : List Byte) (c : Word) :
    trailerOk c (trailerWord ((x ++ crcTrailer c).getD x.length 0) ((x ++ crcTrailer c).getD (x.length + 1) 0)) = true := by
  simp [trailerOk, trailerWord, crcTrailer, BitVec.extractLsb'_append_extractLsb' (w := 8) (len := 8),
    List.getD_eq_getElem?_getD]

/-- A packet whose first byte is its length, at most 253, is accepted with its own trailer (R182 to R184). So is an empty
packet, since the trailer's first byte, which then is read as the length, is 0. -/
theorem checkFrame_trailer {packet : List Byte} (hl : packet.length ≤ 253)
    (hne : packet ≠ [] → (packet.headD 0).toNat = packet.length) (s : State) :
    checkFrame (packet ++ crcTrailer (crc16 packet)) s =
      { s with crc := crc16 packet, cmd := s.cmd.overlay 0 packet, cmdLen := packet.length, seq := .dispatch } := by
  have hhead : ((packet ++ crcTrailer (crc16 packet)).headD 0).toNat = packet.length := by
    cases packet with
    | nil => decide
    | cons b bs => simpa using hne (by simp)
  have hlen : (packet ++ crcTrailer (crc16 packet)).length = packet.length + 2 := by simp [crcTrailer]
  have hok := trailerOk_crcTrailer packet (crc16 packet)
  have htake : (packet ++ crcTrailer (crc16 packet)).take packet.length = packet := List.take_left
  generalize packet ++ crcTrailer (crc16 packet) = d at *
  rcases checkFrame_cases d s with ⟨h, -⟩ | ⟨l, rest, rfl, -, -, ⟨hbad, -⟩ | ⟨-, h⟩⟩
  · rcases h with rfl | h | h
    · simp at hlen
    · omega
    · omega
  · have hl' : l.toNat = packet.length := hhead
    rw [hl', htake, hok] at hbad
    cases hbad
  · have hl' : l.toNat = packet.length := hhead
    rw [h, hl', htake]

/-- ASSEMBLE delivers a window that decodes to a packet and its trailer (R184). -/
theorem step_assemble_accepts {s : State} {packet : List Byte} (h : s.Runs) (hq : s.seq = .assemble)
    (hl : packet.length ≤ 253) (hne : packet ≠ [] → (packet.headD 0).toNat = packet.length)
    (hd : decodeWindow s.ph s.pol (s.window.drop (s.off + 4)) = packet ++ crcTrailer (crc16 packet)) :
    step s = .next
      { s with seq := .dispatch, dec := s.dec.overlay 0 (packet ++ crcTrailer (crc16 packet)), nDec := packet.length + 2,
               crc := crc16 packet, cmd := s.cmd.overlay 0 packet, cmdLen := packet.length,
               env := s.env.after s.env.samples 1 } := by
  rw [step_assemble h hq, assembleStep]
  simp only [State.passBoundary_ph, State.passBoundary_pol, State.passBoundary_off, State.passBoundary_window, hd,
    checkFrame_trailer hl hne]
  simp [State.passBoundary, Env.after, crcTrailer]

/-- From a window that can be received, SYNC and ASSEMBLE deliver the packet (R125, R181 to R184). -/
theorem reaches_dispatch {s : State} {p : Fin 8} {pol : Bool} {packet : List Byte} {off : Nat} (hq : s.seq = .sync)
    (hw : s.waiting = false) (hr : s.NoReset) (hl : packet.length ≤ 253)
    (hne : packet ≠ [] → (packet.headD 0).toNat = packet.length)
    (hrec : Receivable p pol (packet ++ crcTrailer (crc16 packet)) off s.window) :
    Reaches 2 s
      { s with seq := .dispatch, off := off, ph := p, pol := pol,
               dec := s.dec.overlay 0 (packet ++ crcTrailer (crc16 packet)), nDec := packet.length + 2,
               crc := crc16 packet, cmd := s.cmd.overlay 0 packet, cmdLen := packet.length,
               env := s.env.after s.env.samples 2 } := by
  have hsync := step_sync_located (State.runs_of_noReset hr hw) hq hrec.located
  have hassemble := step_assemble_accepts
    (s := { s with seq := .assemble, off := off, ph := p, pol := pol, env := s.env.after s.env.samples 1 })
    (State.runs_of_noReset (Env.noReset_after hr _ _) hw) rfl hl hne hrec.decoded
  simpa only [Env.after_after, Env.samples_after] using Reaches.cons hsync (.single hassemble)

/-- What Frame Capture gets of a frame on the air: the window, between markers. -/
theorem onAir_window (lead : Nat) (p : Fin 8) (pol idle : Bool) (packet rest : List Byte) :
    ∃ pre data m rest' off, onAir lead p pol idle packet ++ rest = pre ++ data ++ m :: rest' ∧
      (∀ b ∈ pre, isMarker b = true) ∧ isMarker m = true ∧ rest <:+ rest' ∧
      Receivable p pol (packet ++ crcTrailer (crc16 packet)) off data := by
  obtain ⟨pre, data, post, off, hsh, hpre, hpost, hrec⟩ := frame_window p pol idle packet (crc16 packet)
  have hlead : ∀ b ∈ List.replicate lead (idleByte idle) ++ pre, isMarker b = true := by
    intro b hb
    rcases List.mem_append.mp hb with hb | hb
    · rw [List.eq_of_mem_replicate hb, isMarker_idleByte]
    · exact hpre b hb
  cases post with
  | nil =>
    exact ⟨_, data, idleByte idle, rest, off, by simp [onAir, hsh], hlead, isMarker_idleByte idle, List.suffix_refl _, hrec⟩
  | cons m post =>
    exact ⟨_, data, m, post ++ idleByte idle :: rest, off, by simp [onAir, hsh], hlead, hpost m (by simp),
      ⟨post ++ [idleByte idle], by simp⟩, hrec⟩

/-- The receive path inverts the encoder (R206): the wire frame of a packet, at any phase, polarity and idle level, is
delivered as the command packet, with nothing else touched than what the four phases write. -/
theorem receive_onAir {s : State} {packet rest : List Byte} {lead : Nat} {p : Fin 8} {pol idle : Bool}
    (hq : s.seq = .capture) (hn : s.nCap = 0) (hw : s.waiting = false) (hr : s.NoReset) (hl : packet.length ≤ 253)
    (hne : packet ≠ [] → (packet.headD 0).toNat = packet.length)
    (hs : s.env.samples = onAir lead p pol idle packet ++ rest) :
    ∃ k buf nCap off dec nDec cmd samples,
      Reaches k s
        { s with
          seq := .dispatch, buf := buf, nCap := nCap, off := off, ph := p, pol := pol, dec := dec, nDec := nDec,
          crc := crc16 packet, cmd := cmd, cmdLen := packet.length, env := s.env.after samples k } ∧
      cmd.toList.take packet.length = packet ∧ (off = 12 ∨ p = 7 ∧ off = 11) ∧ rest <:+ samples := by
  obtain ⟨pre, data, m, rest', off, hair, hpre, hm, hsuf, hrec⟩ := onAir_window lead p pol idle packet rest
  have hbody : (packet ++ crcTrailer (crc16 packet)).length = packet.length + 2 := by simp [crcTrailer]
  have hlong := hrec.longEnough
  have hshort := hrec.shortEnough
  obtain ⟨buf, hbuf, hcap⟩ := reaches_sync hq hn hw hr hpre hm hrec.unmarked (by omega) (by omega) (hs.trans hair)
  generalize pre.length + data.length + 1 = k at hcap
  have hdispatch := reaches_dispatch (packet := packet) (p := p) (pol := pol) (off := off)
    (s := { s with seq := .sync, buf := buf, nCap := data.length, env := s.env.after rest' k })
    rfl hw (Env.noReset_after hr _ _) hl hne (by simpa only [State.window, hbuf] using hrec)
  simp only [Env.after_after, Env.samples_after] at hdispatch
  exact ⟨k + 2, buf, data.length, off, _, packet.length + 2, s.cmd.overlay 0 packet, rest', hcap.trans hdispatch,
    Sized.take_overlay_zero (by simp [Config.packetBuf]; omega), hrec.offset, hsuf⟩

end Sys2Proof.Machine

/-! One transmission, from the checksum to the gate falling (R195 to R205). -/

namespace Sys2Proof.Machine

/-! ### Sending a frame -/

/-- The environment after symbol bytes were handed over and `k` boundaries passed. -/
def Env.afterSent (e : Env) (symbols : List Emitted) (k : Nat) : Env :=
  { e with rst := e.rst.drop k, sink := e.sink.drop symbols.length, sent := e.sent ++ symbols }

theorem Env.afterSent_zero (e : Env) : e.afterSent [] 0 = e := by simp [Env.afterSent]

theorem Env.afterSent_afterSent (e : Env) (a b : List Emitted) (j k : Nat) :
    (e.afterSent a j).afterSent b k = e.afterSent (a ++ b) (j + k) := by
  simp [Env.afterSent]

theorem Env.noReset_afterSent {e : Env} (h : true ∉ e.rst) (a : List Emitted) (k : Nat) : true ∉ (e.afterSent a k).rst :=
  fun hm => h (List.mem_of_mem_drop hm)

theorem Env.sinkAnswers_afterSent {e : Env} (h : false ∉ e.sink) (a : List Emitted) (k : Nat) :
    false ∉ (e.afterSent a k).sink :=
  fun hm => h (List.mem_of_mem_drop hm)

section
variable {s : State} (h : s.Runs) (hq : s.seq = .transmit)
include h hq

/-- TRANSMIT starts with the checksum of the response (R195). -/
theorem step_transmit_start (ht : s.tx = none) :
    step s = .next
      { s with crc := crc16 s.response, tx := some (txActions s.response (crc16 s.response)),
               env := s.env.afterSent [] 1 } := by
  have hrsp : s.passBoundary.response = s.response := rfl
  simp only [step_transmit h hq, transmitStep, State.passBoundary_tx, ht, hrsp]
  simp [State.passBoundary, Env.afterSent]

/-- A symbol byte is handed over at the gate's level (R51, R375). -/
theorem step_transmit_emit {b : Byte} {rest : List TxAction} (ht : s.tx = some (.emit b :: rest))
    (hs : false ∉ s.env.sink) :
    step s = .next { s with tx := some rest, env := s.env.afterSent [⟨s.gate, b⟩] 1 } := by
  simp [step_transmit h hq, transmitStep, ht, emitSymbol, takeAnswers_of_not_mem hs, State.passBoundary, Env.afterSent]

/-- The gate opens (R199). -/
theorem step_transmit_gateOn {rest : List TxAction} (ht : s.tx = some (.gateOn :: rest)) :
    step s = .next { s with gate := true, tx := some rest, env := s.env.afterSent [] 1 } := by
  simp [step_transmit h hq, transmitStep, ht, State.passBoundary, Env.afterSent]

/-- The gate closes, and the next phase depends on the command (R203, R204). -/
theorem step_transmit_end (ht : s.tx = some []) :
    step s = .next
      { s with gate := false, rspValid := false, tx := none,
               seq := if s.cmd.at 1 = 0x00 then .delay else .capture,
               nCap := if s.cmd.at 1 = 0x00 then s.nCap else 0, env := s.env.afterSent [] 1 } := by
  by_cases hc : s.cmd.at 1 = 0#8 <;>
    simp [step_transmit h hq, transmitStep, ht, endTransmit, hc, State.enterCapture, State.passBoundary, Env.afterSent]

end

/-- `s` in a transmission: the actions left, what was handed over, and `k` boundaries passed. -/
def State.sending (s : State) (c : Word) (gate : Bool) (tx : List TxAction) (sent : List Emitted) (k : Nat) : State :=
  { s with crc := c, gate := gate, tx := some tx, env := s.env.afterSent sent k }

section
variable {s : State} {c : Word} {gate : Bool} {sent : List Emitted} {k : Nat}

theorem State.sending_runs (hw : s.waiting = false) (hr : s.NoReset) (tx : List TxAction) :
    (s.sending c gate tx sent k).Runs :=
  State.runs_of_noReset (Env.noReset_afterSent hr sent k) hw

variable (hq : s.seq = .transmit) (hw : s.waiting = false) (hr : s.NoReset)
include hq hw hr

theorem reaches_sending_start (ht : s.tx = none) :
    Reaches 1 s (s.sending (crc16 s.response) s.gate (txActions s.response (crc16 s.response)) [] 1) :=
  .single (step_transmit_start (State.runs_of_noReset hr hw) hq ht)

/-- Symbol bytes are handed over one a step, all at the same level of the gate. -/
theorem reaches_sending_emit (symbols : List Byte) (rest : List TxAction) (hs : false ∉ s.env.sink) :
    Reaches symbols.length (s.sending c gate (symbols.map .emit ++ rest) sent k)
      (s.sending c gate rest (sent ++ symbols.map (Emitted.mk gate)) (k + symbols.length)) := by
  induction symbols generalizing sent k with
  | nil => simpa using Reaches.refl _
  | cons b symbols ih =>
    have hstep := step_transmit_emit (s.sending_runs (c := c) (gate := gate) (sent := sent) (k := k) hw hr _) hq
      (b := b) (rest := symbols.map .emit ++ rest) rfl (Env.sinkAnswers_afterSent hs sent k)
    have hrest := ih (sent := sent ++ [⟨gate, b⟩]) (k := k + 1)
    simp only [State.sending, Env.afterSent_afterSent] at hstep hrest ⊢
    simpa [Nat.add_assoc, Nat.add_comm 1] using Reaches.cons hstep hrest

theorem reaches_sending_gateOn (rest : List TxAction) :
    Reaches 1 (s.sending c gate (.gateOn :: rest) sent k) (s.sending c true rest sent (k + 1)) := by
  have hstep := step_transmit_gateOn (s.sending_runs (c := c) (gate := gate) (sent := sent) (k := k) hw hr _) hq
    (rest := rest) rfl
  simpa [State.sending, Env.afterSent_afterSent] using Reaches.single hstep

theorem reaches_sending_end :
    Reaches 1 (s.sending c gate [] sent k)
      { s with
        seq := if s.cmd.at 1 = 0x00 then .delay else .capture
        nCap := if s.cmd.at 1 = 0x00 then s.nCap else 0
        rspValid := false, gate := false, tx := none, crc := c, env := s.env.afterSent sent (k + 1) } := by
  have hstep := step_transmit_end (s.sending_runs (c := c) (gate := gate) (sent := sent) (k := k) hw hr _) hq rfl
  simp only [State.sending, Env.afterSent_afterSent, List.append_nil] at hstep ⊢
  exact .single hstep

/-- One transmission (R195 to R205): the flush at gate 0, the wire frame at gate 1, and the end. -/
theorem reaches_transmitted (ht : s.tx = none) (hg : s.gate = false) (hs : false ∉ s.env.sink) :
    ∃ k, Reaches k s
      { s with
        seq := if s.cmd.at 1 = 0x00 then .delay else .capture
        nCap := if s.cmd.at 1 = 0x00 then s.nCap else 0
        rspValid := false, gate := false, tx := none, crc := crc16 s.response
        env := s.env.afterSent (Params.flush.map (Emitted.mk false) ++
          (frameSymbols s.response (crc16 s.response)).map (Emitted.mk true)) k } := by
  have hstart := reaches_sending_start hq hw hr ht
  have hflush := reaches_sending_emit (c := crc16 s.response) (gate := false) (sent := []) (k := 1) hq hw hr Params.flush
    (.gateOn :: (frameSymbols s.response (crc16 s.response)).map .emit) hs
  have hframe := reaches_sending_emit (c := crc16 s.response) (gate := true) (sent := Params.flush.map (Emitted.mk false))
    (k := 1 + Params.flush.length + 1) hq hw hr (frameSymbols s.response (crc16 s.response)) [] hs
  rw [hg, txActions] at hstart
  rw [List.append_nil] at hframe
  exact ⟨_, (((hstart.trans hflush).trans (reaches_sending_gateOn hq hw hr _)).trans hframe).trans
    (reaches_sending_end hq hw hr)⟩

end

end Sys2Proof.Machine

/-! O36: the Echo round trip. -/

namespace Sys2Proof.Machine

/-! ### Echo -/

/-- The first byte of a packet is its length (R92). -/
theorem headD_encode {i : Instr} (h : (encode i).length ≤ 253) : ((encode i).headD 0).toNat = (encode i).length := by
  simp only [encode, List.length_cons] at h
  simp [encode]; omega

/-- The round trip of the decoder, for Echo (R92, R97). -/
theorem decode_encode_echo {data : List Byte} (h : (Instr.echo data).WellFormed) :
    decode (encode (.echo data)) = .ok (.echo data) := by
  have hbyte : (BitVec.ofNat 8 ((Instr.echo data).body.length + 2)).toNat = (Instr.echo data).body.length + 2 :=
    headD_encode (Laws.EncodedLength.echo data h).2
  rw [encode, decode, if_neg (not_not.mpr hbyte), Laws.RowMatch.echo data h]
  rfl

theorem dispatchStep_of_decode {s : State} {i : Instr} (h : decode s.packet = .ok i) : dispatchStep s = exec i s := by
  rw [dispatchStep, h]

/-- Echo's meaning (R224). -/
theorem exec_echo (data : List Byte) (s : State) : exec (.echo data) s = .next (s.putRsp 0 s.packet).respond := rfl

/-- ECHO in a run (R218, R224): RSP takes the packet, and a response is to be sent. -/
theorem step_dispatch_echo {s : State} {data : List Byte} (h : s.Runs) (hq : s.seq = .dispatch)
    (hwf : (Instr.echo data).WellFormed) (hp : s.Holds (.echo data)) :
    step s = .next
      { s with rsp := s.rsp.overlay 0 (encode (.echo data)), rspValid := true, seq := .transmit,
               env := s.env.after s.env.samples 1 } := by
  have hdec : decode s.passBoundary.packet = .ok (.echo data) := by
    rw [State.passBoundary_packet, hp, decode_encode_echo hwf]
  rw [step_dispatch h hq, dispatchStep_of_decode hdec, exec_echo, State.passBoundary_packet, hp]
  simp [State.putRsp, State.respond, State.passBoundary, Env.after]

/-- A packet written over the start of RSP is the response (R26). -/
theorem response_of_overlay_encode {s : State} {r : Bytes Config.packetBuf} {i : Instr} (h : (encode i).length ≤ 253)
    (hs : s.rsp = r.overlay 0 (encode i)) : s.response = encode i := by
  refine State.response_of_has ?_ (headD_encode h) (by simp [encode])
  rw [hs]
  exact Sized.has_overlay_same (by simp only [Config.packetBuf]; omega)

/-- `CMD[1]` of the packet held is its code (R96). -/
theorem cmd_at_one_of_holds {s : State} {i : Instr} (h : s.Holds i) : s.cmd.at 1 = i.code := by
  have h1 : s.packet[1]? = some i.code := by rw [h]; rfl
  rw [State.packet, List.getElem?_take] at h1
  split at h1
  · rw [Bytes.at_eq_getD, h1]; rfl
  · cases h1

/-- A card that holds an Echo packet sends its wire frame and is ready for the next (R204, R224, R344). -/
theorem reaches_echoed {s : State} {data : List Byte} (hq : s.seq = .dispatch) (ht : s.tx = none) (hg : s.gate = false)
    (hw : s.waiting = false) (hr : s.NoReset) (hs : false ∉ s.env.sink) (hwf : (Instr.echo data).WellFormed)
    (hp : s.Holds (.echo data)) :
    ∃ k, Reaches k s
      { s with
        seq := .capture, nCap := 0, rspValid := false, gate := false, tx := none
        rsp := s.rsp.overlay 0 (encode (.echo data)), crc := crc16 (encode (.echo data))
        env := s.env.afterSent (Params.flush.map (Emitted.mk false) ++
          (frameSymbols (encode (.echo data)) (crc16 (encode (.echo data)))).map (Emitted.mk true)) k } := by
  have hcode : s.cmd.at 1 = 0xF0 := cmd_at_one_of_holds hp
  have hstep := step_dispatch_echo (State.runs_of_noReset hr hw) hq hwf hp
  obtain ⟨k, hsent⟩ := reaches_transmitted
    (s := { s with rsp := s.rsp.overlay 0 (encode (.echo data)), rspValid := true, seq := .transmit,
                   env := s.env.after s.env.samples 1 })
    rfl hw (Env.noReset_after hr _ _) ht hg hs
  rw [response_of_overlay_encode (Laws.EncodedLength.echo data hwf).2 rfl] at hsent
  refine ⟨k + 1, ?_⟩
  simpa [hcode, Env.after, Env.afterSent, Nat.add_comm] using Reaches.cons hstep hsent

/-- Settles O36: the frame is received, dispatched and sent again; each part leaves what the next one needs. -/
theorem echoRoundTrip : Obligations.EchoRoundTrip := by
  intro s data rest lead p pol idle hq hn hw ht hg hr hs hwf hsamples
  have hl := (Laws.EncodedLength.echo data hwf).2
  obtain ⟨k, buf, nCap, off, dec, nDec, cmd, samples, hreceived, hcmd, -, -⟩ :=
    receive_onAir hq hn hw hr hl (fun _ => headD_encode hl) hsamples
  obtain ⟨m, hechoed⟩ := reaches_echoed (data := data)
    (s := { s with
      seq := .dispatch, buf := buf, nCap := nCap, off := off, ph := p, pol := pol, dec := dec, nDec := nDec,
      crc := crc16 (encode (.echo data)), cmd := cmd, cmdLen := (encode (.echo data)).length,
      env := s.env.after samples k })
    rfl ht hg hw (Env.noReset_after hr samples k) hs hwf hcmd
  exact ⟨k + m, _, hreceived.trans hechoed, rfl, rfl, rfl, rfl, rfl, rfl, rfl, (List.append_assoc ..).symm⟩

end Sys2Proof.Machine

/-! One step of the sequencer, and the invariant it keeps (10_state.md R21 to R28, R49). -/

namespace Sys2Proof.Machine

/-! ### One step, whatever the phase -/

theorem step_of_rstNow {s : State} (h : s.rstNow = true) : step s = .next s.passBoundary.powerLoss := by
  rw [step, if_pos h]

theorem step_of_waiting {s : State} (hr : s.rstNow = false) (hw : s.waiting = true) : step s = .next s.passBoundary := by
  rw [step, hr]
  exact if_pos hw

theorem step_load {s : State} (h : s.Runs) (hq : s.seq = .load) : step s = .next (loadStep s.passBoundary) := by
  simp [step_of_runs h, runPhase, h.2, hq]

theorem step_delay {s : State} (h : s.Runs) (hq : s.seq = .delay) : step s = .next (delayStep s.passBoundary) := by
  simp [step_of_runs h, runPhase, h.2, hq]

/-! ### The packet that DISPATCH runs -/

/-- What decodes has a command code, and its first byte is its length (R92). -/
theorem length_of_decode {bytes : List Byte} {i : Instr} (h : decode bytes = .ok i) :
    2 ≤ bytes.length ∧ (bytes.headD 0).toNat = bytes.length := by
  match bytes, h with
  | len :: code :: body, h =>
    rw [decode] at h
    split at h
    · cases h
    · next hl => exact ⟨by simp, by simpa using hl⟩

theorem State.length_packet_le (s : State) : s.packet.length ≤ s.cmdLen := by
  rw [State.packet, List.length_take]
  exact Nat.min_le_left ..

/-! ### Block storage -/

theorem Memory.ok_nil : Memory.ok [] := ⟨Memory.wf_nil, nofun⟩

/-- A block below `N_BLOCKS` is written inside the storage. -/
theorem Memory.ok_writeBlock {m : Memory} (h : m.ok) {b : Nat} (hb : b < Config.nBlocks) (v : Block) :
    (m.writeBlock b v).ok := by
  refine ⟨Memory.wf_writeBlock h.1 b v, fun c hc => ?_⟩
  rcases Memory.mem_writeBlock hc with hc | ⟨-, hc⟩
  · exact h.2 c hc
  · simp only [Config.nBlocks, Config.blockSize] at *
    omega

/-- An update writes the image and the Card State alike (R49, R66). -/
theorem State.Agree.nvUpdate {s : State} (h : s.Agree) (u : NvWrite) : (s.nvUpdate u).Agree := by
  obtain ⟨hidm, hpmm, hsvc, hsys, hblk⟩ := h
  cases u with
  | idm v => exact ⟨rfl, hpmm, hsvc, hsys, hblk⟩
  | pmm v => exact ⟨hidm, rfl, hsvc, hsys, hblk⟩
  | svc t => exact ⟨hidm, hpmm, rfl, hsys, hblk⟩
  | sys t => exact ⟨hidm, hpmm, hsvc, rfl, hblk⟩
  | blk b v => exact ⟨hidm, hpmm, hsvc, hsys, congrArg (Memory.writeBlock · b v) hblk⟩

/-! ### The invariant under the shared operations -/

/-- Reset establishes the invariant, whatever the environment, as long as the image's storage is in form. -/
theorem State.inv_afterReset {nv : NvImage} {env : Env} (h : nv.blk.ok) : (State.afterReset nv env).Inv where
  window := show 0 < Config.capBuf by decide
  captured := nofun
  report := nofun
  offset := show 0 < Config.capBuf by decide
  decodedFits := Nat.zero_le _
  command := .inl rfl
  answered := nofun
  valid := ⟨nofun, nofun⟩
  responseLength := nofun
  gateClosed := nofun
  encoderIdle := fun h => absurd rfl h
  hangs := nofun
  cardBlocks := Memory.ok_nil
  imageBlocks := h
  agree := fun h => absurd rfl h
  secondSlot := rfl

namespace State.Inv

variable {s t : State}

theorem passBoundary (h : s.Inv) : s.passBoundary.Inv := { h with }

theorem powerLoss (h : s.Inv) : s.powerLoss.Inv := State.inv_afterReset h.imageBlocks

/-- A call that is never answered, in one of the three phases that make calls (R374). -/
theorem hang (h : s.Inv) (hq : s.seq = .load ∨ s.seq = .dispatch ∨ s.seq = .transmit) : s.hang.Inv :=
  { h with hangs := fun _ => hq }

/-- Outside TRANSMIT the encoder rests: no response is marked valid, the gate is closed, nothing is left to be sent. -/
theorem encoder_rests (h : s.Inv) (hq : s.seq ≠ .transmit) : s.rspValid = false ∧ s.gate = false ∧ s.tx = none :=
  ⟨Bool.eq_false_iff.mpr fun hv => hq (h.valid.mp hv), Bool.eq_false_iff.mpr fun hg => hq (h.gateClosed hg),
    not_not.mp fun ht => hq (h.encoderIdle ht)⟩

/-- Every phase but TRANSMIT leaves the encoder at rest, so it can go on to another such phase: with a window to search for
SYNC, and with a report inside the window for ASSEMBLE. -/
theorem goTo (h : s.Inv) (hs : s.seq ≠ .transmit) (hw : s.waiting = false) (ha : s.Agree) {q : Seq} {n : Nat}
    (hq : q ≠ .transmit) (hn : n < Config.capBuf) (hc : q = .sync → Params.minCapture ≤ n) (hr : q = .assemble → s.off + 1 < n) :
    ({ s with seq := q, nCap := n } : State).Inv := by
  obtain ⟨hvalid, hgate, htx⟩ := h.encoder_rests hs
  exact { h with
    window := hn
    captured := hc
    report := hr
    answered := fun e => absurd e hq
    valid := iff_of_false (by simp [hvalid]) hq
    responseLength := fun e => absurd e hq
    gateClosed := fun e => by simp [hgate] at e
    encoderIdle := fun e => absurd htx e
    hangs := fun e => by simp [hw] at e
    agree := fun _ => ha }

/-- Every phase but TRANSMIT can end in a new capture (R21, R141). -/
theorem enterCapture (h : s.Inv) (hq : s.seq ≠ .transmit) (hw : s.waiting = false) (ha : s.Agree) : s.enterCapture.Inv :=
  h.goTo hq hw ha (q := .capture) nofun (by decide) nofun nofun

theorem noResponse (h : s.Inv) (hq : s.seq ≠ .transmit) (hw : s.waiting = false) (ha : s.Agree) : s.noResponse.Inv := by
  have hv : s.noResponse = s.enterCapture := by rw [State.noResponse, ← (h.encoder_rests hq).1]
  exact hv ▸ h.enterCapture hq hw ha

/-- A framing failure is a diagnostic and then the same silence (R330). -/
theorem afterFailure (h : s.Inv) (hq : s.seq ≠ .transmit) (hw : s.waiting = false) (ha : s.Agree) (code : DiagCode) :
    (afterFailure s code).Inv :=
  noResponse (s := { s with env := { s.env with diags := s.env.diags ++ [code] } }) { h with } hq hw ha

/-! ### The phases that exchange no command -/

theorem loadStep (h : s.Inv) (hq : s.seq = .load) (hw : s.waiting = false) : (loadStep s).Inv := by
  rcases loadStep_cases s with ⟨store, e⟩ | ⟨store, e⟩ <;> rw [e]
  · exact enterCapture
      (s := { s.loadCard with env := { s.env with store := store } })
      { h with cardBlocks := h.imageBlocks, agree := fun _ => ⟨rfl, rfl, rfl, rfl, rfl⟩ }
      (by simp [hq]) hw ⟨rfl, rfl, rfl, rfl, rfl⟩
  · exact hang (s := { s with env := { s.env with store := store } }) { h with } (.inl hq)

theorem captureStep (h : s.Inv) (hq : s.seq = .capture) (hw : s.waiting = false) : (captureStep s).Inv := by
  have ha : s.Agree := h.agree (by simp [hq])
  have hs : s.seq ≠ .transmit := by simp [hq]
  rcases captureStep_cases s with ⟨-, e⟩ | ⟨b, rest, -, hcase⟩
  · rwa [e]
  have hread : ({ s with env := { s.env with samples := rest } } : State).Inv := { h with }
  have hstore : ({ s with buf := s.buf.overlay s.nCap [b], env := { s.env with samples := rest } } : State).Inv := { h with }
  rcases hcase with ⟨-, hn, e⟩ | ⟨-, -, e⟩ | ⟨-, -, e⟩ | ⟨-, hn, e⟩ <;> rw [e]
  · exact hread.goTo hs hw ha (q := .sync) nofun h.window (fun _ => hn) nofun
  · exact hread
  · exact hstore.afterFailure hs hw ha 1
  · have hfull : s.nCap + 1 < Config.capBuf := Nat.lt_of_le_of_ne h.window hn
    exact { hstore with window := hfull, captured := by simp [hq], report := by simp [hq] }

theorem length_window (h : s.Inv) : s.window.length = s.nCap := by
  rw [State.window, List.length_take, Sized.length_toList]
  exact Nat.min_eq_left h.window.le

theorem syncStep (h : s.Inv) (hq : s.seq = .sync) (hw : s.waiting = false) : (syncStep s).Inv := by
  have ha : s.Agree := h.agree (by simp [hq])
  have hs : s.seq ≠ .transmit := by simp [hq]
  rcases syncStep_cases s with ⟨r, -, hoff, e⟩ | ⟨-, e⟩ <;> rw [e]
  · rw [h.length_window] at hoff
    have hreport : ({ s with off := r.off, ph := r.ph, pol := r.pol } : State).Inv :=
      { h with report := by simp [hq], offset := (Nat.lt_of_succ_lt hoff).trans h.window }
    exact hreport.goTo hs hw ha (q := .assemble) nofun h.window nofun (fun _ => hoff)
  · exact h.afterFailure hs hw ha 2

/-- The decoding of a window fits in DEC (R24): two sample bytes make one data byte. -/
theorem length_decoded_le (h : s.Inv) (n : Nat) : (decodeWindow s.ph s.pol (s.window.drop n)).length ≤ Config.decBuf := by
  have hhalf := length_decodeWindow_le s.ph s.pol (s.window.drop n)
  rw [List.length_drop, h.length_window] at hhalf
  have hlt : s.nCap < 2 * Config.decBuf := h.window
  omega

/-- The checks of ASSEMBLE: what is accepted is written to CMD with its length (R182 to R184). -/
theorem checkFrame (h : s.Inv) (hq : s.seq = .assemble) (hw : s.waiting = false) (d : List Byte) : (checkFrame d s).Inv := by
  have ha : s.Agree := h.agree (by simp [hq])
  have hs : s.seq ≠ .transmit := by simp [hq]
  rcases checkFrame_cases d s with ⟨-, e⟩ | ⟨l, rest, rfl, hl, hlen, ⟨-, e⟩ | ⟨-, e⟩⟩ <;> rw [e]
  · exact h.afterFailure hs hw ha 3
  · have hcrc : ({ s with crc := crc16 ((l :: rest).take l.toNat) } : State).Inv := { h with }
    exact hcrc.afterFailure hs hw ha 4
  · have hcommand : l.toNat = 0 ∨
        (Bytes.at (s.cmd.overlay 0 ((l :: rest).take l.toNat)) 0).toNat = l.toNat ∧ l.toNat ≤ Config.maxL := by
      refine (Nat.eq_zero_or_pos l.toNat).imp_right fun hpos => ⟨?_, hl⟩
      rw [Bytes.at_overlay_inside (Nat.le_refl 0) (by rw [List.length_take]; omega) (by decide),
        List.getD_eq_getElem?_getD, List.getElem?_take_of_lt (by omega)]
      rfl
    have haccepted : ({ s with crc := crc16 ((l :: rest).take l.toNat), cmd := s.cmd.overlay 0 ((l :: rest).take l.toNat),
                               cmdLen := l.toNat } : State).Inv :=
      { h with command := hcommand, answered := fun e => absurd e hs }
    exact haccepted.goTo hs hw ha (q := .dispatch) nofun h.window nofun nofun

theorem assembleStep (h : s.Inv) (hq : s.seq = .assemble) (hw : s.waiting = false) : (assembleStep s).Inv := by
  have hdecoded : ({ s with dec := s.dec.overlay 0 (decodeWindow s.ph s.pol (s.window.drop (s.off + 4))),
                            nDec := (decodeWindow s.ph s.pol (s.window.drop (s.off + 4))).length } : State).Inv :=
    { h with decodedFits := h.length_decoded_le (s.off + 4) }
  exact hdecoded.checkFrame hq hw _

theorem delayStep (h : s.Inv) (hq : s.seq = .delay) (hw : s.waiting = false) : (delayStep s).Inv :=
  h.enterCapture (by simp [hq]) hw (h.agree (by simp [hq]))

/-- Before the end only the encoder's own state changes; the end closes all and goes on to DELAY, or straight to what
follows DELAY (R203, R204). -/
theorem transmitStep (h : s.Inv) (hq : s.seq = .transmit) (hw : s.waiting = false) : (transmitStep s).Inv := by
  have ha : s.Agree := h.agree (by simp [hq])
  have hdelay : ({ s with gate := false, rspValid := false, tx := none, seq := .delay } : State).Inv :=
    { h with
      captured := nofun
      report := nofun
      answered := nofun
      valid := ⟨nofun, nofun⟩
      responseLength := nofun
      gateClosed := nofun
      encoderIdle := fun e => absurd rfl e
      hangs := fun e => by simp [hw] at e
      agree := fun _ => ha }
  rcases transmitStep_cases s with
    ⟨-, e⟩ | ⟨b, rest, sink, -, e⟩ | ⟨b, rest, sink, -, e⟩ | ⟨rest, -, e⟩ | ⟨-, -, e⟩ | ⟨-, -, e⟩ <;> rw [e]
  · exact { h with encoderIdle := fun _ => hq }
  · exact { h with encoderIdle := fun _ => hq }
  · exact { h with hangs := fun _ => .inr (.inr hq) }
  · exact { h with encoderIdle := fun _ => hq, gateClosed := fun _ => hq }
  · exact hdelay
  · exact hdelay.enterCapture nofun hw ha

/-! ### A dispatched command -/

/-- A silence (R216). -/
theorem silence (h : s.Inv) (hq : s.seq = .dispatch) (hw : s.waiting = false) (ht : IsSilence s t) : t.Inv := by
  obtain ⟨rsp, rfl⟩ := ht
  have hrsp : ({ s with rsp := rsp } : State).Inv := { h with responseLength := by simp [hq] }
  exact hrsp.noResponse (by simp [hq]) hw (h.agree (by simp [hq]))

/-- A reply to a command with a code (R207, R216, R320). -/
theorem reply (h : s.Inv) (hq : s.seq = .dispatch) (hc : 2 ≤ s.cmdLen) (ht : IsReply s t) : t.Inv := by
  obtain ⟨rsp, elog, hlo, hhi, hslot, rfl⟩ := ht
  exact { h with
    captured := nofun
    report := nofun
    answered := fun _ => hc
    valid := ⟨fun _ => rfl, fun _ => rfl⟩
    responseLength := fun _ => ⟨hlo, hhi⟩
    gateClosed := fun _ => rfl
    encoderIdle := fun _ => rfl
    hangs := fun _ => .inr (.inr rfl)
    agree := fun _ => h.agree (by simp [hq])
    secondSlot := hslot.trans h.secondSlot }

theorem outcome (h : s.Inv) (hq : s.seq = .dispatch) (hw : s.waiting = false) (hc : 2 ≤ s.cmdLen) (ht : IsOutcome s t) : t.Inv :=
  ht.elim (h.silence hq hw) (h.reply hq hc)

/-- One update of a field, or of one of the twelve blocks (R66). -/
theorem nvUpdate (h : s.Inv) {u : NvWrite} (hu : ∀ b v, u = .blk b v → b < Config.nBlocks) : (s.nvUpdate u).Inv := by
  have ha : s.seq ≠ .load → (s.nvUpdate u).Agree := fun hq => (h.agree hq).nvUpdate u
  cases u with
  | blk b v =>
    have hb := hu b v rfl
    exact { h with
      cardBlocks := Memory.ok_writeBlock h.cardBlocks hb v, imageBlocks := Memory.ok_writeBlock h.imageBlocks hb v, agree := ha }
  | _ => exact { h with agree := ha }

theorem afterUpdates (h : s.Inv) {us : List NvWrite} (hb : ∀ b v, .blk b v ∈ us → b < Config.nBlocks) (store rst : List Bool) :
    (s.afterUpdates us store rst).Inv := by
  induction us generalizing s with
  | nil => exact { h with }
  | cons u us ih =>
    exact ih (h.nvUpdate fun b v e => hb b v (e ▸ List.mem_cons_self)) fun b v hm => hb b v (List.mem_cons_of_mem u hm)

end State.Inv

/-- Updates touch neither the sequencer nor the command register. -/
theorem State.afterUpdates_frame (s : State) (us : List NvWrite) (store rst : List Bool) :
    s.afterUpdates us store rst =
      { s with nv := (s.afterUpdates us store rst).nv, cs := (s.afterUpdates us store rst).cs,
               env := { s.env with store := store, rst := rst } } := by
  have h := State.foldl_nvUpdate_frame us s
  rw [State.afterUpdates, State.withSchedules, h]

namespace State.Inv

variable {s t : State}

/-- A Write, whole or cut short (R270, R313). -/
theorem writeOutcome (h : s.Inv) (hq : s.seq = .dispatch) (hw : s.waiting = false) (hc : 2 ≤ s.cmdLen) (ht : WriteOutcome s t) :
    t.Inv := by
  rcases ht with ht | ⟨us, store, rst, rsp, hb, ht⟩
  · exact h.outcome hq hw hc ht
  have hrsp : ({ s with rsp := rsp } : State).Inv := { h with responseLength := by simp [hq] }
  rcases ht with ht | ⟨-, rfl⟩ | ⟨-, rfl⟩
  · refine (h.afterUpdates hb store rst).reply ?_ ?_ ht <;> rw [State.afterUpdates_frame]
    · exact hq
    · exact hc
  · exact (hrsp.afterUpdates hb store rst).powerLoss
  · refine (hrsp.afterUpdates hb store rst).hang (.inr (.inl ?_))
    rw [State.afterUpdates_frame]
    exact hq

/-- Echo's reply is the packet (R224), so its length byte is the packet's. -/
theorem isReply_echo (h : s.Inv) (hl : 2 ≤ s.packet.length) : IsReply s (s.afterReply (s.rsp.overlay 0 s.packet) s.cs.elog) := by
  have hcmd : Bytes.at (s.rsp.overlay 0 s.packet) 0 = s.cmd.at 0 := by
    rw [Bytes.at_overlay_inside (Nat.le_refl 0) (by omega) (by decide), State.packet,
      List.getD_eq_getElem?_getD, List.getElem?_take_of_lt (by have := s.length_packet_le; omega), Bytes.at_eq_getD]
  have hle := s.length_packet_le
  obtain h0 | ⟨hlen, hmax⟩ := h.command
  · omega
  · exact ⟨_, _, by rw [hcmd]; omega, by rw [hcmd, hlen]; exact hmax, rfl, rfl⟩

theorem dispatchStep (h : s.Inv) (hq : s.seq = .dispatch) (hw : s.waiting = false) (ht : dispatchStep s = .next t) : t.Inv := by
  rcases dispatchStep_cases s with ⟨i, hdec, e⟩ | ⟨-, e⟩ | ⟨-, -, e⟩ <;> rw [e] at ht
  · have hl := (length_of_decode hdec).1
    have hc : 2 ≤ s.cmdLen := hl.trans s.length_packet_le
    obtain ⟨u, hu, hcase⟩ := exec_cases i s
    cases hu.symm.trans ht
    rcases hcase with ⟨-, -, hout⟩ | ⟨-, rfl⟩ | ⟨-, hout⟩
    · exact h.outcome hq hw hc hout
    · exact h.reply hq hc (h.isReply_echo hl)
    · exact h.writeOutcome hq hw hc hout
  · cases ht
    exact h.noResponse (by simp [hq]) hw (h.agree (by simp [hq]))
  · cases ht

/-! ### One step -/

theorem runPhase (h : s.Inv) (hw : s.waiting = false) (ht : runPhase s = .next t) : t.Inv := by
  rw [Machine.runPhase, if_neg (by simp [hw])] at ht
  cases hq : s.seq <;> simp only [hq] at ht
  case load => cases ht; exact h.loadStep hq hw
  case capture => cases ht; exact h.captureStep hq hw
  case sync => cases ht; exact h.syncStep hq hw
  case assemble => cases ht; exact h.assembleStep hq hw
  case dispatch => exact h.dispatchStep hq hw ht
  case transmit => cases ht; exact h.transmitStep hq hw
  case delay => cases ht; exact h.delayStep hq hw

end State.Inv

/-- Settles O12: the image of `State.reset` lists no cell, so its storage is in form. -/
theorem resetMeetsInv : Obligations.ResetMeetsInv := State.inv_afterReset Memory.ok_nil

/-- Settles O13: a reset, a wait for good, or the phase that `SEQ` names; each keeps the invariant. -/
theorem stepKeepsInv : Obligations.StepKeepsInv := by
  intro s t h ht
  by_cases hrst : s.rstNow = true
  · cases (step_of_rstNow hrst).symm.trans ht
    exact h.passBoundary.powerLoss
  have hlow : s.rstNow = false := by simpa using hrst
  by_cases hwait : s.waiting = true
  · cases (step_of_waiting hlow hwait).symm.trans ht
    exact h.passBoundary
  · have hw : s.waiting = false := by simpa using hwait
    exact h.passBoundary.runPhase hw ((step_of_runs ⟨hlow, hw⟩).symm.trans ht)

end Sys2Proof.Machine

/-! Reset and the sentinel entry of a code table (10_state.md R41, R58). -/

namespace Sys2Proof.Machine

/-! ### Reset -/

/-- Settles O9: a step with `rst` at 1 is a power loss, which reads the image and the environment only. -/
theorem resetTakesTableValues : Obligations.ResetTakesTableValues := by
  intro s h
  refine ⟨⟨_, step_of_rstNow h, rfl, rfl, rfl, rfl, rfl, rfl, rfl, rfl, rfl, rfl, rfl, rfl, rfl, rfl⟩, fun s' hnv henv => ?_⟩
  have h' : s'.rstNow = true := by rw [State.rstNow, henv]; exact h
  rw [step_of_rstNow h, step_of_rstNow h', State.powerLoss, State.powerLoss]
  simp [hnv, henv]

/-! ### The active entries of a code table -/

namespace CodeTable

variable {T : CodeTable} {i : Nat}

/-- The first stored entries are the active ones (R41). -/
theorem entry_of_lt (h : i < T.active.length) : T.entry i = T.active[i] := by
  have hactive : T.active <+: T.toList := List.takeWhile_prefix _
  rw [entry, List.getD_eq_getElem _ _ (h.trans_le hactive.length_le), hactive.getElem h]

/-- No active entry is the sentinel. -/
theorem entry_ne_sentinel (h : i < T.activeLen) : T.entry i ≠ sentinel := by
  rw [entry_of_lt h]
  exact ne_sentinel_of_mem_active (List.getElem_mem h)

/-- Fewer active entries than the table holds end at a sentinel. -/
theorem entry_activeLen (h : T.activeLen < 4) : T.entry T.activeLen = sentinel := by
  have hsplit : T.active ++ T.toList.dropWhile (fun c => c != sentinel) = T.toList := List.takeWhile_append_dropWhile
  have hlen := congrArg List.length hsplit
  rw [List.length_append, Sized.length_toList] at hlen
  have hpos : 0 < (T.toList.dropWhile (fun c => c != sentinel)).length := by
    rw [activeLen] at h
    omega
  rw [entry, ← hsplit, activeLen, List.getD_append_right _ _ _ _ (Nat.le_refl _), Nat.sub_self,
    List.getD_eq_getElem _ _ hpos]
  simpa using List.dropWhile_get_zero_not (p := fun c => c != sentinel) T.toList hpos

end CodeTable

/-- Polling without the double wildcard finds its slot among the active entries (R221). -/
theorem selectSlot_lt {T : CodeTable} {req : Code} {slot : Nat} (h : selectSlot T req = some slot)
    (hreq : req ≠ ⟨0xFF, 0xFF⟩) : slot < T.activeLen := by
  rw [selectSlot, if_neg hreq] at h
  exact (List.findIdx?_eq_some_iff_getElem.mp h).1

/-- The sentinel is neither the wildcard nor an active entry (R266). -/
theorem serviceResolves_sentinel (T : CodeTable) : serviceResolves T sentinel = false := by
  have hmem : sentinel ∉ T.active := fun h => CodeTable.ne_sentinel_of_mem_active h rfl
  have hwild : sentinel ≠ ⟨0xFF, 0xFF⟩ := by decide
  rw [serviceResolves, beq_false_of_ne hwild, Bool.false_or]
  simpa using hmem

/-- Search answers an active entry, or FF FF beyond them (R250). -/
theorem searchCode_ne_sentinel (T : CodeTable) (idx : Nat) : searchCode T idx ≠ sentinel := by
  rw [searchCode]
  by_cases h : idx < T.active.length
  · rw [List.getD_eq_getElem _ _ h]
    exact CodeTable.ne_sentinel_of_mem_active (List.getElem_mem h)
  · rw [List.getD_eq_default _ _ (Nat.le_of_not_lt h)]
    decide

/-- Settles O48: every lookup but the wildcard's stays among the active entries, none of which is the sentinel. -/
theorem sentinelNeverMatches : Obligations.SentinelNeverMatches := fun T =>
  ⟨T.activeLen_le, fun _ => CodeTable.entry_ne_sentinel, CodeTable.entry_activeLen,
    fun _ _ h hreq => ⟨selectSlot_lt h hreq, CodeTable.entry_ne_sentinel (selectSlot_lt h hreq)⟩,
    serviceResolves_sentinel T, searchCode_ne_sentinel T⟩

end Sys2Proof.Machine

/-! How a dispatched command ends, and where each phase goes (10_state.md R21). -/

namespace Sys2Proof.Machine

/-! ### What a dispatched command ends in -/

/-- A command at work: RSP, the Card State, the image and the schedules are all it touches before it ends. -/
def Working (s u : State) : Prop :=
  u = { s with rsp := u.rsp, cs := u.cs, nv := u.nv, env := { s.env with store := u.env.store, rst := u.env.rst } }

theorem Working.of_rsp {s u : State} {rsp : Bytes Config.packetBuf} (h : Working { s with rsp := rsp } u) : Working s u := h

theorem working_afterUpdates (s : State) (us : List NvWrite) (store rst : List Bool) :
    Working s (s.afterUpdates us store rst) := by
  rw [Working, State.afterUpdates_frame]

theorem Working.trans {s u v : State} (h : Working s u) (h' : Working u v) : Working s v := by
  rw [Working] at *
  rw [h', h]

/-- How DISPATCH can end (R216, R313, R374): in a response, in silence, in a wait for good, or in a reset between two updates. -/
def CommandEnds (s t : State) : Prop :=
  ∃ u, Working s u ∧ (t = u.respond ∨ t = u.noResponse ∨ t = u.hang ∨ (true ∈ s.env.rst ∧ t = u.powerLoss))

theorem IsReply.commandEnds {s u t : State} (h : IsReply u t) (hu : Working s u) : CommandEnds s t := by
  obtain ⟨rsp, elog, -, -, -, rfl⟩ := h
  exact ⟨{ u with rsp := rsp, cs := { u.cs with elog := elog } }, hu.trans rfl, .inl rfl⟩

theorem IsOutcome.commandEnds {s t : State} (h : IsOutcome s t) : CommandEnds s t := by
  rcases h with ⟨rsp, rfl⟩ | h
  · exact ⟨{ s with rsp := rsp }, rfl, .inr (.inl rfl)⟩
  · exact h.commandEnds rfl

theorem WriteOutcome.commandEnds {s t : State} (h : WriteOutcome s t) : CommandEnds s t := by
  rcases h with h | ⟨us, store, rst, rsp, -, h | ⟨hm, rfl⟩ | ⟨-, rfl⟩⟩
  · exact h.commandEnds
  · exact h.commandEnds (working_afterUpdates s us store rst)
  · exact ⟨_, (working_afterUpdates _ us store rst).of_rsp, .inr (.inr (.inr ⟨hm, rfl⟩))⟩
  · exact ⟨_, (working_afterUpdates _ us store rst).of_rsp, .inr (.inr (.inl rfl))⟩

theorem commandEnds_of_dispatchStep {s t : State} (h : dispatchStep s = .next t) : CommandEnds s t := by
  rcases dispatchStep_cases s with ⟨i, -, e⟩ | ⟨-, e⟩ | ⟨-, -, e⟩ <;> rw [e] at h
  · obtain ⟨u, hu, hcase⟩ := exec_cases i s
    cases hu.symm.trans h
    rcases hcase with ⟨-, -, hout⟩ | ⟨-, rfl⟩ | ⟨-, hout⟩
    · exact hout.commandEnds
    · exact ⟨{ s with rsp := s.rsp.overlay 0 s.packet }, rfl, .inl rfl⟩
    · exact hout.commandEnds
  · cases h
    exact ⟨s, rfl, .inr (.inl rfl)⟩
  · cases h

/-! ### Where each phase goes -/

section

variable {s t : State}

theorem seq_loadStep (hq : s.seq = .load) :
    (loadStep s).seq = .capture ∨ ((loadStep s).seq = .load ∧ (loadStep s).waiting = true) := by
  rcases loadStep_cases s with ⟨store, e⟩ | ⟨store, e⟩ <;> rw [e]
  · exact .inl rfl
  · exact .inr ⟨hq, rfl⟩

theorem seq_captureStep (hq : s.seq = .capture) : (captureStep s).seq = .capture ∨ (captureStep s).seq = .sync := by
  rcases captureStep_cases s with ⟨-, e⟩ | ⟨b, rest, -, ⟨-, -, e⟩ | ⟨-, -, e⟩ | ⟨-, -, e⟩ | ⟨-, -, e⟩⟩ <;> rw [e]
  · exact .inl hq
  · exact .inr rfl
  · exact .inl hq
  · exact .inl rfl
  · exact .inl hq

theorem seq_syncStep (s : State) : (syncStep s).seq = .assemble ∨ (syncStep s).seq = .capture := by
  rcases syncStep_cases s with ⟨r, -, -, e⟩ | ⟨-, e⟩ <;> rw [e]
  · exact .inl rfl
  · exact .inr rfl

theorem seq_assembleStep (s : State) : (assembleStep s).seq = .dispatch ∨ (assembleStep s).seq = .capture := by
  rw [assembleStep]
  rcases checkFrame_cases _ _ with ⟨-, e⟩ | ⟨l, rest, -, -, -, ⟨-, e⟩ | ⟨-, e⟩⟩ <;> rw [e]
  · exact .inr rfl
  · exact .inr rfl
  · exact .inl rfl

theorem seq_of_commandEnds (hq : s.seq = .dispatch) (h : CommandEnds s t) :
    t.seq = .transmit ∨ t.seq = .capture ∨ (t.seq = .dispatch ∧ t.waiting = true) ∨ (t.seq = .load ∧ true ∈ s.env.rst) := by
  obtain ⟨u, hu, rfl | rfl | rfl | ⟨hm, rfl⟩⟩ := h
  · exact .inl rfl
  · exact .inr (.inl rfl)
  · exact .inr (.inr (.inl ⟨(congrArg State.seq hu).trans hq, rfl⟩))
  · exact .inr (.inr (.inr ⟨rfl, hm⟩))

theorem seq_transmitStep (hq : s.seq = .transmit) :
    (s.tx ≠ some [] ∧ (transmitStep s).seq = .transmit) ∨
      (s.tx = some [] ∧ (transmitStep s).seq = if s.cmd.at 1 = 0x00 then .delay else .capture) := by
  rcases transmitStep_cases s with
    ⟨ht, e⟩ | ⟨b, rest, sink, ht, e⟩ | ⟨b, rest, sink, ht, e⟩ | ⟨rest, ht, e⟩ | ⟨ht, hc, e⟩ | ⟨ht, hc, e⟩ <;> rw [e]
  · exact .inl ⟨by simp [ht], hq⟩
  · exact .inl ⟨by simp [ht], hq⟩
  · exact .inl ⟨by simp [ht], hq⟩
  · exact .inl ⟨by simp [ht], hq⟩
  · exact .inr ⟨ht, by rw [if_pos hc]⟩
  · exact .inr ⟨ht, by rw [if_neg hc]⟩

end

/-- Settles O15: the phases one by one; a boundary that has passed was not the last reset scheduled. -/
theorem phaseTransitions : Obligations.PhaseTransitions := by
  intro s t hr ht
  cases hq : s.seq with
  | load =>
    cases (step_load hr hq).symm.trans ht
    exact seq_loadStep (s := s.passBoundary) hq
  | capture =>
    cases (step_capture hr hq).symm.trans ht
    exact seq_captureStep (s := s.passBoundary) hq
  | sync =>
    cases (step_sync hr hq).symm.trans ht
    exact seq_syncStep s.passBoundary
  | assemble =>
    cases (step_assemble hr hq).symm.trans ht
    exact seq_assembleStep s.passBoundary
  | dispatch =>
    have hend := commandEnds_of_dispatchStep ((step_dispatch hr hq).symm.trans ht)
    exact (seq_of_commandEnds (s := s.passBoundary) hq hend).imp_right <| .imp_right <| .imp_right <|
      .imp_right fun hm hno => hno (List.mem_of_mem_tail hm)
  | transmit =>
    cases (step_transmit hr hq).symm.trans ht
    exact seq_transmitStep (s := s.passBoundary) hq
  | delay =>
    cases (step_delay hr hq).symm.trans ht
    rfl

end Sys2Proof.Machine

/-! What each phase leaves unchanged, and what it hands to the environment (10_state.md R22 to R28, R40, R48 to R54). -/

namespace Sys2Proof.Machine

/-! ### The registers that a phase writes -/

/-- What a phase may write (R21 to R28, R29, R40, R48): every other register is as before. -/
def PhaseFrame (q : Seq) (s t : State) : Prop :=
  match q with
  | .load => t = { s with seq := t.seq, nCap := t.nCap, cs := t.cs, waiting := t.waiting, env := t.env }
  | .capture => t = { s with seq := t.seq, nCap := t.nCap, buf := t.buf, rspValid := t.rspValid, env := t.env }
  | .sync =>
    t = { s with seq := t.seq, nCap := t.nCap, off := t.off, ph := t.ph, pol := t.pol, rspValid := t.rspValid, env := t.env }
  | .assemble =>
    t = { s with seq := t.seq, nCap := t.nCap, dec := t.dec, nDec := t.nDec, cmd := t.cmd, cmdLen := t.cmdLen, crc := t.crc,
                 rspValid := t.rspValid, env := t.env }
  | .dispatch =>
    t = { s with seq := t.seq, nCap := t.nCap, rsp := t.rsp, rspValid := t.rspValid, cs := t.cs, nv := t.nv,
                 waiting := t.waiting, env := t.env }
  | .transmit =>
    t = { s with seq := t.seq, nCap := t.nCap, crc := t.crc, gate := t.gate, rspValid := t.rspValid, tx := t.tx,
                 waiting := t.waiting, env := t.env }
  | .delay => t = { s with seq := t.seq, nCap := t.nCap, env := t.env }

theorem frame_loadStep (s : State) : PhaseFrame .load s (loadStep s) := by
  rcases loadStep_cases s with ⟨store, e⟩ | ⟨store, e⟩ <;> rw [e] <;> exact rfl

theorem frame_captureStep (s : State) : PhaseFrame .capture s (captureStep s) := by
  rcases captureStep_cases s with ⟨-, e⟩ | ⟨b, rest, -, ⟨-, -, e⟩ | ⟨-, -, e⟩ | ⟨-, -, e⟩ | ⟨-, -, e⟩⟩ <;> rw [e] <;> exact rfl

theorem frame_syncStep (s : State) : PhaseFrame .sync s (syncStep s) := by
  rcases syncStep_cases s with ⟨r, -, -, e⟩ | ⟨-, e⟩ <;> rw [e] <;> exact rfl

theorem frame_assembleStep (s : State) : PhaseFrame .assemble s (assembleStep s) := by
  rw [assembleStep]
  rcases checkFrame_cases _ _ with ⟨-, e⟩ | ⟨l, rest, -, -, -, ⟨-, e⟩ | ⟨-, e⟩⟩ <;> rw [e] <;> exact rfl

theorem frame_of_commandEnds {s t : State} (h : CommandEnds s t) (hr : s.NoReset) : PhaseFrame .dispatch s t := by
  obtain ⟨u, hu, rfl | rfl | rfl | ⟨hm, rfl⟩⟩ := h
  · exact hu ▸ rfl
  · exact hu ▸ rfl
  · exact hu ▸ rfl
  · exact absurd hm hr

theorem frame_transmitStep (s : State) : PhaseFrame .transmit s (transmitStep s) := by
  rcases transmitStep_cases s with
    ⟨-, e⟩ | ⟨b, rest, sink, -, e⟩ | ⟨b, rest, sink, -, e⟩ | ⟨rest, -, e⟩ | ⟨-, -, e⟩ | ⟨-, -, e⟩ <;> rw [e] <;> exact rfl

theorem State.noReset_passBoundary {s : State} (h : s.NoReset) : s.passBoundary.NoReset :=
  fun hm => h (List.mem_of_mem_tail hm)

/-- A step writes the registers of its phase only, unless a reset falls inside a Write. -/
theorem step_frame {s t : State} (h : s.Runs) (hr : s.seq ≠ .dispatch ∨ s.NoReset) (ht : step s = .next t) :
    PhaseFrame s.seq s t := by
  cases hq : s.seq with
  | load =>
    cases (step_load h hq).symm.trans ht
    exact frame_loadStep s.passBoundary
  | capture =>
    cases (step_capture h hq).symm.trans ht
    exact frame_captureStep s.passBoundary
  | sync =>
    cases (step_sync h hq).symm.trans ht
    exact frame_syncStep s.passBoundary
  | assemble =>
    cases (step_assemble h hq).symm.trans ht
    exact frame_assembleStep s.passBoundary
  | dispatch =>
    have hend := commandEnds_of_dispatchStep ((step_dispatch h hq).symm.trans ht)
    exact frame_of_commandEnds (s := s.passBoundary) hend (State.noReset_passBoundary (hr.resolve_left (not_not_intro hq)))
  | transmit =>
    cases (step_transmit h hq).symm.trans ht
    exact frame_transmitStep s.passBoundary
  | delay =>
    cases (step_delay h hq).symm.trans ht
    rfl

namespace PhaseFrame

variable {q : Seq} {s t : State}

theorem buf (h : PhaseFrame q s t) (hq : q ≠ .capture) : t.buf = s.buf := by
  cases q with
  | capture => exact absurd rfl hq
  | _ => exact (congrArg State.buf h :)

theorem report (h : PhaseFrame q s t) (hq : q ≠ .sync) : (t.off, t.ph, t.pol) = (s.off, s.ph, s.pol) := by
  cases q with
  | sync => exact absurd rfl hq
  | _ => exact (congrArg (fun u : State => (u.off, u.ph, u.pol)) h :)

theorem decoded (h : PhaseFrame q s t) (hq : q ≠ .assemble) : (t.dec, t.nDec) = (s.dec, s.nDec) := by
  cases q with
  | assemble => exact absurd rfl hq
  | _ => exact (congrArg (fun u : State => (u.dec, u.nDec)) h :)

theorem command (h : PhaseFrame q s t) (hq : q ≠ .assemble) : (t.cmd, t.cmdLen) = (s.cmd, s.cmdLen) := by
  cases q with
  | assemble => exact absurd rfl hq
  | _ => exact (congrArg (fun u : State => (u.cmd, u.cmdLen)) h :)

theorem rsp (h : PhaseFrame q s t) (hq : q ≠ .dispatch) : t.rsp = s.rsp := by
  cases q with
  | dispatch => exact absurd rfl hq
  | _ => exact (congrArg State.rsp h :)

theorem crc (h : PhaseFrame q s t) (hq : q ≠ .assemble ∧ q ≠ .transmit) : t.crc = s.crc := by
  cases q with
  | assemble => exact absurd rfl hq.1
  | transmit => exact absurd rfl hq.2
  | _ => exact (congrArg State.crc h :)

theorem gate (h : PhaseFrame q s t) (hq : q ≠ .transmit) : t.gate = s.gate := by
  cases q with
  | transmit => exact absurd rfl hq
  | _ => exact (congrArg State.gate h :)

theorem nv (h : PhaseFrame q s t) (hq : q ≠ .dispatch) : t.nv = s.nv := by
  cases q with
  | dispatch => exact absurd rfl hq
  | _ => exact (congrArg State.nv h :)

theorem cs (h : PhaseFrame q s t) (hq : q ≠ .load ∧ q ≠ .dispatch) : t.cs = s.cs := by
  cases q with
  | load => exact absurd rfl hq.1
  | dispatch => exact absurd rfl hq.2
  | _ => exact (congrArg State.cs h :)

end PhaseFrame

/-! ### The two registers that are also cleared -/

/-- N_CAP is kept, or cleared on entry to CAPTURE (R141, Log 10). -/
def CountKeptOrCleared (s t : State) : Prop := t.nCap = s.nCap ∨ (t.seq = .capture ∧ t.nCap = 0)

/-- RSP_VALID does not rise. -/
def ValidKeptOrCleared (s t : State) : Prop := t.rspValid = s.rspValid ∨ t.rspValid = false

/-- Only CAPTURE counts N_CAP up, and only DISPATCH raises RSP_VALID. -/
theorem step_clears {s t : State} (h : s.Runs) (hr : s.NoReset) (ht : step s = .next t) :
    (s.seq = .capture ∨ CountKeptOrCleared s t) ∧ (s.seq = .dispatch ∨ ValidKeptOrCleared s t) := by
  cases hq : s.seq with
  | load =>
    cases (step_load h hq).symm.trans ht
    rcases loadStep_cases s.passBoundary with ⟨store, e⟩ | ⟨store, e⟩ <;> rw [e]
    · exact ⟨.inr (.inr ⟨rfl, rfl⟩), .inr (.inl rfl)⟩
    · exact ⟨.inr (.inl rfl), .inr (.inl rfl)⟩
  | capture =>
    cases (step_capture h hq).symm.trans ht
    refine ⟨.inl rfl, .inr ?_⟩
    rcases captureStep_cases s.passBoundary with
      ⟨-, e⟩ | ⟨b, rest, -, ⟨-, -, e⟩ | ⟨-, -, e⟩ | ⟨-, -, e⟩ | ⟨-, -, e⟩⟩ <;> rw [e]
    · exact .inl rfl
    · exact .inl rfl
    · exact .inl rfl
    · exact .inr rfl
    · exact .inl rfl
  | sync =>
    cases (step_sync h hq).symm.trans ht
    rcases syncStep_cases s.passBoundary with ⟨r, -, -, e⟩ | ⟨-, e⟩ <;> rw [e]
    · exact ⟨.inr (.inl rfl), .inr (.inl rfl)⟩
    · exact ⟨.inr (.inr ⟨rfl, rfl⟩), .inr (.inr rfl)⟩
  | assemble =>
    cases (step_assemble h hq).symm.trans ht
    rw [assembleStep]
    rcases checkFrame_cases _ _ with ⟨-, e⟩ | ⟨l, rest, -, -, -, ⟨-, e⟩ | ⟨-, e⟩⟩ <;> rw [e]
    · exact ⟨.inr (.inr ⟨rfl, rfl⟩), .inr (.inr rfl)⟩
    · exact ⟨.inr (.inr ⟨rfl, rfl⟩), .inr (.inr rfl)⟩
    · exact ⟨.inr (.inl rfl), .inr (.inl rfl)⟩
  | dispatch =>
    refine ⟨.inr ?_, .inl rfl⟩
    obtain ⟨u, hu, rfl | rfl | rfl | ⟨hm, -⟩⟩ := commandEnds_of_dispatchStep ((step_dispatch h hq).symm.trans ht)
    · exact .inl (congrArg State.nCap hu :)
    · exact .inr ⟨rfl, rfl⟩
    · exact .inl (congrArg State.nCap hu :)
    · exact absurd hm (State.noReset_passBoundary hr)
  | transmit =>
    cases (step_transmit h hq).symm.trans ht
    rcases transmitStep_cases s.passBoundary with
      ⟨-, e⟩ | ⟨b, rest, sink, -, e⟩ | ⟨b, rest, sink, -, e⟩ | ⟨rest, -, e⟩ | ⟨-, -, e⟩ | ⟨-, -, e⟩ <;> rw [e]
    · exact ⟨.inr (.inl rfl), .inr (.inl rfl)⟩
    · exact ⟨.inr (.inl rfl), .inr (.inl rfl)⟩
    · exact ⟨.inr (.inl rfl), .inr (.inl rfl)⟩
    · exact ⟨.inr (.inl rfl), .inr (.inl rfl)⟩
    · exact ⟨.inr (.inl rfl), .inr (.inr rfl)⟩
    · exact ⟨.inr (.inr ⟨rfl, rfl⟩), .inr (.inr rfl)⟩
  | delay =>
    cases (step_delay h hq).symm.trans ht
    exact ⟨.inr (.inr ⟨rfl, rfl⟩), .inr (.inl rfl)⟩

/-- Settles O17: a register that changed was in the frame of the phase. -/
theorem oneWriterPerRegister : Obligations.OneWriterPerRegister := by
  intro s t h hr ht
  have hf := step_frame h (.inr hr) ht
  obtain ⟨hcount, hvalid⟩ := step_clears h hr ht
  refine ⟨fun hne => ?_, fun hne => hcount.imp_right (·.resolve_left hne), fun hne => ?_, fun hne => ?_, fun hne => ?_,
    fun hne => ?_, fun hv => ?_, fun hne => ?_, fun hne => ?_⟩
  · exact not_not.mp (mt hf.buf hne)
  · exact not_not.mp (mt hf.report hne)
  · exact not_not.mp (mt hf.decoded hne)
  · exact not_not.mp (mt hf.command hne)
  · exact not_not.mp (mt hf.rsp hne)
  · refine hvalid.symm.imp_left fun hkept => ?_
    rcases hkept with hkept | hcleared
    · exact hkept ▸ hv
    · simp [hcleared] at hv
  · exact or_iff_not_and_not.mpr (mt hf.crc hne)
  · exact not_not.mp (mt hf.gate hne)

/-! ### What is handed to the environment -/

/-- A framing failure as the environment sees it (R330, R331). -/
def Reports (s t : State) (code : DiagCode) : Prop :=
  t.env.diags = s.env.diags ++ [code] ∧ t.seq = .capture ∧ t.rspValid = false

/-- Neither a sample is taken, nor a symbol byte or a diagnostic handed over. -/
def KeepsTraces (s t : State) : Prop :=
  t.env.samples = s.env.samples ∧ t.env.sent = s.env.sent ∧ t.env.diags = s.env.diags

theorem traces_loadStep (s : State) : KeepsTraces s (loadStep s) := by
  rcases loadStep_cases s with ⟨store, e⟩ | ⟨store, e⟩ <;> rw [e] <;> exact ⟨rfl, rfl, rfl⟩

theorem traces_of_commandEnds {s t : State} (h : CommandEnds s t) : KeepsTraces s t := by
  obtain ⟨u, hu, hend⟩ := h
  have henv : u.env = { s.env with store := u.env.store, rst := u.env.rst } := (congrArg State.env hu :)
  have hu' : KeepsTraces s u := by rw [KeepsTraces, henv]; exact ⟨rfl, rfl, rfl⟩
  rcases hend with rfl | rfl | rfl | ⟨-, rfl⟩ <;> exact hu'

theorem env_captureStep (s : State) :
    ((captureStep s).env.samples = s.env.samples ∨ (captureStep s).env.samples = s.env.samples.tail) ∧
      (captureStep s).env.sent = s.env.sent ∧
      ((captureStep s).env.diags = s.env.diags ∨ Reports s (captureStep s) 1) := by
  rcases captureStep_cases s with ⟨-, e⟩ | ⟨b, rest, hs, ⟨-, -, e⟩ | ⟨-, -, e⟩ | ⟨-, -, e⟩ | ⟨-, -, e⟩⟩
  · rw [e]
    exact ⟨.inl rfl, rfl, .inl rfl⟩
  all_goals
    rw [e, hs]
    refine ⟨.inr rfl, rfl, ?_⟩
  · exact .inl rfl
  · exact .inl rfl
  · exact .inr ⟨rfl, rfl, rfl⟩
  · exact .inl rfl

theorem env_syncStep (s : State) :
    (syncStep s).env.samples = s.env.samples ∧ (syncStep s).env.sent = s.env.sent ∧
      ((syncStep s).env.diags = s.env.diags ∨ Reports s (syncStep s) 2) := by
  rcases syncStep_cases s with ⟨r, -, -, e⟩ | ⟨-, e⟩ <;> rw [e]
  · exact ⟨rfl, rfl, .inl rfl⟩
  · exact ⟨rfl, rfl, .inr ⟨rfl, rfl, rfl⟩⟩

theorem env_assembleStep (s : State) :
    (assembleStep s).env.samples = s.env.samples ∧ (assembleStep s).env.sent = s.env.sent ∧
      ((assembleStep s).env.diags = s.env.diags ∨ ∃ code, (code = 3 ∨ code = 4) ∧ Reports s (assembleStep s) code) := by
  rw [assembleStep]
  rcases checkFrame_cases _ _ with ⟨-, e⟩ | ⟨l, rest, -, -, -, ⟨-, e⟩ | ⟨-, e⟩⟩ <;> rw [e]
  · exact ⟨rfl, rfl, .inr ⟨3, .inl rfl, rfl, rfl, rfl⟩⟩
  · exact ⟨rfl, rfl, .inr ⟨4, .inr rfl, rfl, rfl, rfl⟩⟩
  · exact ⟨rfl, rfl, .inl rfl⟩

theorem env_transmitStep (s : State) :
    (transmitStep s).env.samples = s.env.samples ∧
      ((transmitStep s).env.sent = s.env.sent ∨ ∃ b, (transmitStep s).env.sent = s.env.sent ++ [⟨s.gate, b⟩]) ∧
      (transmitStep s).env.diags = s.env.diags := by
  rcases transmitStep_cases s with
    ⟨-, e⟩ | ⟨b, rest, sink, -, e⟩ | ⟨b, rest, sink, -, e⟩ | ⟨rest, -, e⟩ | ⟨-, -, e⟩ | ⟨-, -, e⟩ <;> rw [e]
  · exact ⟨rfl, .inl rfl, rfl⟩
  · exact ⟨rfl, .inr ⟨b, rfl⟩, rfl⟩
  · exact ⟨rfl, .inl rfl, rfl⟩
  · exact ⟨rfl, .inl rfl, rfl⟩
  · exact ⟨rfl, .inl rfl, rfl⟩
  · exact ⟨rfl, .inl rfl, rfl⟩

/-- Settles O18: four phases use an interface that leaves a trace, three do not. -/
theorem environmentUse : Obligations.EnvironmentUse := by
  intro s t hr ht
  cases hq : s.seq with
  | load =>
    cases (step_load hr hq).symm.trans ht
    obtain ⟨hsamples, hsent, hdiags⟩ := traces_loadStep s.passBoundary
    exact ⟨.inl hsamples, .inl hsent, .inl hdiags⟩
  | capture =>
    cases (step_capture hr hq).symm.trans ht
    obtain ⟨hsamples, hsent, hdiags⟩ := env_captureStep s.passBoundary
    exact ⟨hsamples.imp_right (⟨rfl, ·⟩), .inl hsent,
      hdiags.imp_right fun ⟨hcode, hseq, hvalid⟩ => ⟨1, hcode, hseq, hvalid, .inl ⟨rfl, rfl⟩⟩⟩
  | sync =>
    cases (step_sync hr hq).symm.trans ht
    obtain ⟨hsamples, hsent, hdiags⟩ := env_syncStep s.passBoundary
    exact ⟨.inl hsamples, .inl hsent,
      hdiags.imp_right fun ⟨hcode, hseq, hvalid⟩ => ⟨2, hcode, hseq, hvalid, .inr (.inl ⟨rfl, rfl⟩)⟩⟩
  | assemble =>
    cases (step_assemble hr hq).symm.trans ht
    obtain ⟨hsamples, hsent, hdiags⟩ := env_assembleStep s.passBoundary
    exact ⟨.inl hsamples, .inl hsent,
      hdiags.imp_right fun ⟨code, h34, hcode, hseq, hvalid⟩ => ⟨code, hcode, hseq, hvalid, .inr (.inr ⟨h34, rfl⟩)⟩⟩
  | dispatch =>
    obtain ⟨hsamples, hsent, hdiags⟩ :=
      traces_of_commandEnds (commandEnds_of_dispatchStep ((step_dispatch hr hq).symm.trans ht))
    exact ⟨.inl hsamples, .inl hsent, .inl hdiags⟩
  | transmit =>
    cases (step_transmit hr hq).symm.trans ht
    obtain ⟨hsamples, hsent, hdiags⟩ := env_transmitStep s.passBoundary
    exact ⟨.inl hsamples, hsent.imp_right (⟨rfl, ·⟩), .inl hdiags⟩
  | delay =>
    cases (step_delay hr hq).symm.trans ht
    exact ⟨.inl rfl, .inl rfl, .inl rfl⟩

end Sys2Proof.Machine

/-! Who writes the Card State and the image (10_state.md R40, R48; 20_memory.md R68). -/

namespace Sys2Proof.Machine

/-! ### Which commands leave the Card State alone -/

theorem polling_cs (request : Code) (rc : Byte) (s : State) : (polling request rc s).cs = s.cs := by
  unfold polling
  split
  · rfl
  · split
    · rfl
    · simp only [State.respond_cs, State.putRsp_cs, State.putLength_cs]

theorem requestService_cs (ops : ReqSvcOps) (s : State) : (requestService ops s).cs = s.cs := by
  unfold requestService
  split <;> rfl

theorem requestResponse_cs (s : State) : (requestResponse s).cs = s.cs := rfl

theorem searchServiceCode_cs (ops : SearchOps) (s : State) : (searchServiceCode ops s).cs = s.cs := rfl

theorem requestSystemCode_cs (s : State) : (requestSystemCode s).cs = s.cs := by
  unfold requestSystemCode
  simp only
  split <;> rfl

/-- The header is no part of the Card State (R228). -/
theorem addressed_cs {code : Byte} {handler : β → State → State} (h : ∀ ops u, (handler ops u).cs = u.cs) (a : Addressed β)
    (s : State) : (addressed code handler a s).cs = s.cs := by
  rcases addressed_cases code handler a s with ⟨idm, ops, -, -, e⟩ | ⟨idm, bytes, -, -, e⟩ | e <;> rw [e]
  · exact h ops _
  · rfl
  · rfl

/-! ### Read -/

/-- A Read leaves the Card State alone, or ends in a failure status after it has written no more than RSP (R265). -/
def ReadEnds (s t : State) : Prop := t.cs = s.cs ∨ ∃ u f, RspOnly s u ∧ t = u.statusFail f

theorem readEnds_statusFail (s : State) (f : StatusFailure) : ReadEnds s (s.statusFail f) := .inr ⟨s, f, .refl s, rfl⟩

theorem readCommand_ends (ops : ReadOps) (s : State) : ReadEnds s (readCommand ops s) := by
  unfold readCommand
  split
  · exact readEnds_statusFail s _
  split
  · exact readEnds_statusFail s _
  split
  · exact readEnds_statusFail s _
  split
  · exact readEnds_statusFail s _
  next bs _ =>
  have hread : RspOnly s (readBlocks bs 0 s).2 := (readBlocks_cases bs 0 s).1
  split
  · next u hu => exact .inr ⟨u, _, by rwa [hu] at hread, rfl⟩
  · next u hu =>
    rw [hu] at hread
    exact .inl (congrArg State.cs hread :)

theorem addressed_readCommand_ends (code : Byte) (a : Addressed ReadOps) (s : State) :
    ReadEnds s (addressed code readCommand a s) := by
  rcases addressed_cases code readCommand a s with ⟨idm, ops, -, -, e⟩ | ⟨idm, bytes, -, -, e⟩ | e <;> rw [e]
  · have hheader : RspOnly s (s.putHeader code idm) := (RspOnly.refl s).putRsp _ _
    rcases readCommand_ends ops (s.putHeader code idm) with hcs | ⟨u, f, hu, ht⟩
    · exact .inl hcs
    · refine .inr ⟨u, f, ?_, ht⟩
      rw [RspOnly] at hu hheader ⊢
      rw [hu, hheader]
  · exact .inl rfl
  · exact .inl rfl

/-- A failure status writes RSP and slot 0 of the error log, and flag1 is FF (R261). -/
theorem statusFrame_statusFail {s u : State} (hu : RspOnly s u) (f : StatusFailure) :
    StatusFrame s (u.statusFail f) ∧ (u.statusFail f).rsp.at 10 = 0xFF := by
  refine ⟨⟨?_, ?_⟩, ?_⟩
  · rw [RspOnly] at hu
    rw [hu]
    rfl
  · have helog : u.cs.elog = s.cs.elog := (congrArg (fun v : State => v.cs.elog) hu :)
    rw [← helog]
    exact u.logError_slot
  · rw [State.statusFail_rsp, Bytes.at_overlay_inside (by omega) (by simp) (by decide)]
    rfl

/-! ### Every command but Write -/

/-- No command but Write changes the Card State, but for the error log where a Read fails (R68, R215). -/
theorem exec_cs {i : Instr} {s t : State} (hw : ∀ a, i ≠ .write a) (h : exec i s = .next t) :
    t.cs = s.cs ∨ ((∃ a, i = .read a) ∧ StatusFrame s t ∧ t.rsp.at 10 = 0xFF) := by
  cases i with
  | poll ops =>
    cases ops with
    | short bytes => cases h; exact .inl rfl
    | full sys rc unread => cases h; exact .inl (polling_cs sys rc s)
  | echo data => cases h; exact .inl rfl
  | reqsvc a => cases h; exact .inl (addressed_cs requestService_cs a s)
  | reqrsp a => cases h; exact .inl (addressed_cs (fun _ => requestResponse_cs) a s)
  | read a =>
    cases h
    refine (addressed_readCommand_ends 0x06 a s).imp_right fun ⟨u, f, hu, ht⟩ => ⟨⟨a, rfl⟩, ?_⟩
    rw [ht]
    exact statusFrame_statusFail hu f
  | write a => exact absurd rfl (hw a)
  | search a => cases h; exact .inl (addressed_cs searchServiceCode_cs a s)
  | reqsys a => cases h; exact .inl (addressed_cs (fun _ => requestSystemCode_cs) a s)
  | auth1 a => cases h; exact .inl (addressed_cs (fun _ => State.noResponse_cs) a s)
  | unsupportedEven code a => cases h; exact .inl (addressed_cs (fun _ => State.noResponse_cs) a s)
  | oddCode code a => cases h; exact .inl rfl

theorem IsOutcome.nv {s t : State} (h : IsOutcome s t) : t.nv = s.nv := by
  obtain ⟨rsp, rfl⟩ | ⟨rsp, elog, -, -, -, rfl⟩ := h <;> rfl

/-- No command but Write changes the image (R68). -/
theorem exec_nv {i : Instr} {s t : State} (hw : ∀ a, i ≠ .write a) (h : exec i s = .next t) : t.nv = s.nv := by
  obtain ⟨u, hu, hcase⟩ := exec_cases i s
  cases hu.symm.trans h
  rcases hcase with ⟨-, -, hout⟩ | ⟨-, rfl⟩ | ⟨⟨a, rfl⟩, -⟩
  · exact hout.nv
  · rfl
  · exact absurd rfl (hw a)

/-- DISPATCH changes image and Card State only where the packet is a Write, or a Read that fails. -/
theorem dispatchStep_writers {s t : State} (h : dispatchStep s = .next t) :
    (∃ a, decode s.packet = .ok (.write a)) ∨
      (t.nv = s.nv ∧ (t.cs = s.cs ∨
        ((∃ a, decode s.packet = .ok (.read a)) ∧ StatusFrame s t ∧ t.rsp.at 10 = 0xFF))) := by
  rcases dispatchStep_cases s with ⟨i, hdec, e⟩ | ⟨-, e⟩ | ⟨-, -, e⟩ <;> rw [e] at h
  · by_cases hw : ∃ a, i = .write a
    · obtain ⟨a, rfl⟩ := hw
      exact .inl ⟨a, hdec⟩
    · have hw' : ∀ a, i ≠ .write a := not_exists.mp hw
      exact .inr ⟨exec_nv hw' h, (exec_cs hw' h).imp_right fun ⟨⟨a, ha⟩, hfail⟩ => ⟨⟨a, ha ▸ hdec⟩, hfail⟩⟩
  · cases h
    exact .inr ⟨rfl, .inl rfl⟩
  · cases h

/-- Settles O16: outside DISPATCH by the frame of the phase, in DISPATCH by the command. -/
theorem cardAndImageWriters : Obligations.CardAndImageWriters := by
  intro s t hr ht
  by_cases hq : s.seq = .dispatch
  · rcases dispatchStep_writers ((step_dispatch hr hq).symm.trans ht) with hwrite | ⟨hnv, hcs⟩
    · exact ⟨fun _ => ⟨hq, hwrite⟩, fun _ => .inr ⟨hq, .inl hwrite⟩⟩
    · exact ⟨fun hne => absurd hnv hne, fun hne => .inr ⟨hq, .inr (hcs.resolve_left hne)⟩⟩
  · have hf := step_frame hr (.inl hq) ht
    refine ⟨fun hne => absurd (hf.nv hq) hne, fun hne => .inl ?_⟩
    by_contra hload
    exact hne (hf.cs ⟨hload, hq⟩)

end Sys2Proof.Machine

/-! O54: a Read leaves the state it would leave again (20_memory.md R67). -/

namespace Sys2Proof.Sized

variable {α : Type} {n : Nat}

/-! ### Several writes over a sequence -/

/-- The sequence with parts written over it one after the other, each at its position. -/
def overlays (v : Sized α n) (parts : List (Nat × List α)) : Sized α n := parts.foldl (fun w p => w.overlay p.1 p.2) v

theorem overlays_append (v : Sized α n) (ps qs : List (Nat × List α)) :
    v.overlays (ps ++ qs) = (v.overlays ps).overlays qs := List.foldl_append

/-- At each position, writes either keep what any sequence holds there, or leave the same element in every sequence. -/
theorem overlays_keeps_or_fixes (parts : List (Nat × List α)) {i : Nat} (hi : i < n) :
    (∀ v : Sized α n, (v.overlays parts).toList[i]? = v.toList[i]?) ∨
      (∀ v w : Sized α n, (v.overlays parts).toList[i]? = (w.overlays parts).toList[i]?) := by
  induction parts with
  | nil => exact .inl fun _ => rfl
  | cons p parts ih =>
    rcases ih with keeps | fixes
    · by_cases hp : p.1 ≤ i ∧ i < p.1 + p.2.length
      · have written (v : Sized α n) : (v.overlays (p :: parts)).toList[i]? = p.2[i - p.1]? :=
          (keeps _).trans (getElem?_overlay_inside hp.1 hp.2 hi)
        exact .inr fun v w => (written v).trans (written w).symm
      · exact .inl fun v => (keeps _).trans (getElem?_overlay_outside (by omega) hi)
    · exact .inr fun v w => fixes _ _

/-- Writing the same parts again changes nothing. -/
theorem overlays_overlays (v : Sized α n) (parts : List (Nat × List α)) :
    (v.overlays parts).overlays parts = v.overlays parts := by
  refine eq_of_toList (List.ext_getElem? fun i => ?_)
  by_cases hi : i < n
  · rcases overlays_keeps_or_fixes parts hi with keeps | fixes
    · exact keeps _
    · exact fixes _ _
  · rw [List.getElem?_eq_none (by simp; omega), List.getElem?_eq_none (by simp; omega)]

end Sys2Proof.Sized

namespace Sys2Proof.Machine

/-! ### What a Read writes -/

/-- The state after an answer: parts written over RSP in order, the command logged or not, and the response valid (R216, R261). -/
def State.answer (s : State) (logged : Bool) (parts : List (Nat × List Byte)) : State :=
  { s with rsp := s.rsp.overlays parts, rspValid := true, seq := .transmit, cs := if logged then s.logError.cs else s.cs }

/-- The parts of RSP that a failure status writes (R261). -/
def StatusFailure.parts (f : StatusFailure) : List (Nat × List Byte) := [(0, [12]), (10, [0xFF, f.flag2])]

/-- The parts of RSP that a successful Read of `n` blocks writes after the blocks (R265). -/
def successParts (n : Byte) : List (Nat × List Byte) :=
  [(0, [BitVec.ofNat 8 (13 + 16 * n.toNat)]), (10, [0x00, 0x00]), (12, [n])]

theorem State.statusFail_eq_answer (s : State) (f : StatusFailure) : s.statusFail f = s.answer true f.parts := rfl

theorem State.answer_overlays (s : State) (logged : Bool) (ps qs : List (Nat × List Byte)) :
    ({ s with rsp := s.rsp.overlays ps } : State).answer logged qs = s.answer logged (ps ++ qs) := by
  simp only [State.answer, Sized.overlays_append]
  rfl

/-- How far the block reads come, and what they write to RSP, depends on the Card State alone (R267). -/
theorem readBlocks_eq_overlays (cs : CardState) (bs : List Byte) (j : Nat) :
    ∃ resolved parts, ∀ s : State, s.cs = cs → readBlocks bs j s = (resolved, { s with rsp := s.rsp.overlays parts }) := by
  induction bs generalizing j with
  | nil => exact ⟨true, [], fun _ _ => rfl⟩
  | cons b bs ih =>
    cases hb : memRead cs b with
    | none => exact ⟨false, [], by rintro s rfl; rw [readBlocks, hb]; rfl⟩
    | some d =>
      obtain ⟨resolved, parts, h⟩ := ih (j + 1)
      refine ⟨resolved, (13 + 16 * j, d.toList) :: parts, ?_⟩
      rintro s rfl
      rw [readBlocks, hb]
      exact h (s.putRsp _ _) rfl

/-- A Read answers; whether it logs, and what it writes to RSP, depends on the Card State alone (R265, R267). -/
theorem readCommand_eq_answer (ops : ReadOps) (cs : CardState) :
    ∃ logged parts, ∀ s : State, s.cs = cs → readCommand ops s = s.answer logged parts := by
  by_cases hm : ops.m ≠ 1
  · exact ⟨true, StatusFailure.serviceCount.parts, fun s _ => by rw [readCommand, if_pos hm]; rfl⟩
  by_cases hr : (!serviceResolves cs.svc ops.svc) = true
  · exact ⟨true, StatusFailure.serviceOrList.parts, fun s hs => by rw [readCommand, if_neg hm, hs, if_pos hr]; rfl⟩
  by_cases hn : (!blockCountOk ops.n) = true
  · exact ⟨true, StatusFailure.blockCount.parts, fun s hs => by
      rw [readCommand, if_neg hm, hs, if_neg hr, if_pos hn]; rfl⟩
  cases hp : parseList ops.n.toNat ops.list with
  | none =>
    exact ⟨true, StatusFailure.serviceOrList.parts, fun s hs => by
      rw [readCommand, if_neg hm, hs, if_neg hr, if_neg hn, hp]; rfl⟩
  | some list =>
    obtain ⟨used, bs⟩ := list
    obtain ⟨resolved, parts, hblocks⟩ := readBlocks_eq_overlays cs bs 0
    refine ⟨!resolved, parts ++ if resolved then successParts ops.n else StatusFailure.block.parts, fun s hs => ?_⟩
    rw [readCommand, if_neg hm, hs, if_neg hr, if_neg hn, hp]
    simp only [hblocks s hs, ← State.answer_overlays]
    cases resolved <;> rfl

/-! ### A repeated Read -/

/-- An answer that left the Card State as it was changes nothing when it is given again. -/
theorem State.answer_again {s t : State} {logged : Bool} {parts : List (Nat × List Byte)} (ht : t = s.answer logged parts)
    (hcs : t.cs = s.cs) : t.answer logged parts = t := by
  have hrsp : t.rsp.overlays parts = t.rsp := by
    rw [ht]
    exact s.rsp.overlays_overlays parts
  have hpacket : t.packet = s.packet := by rw [ht]; rfl
  have hlog : (if logged then t.logError.cs else t.cs) = t.cs := by
    rw [State.logError_cs, hpacket, hcs, ← State.logError_cs]
    exact (congrArg State.cs ht).symm.trans hcs
  rw [State.answer, hrsp, hlog, ht]
  rfl

/-- A Read that is answered and leaves the Card State as it was is a fixed point: run again, it ends in the same state. -/
theorem exec_read_again {s t : State} {a : Addressed ReadOps} (h : exec (.read a) s = .next t) (hv : t.rspValid = true)
    (hcs : t.cs = s.cs) : exec (.read a) t = .next t := by
  have ht : addressed 0x06 readCommand a s = t := by cases h; rfl
  rcases addressed_cases 0x06 readCommand a s with ⟨idm, ops, rfl, ha, e⟩ | ⟨idm, bytes, -, -, e⟩ | e
  · obtain ⟨logged, parts, hread⟩ := readCommand_eq_answer ops s.cs
    have answers {u : State} (hu : u.cs = s.cs) :
        readCommand ops (u.putHeader 0x06 idm) = u.answer logged ((1, 0x07 :: idm.toList) :: parts) :=
      hread (u.putHeader 0x06 idm) hu
    have hanswer := ht.symm.trans (e.trans (answers rfl))
    have ha' : t.AddressedBy idm := by rwa [State.AddressedBy, hcs]
    calc exec (.read (.full idm ops)) t
        = .next (readCommand ops (t.putHeader 0x06 idm)) := congrArg Host.Outcome.next (addressed_of_match ha')
      _ = .next t := by rw [answers hcs, State.answer_again hanswer hcs]
  · rw [← ht, e] at hv
    cases hv
  · rw [← ht, e] at hv
    cases hv

/-- Settles O54: the second Read ends in the state it started from. -/
theorem readIsIdempotent : Obligations.ReadIsIdempotent :=
  fun _ t _ h hv _ hcs _ => ⟨t, exec_read_again h hv hcs, hv, rfl, hcs⟩

end Sys2Proof.Machine

/-! O59: power loss inside a Write (20_memory.md R66; 49_virtual_block_map.md R313; 70_reset_and_hazards.md R360, R361). -/

namespace Sys2Proof.Machine

/-! ### A block list and its data, parsed back -/

/-- A block list in front of other bytes parses to its own length and numbers (R262). -/
theorem parseList_listBytes (es : List BlockElement) (rest : List Byte) :
    parseList es.length (listBytes es ++ rest) = some ((listBytes es).length, es.map BlockElement.number) := by
  induction es with
  | nil => rfl
  | cons e es ih =>
    have hcons : listBytes (e :: es) = e.bytes ++ listBytes es := rfl
    rw [hcons, List.append_assoc]
    cases e <;> simp [BlockElement.bytes, BlockElement.number, parseList, ih]

theorem length_flatMap_blocks (vs : List Block) : (vs.flatMap Sized.toList).length = 16 * vs.length := by
  simp [List.length_flatMap, Nat.mul_comm]

/-- The data of block `j` stands behind that of the blocks before it (R98). -/
theorem dataBlock_flatMap (before : List Block) (v : Block) (after : List Block) :
    dataBlock ((before ++ v :: after).flatMap Sized.toList) before.length = v := by
  rw [dataBlock, List.flatMap_append, ← length_flatMap_blocks, List.drop_left, List.flatMap_cons, List.take_left' v.length_eq,
    Bytes.ofList_toList]

/-- Each number of a list is paired with its own data (R270). -/
theorem pairBlocks_flatMap (before vs : List Block) (bs : List Byte) (h : vs.length = bs.length) :
    pairBlocks ((before ++ vs).flatMap Sized.toList) before.length bs = bs.zip vs := by
  induction bs generalizing before vs with
  | nil => rfl
  | cons b bs ih =>
    match vs, h with
    | v :: vs, h =>
      have hrest := ih (before ++ [v]) vs (by simpa using h)
      rw [List.append_assoc, List.length_append] at hrest
      rw [pairBlocks, dataBlock_flatMap, List.zip_cons_cons]
      exact congrArg _ hrest

/-- The calls that a Write of a list and its data makes, one block after the other (R270). -/
abbrev updatesOf (es : List BlockElement) (vs : List Block) : List NvWrite :=
  (planWrites es.length (writesOf es vs)).1

/-- A Write that passes its checks ends where its calls are cut short, if they are (R270, R313). -/
theorem exec_write_cut {s t : State} {idm : Bytes 8} {svc : Code} {es : List BlockElement} {vs : List Block}
    (ha : s.AddressedBy idm) (h1 : 1 ≤ es.length) (h12 : es.length ≤ 12) (hv : vs.length = es.length)
    (hcut : nvUpdates (updatesOf es vs) (s.putHeader 0x08 idm) = .cut t) :
    exec (.write (.full idm (writeOf svc es vs))) s = .next t := by
  have hn : (writeOf svc es vs).n.toNat = es.length := Nat.mod_eq_of_lt (by omega)
  have hok : blockCountOk (writeOf svc es vs).n = true := (blockCountOk_iff _).mpr (by rw [CountOk, hn]; exact ⟨h1, h12⟩)
  have hpairs : pairBlocks (vs.flatMap Sized.toList) 0 (es.map BlockElement.number) = writesOf es vs :=
    pairBlocks_flatMap [] vs _ (by simpa using hv)
  have hparse := parseList_listBytes es (vs.flatMap Sized.toList)
  have hbody : (writeOf svc es vs).body = listBytes es ++ vs.flatMap Sized.toList := rfl
  refine congrArg Host.Outcome.next ((addressed_of_match ha).trans ?_)
  rw [writeCommand, if_neg (by simp [writeOf]), hok, if_neg (by simp), hn, hbody, hparse]
  simp only [List.length_append, List.drop_left, length_flatMap_blocks, hv, hpairs, hcut]
  exact if_neg (by omega)

/-! ### A reset between two updates -/

/-- A reset after the first of two or more calls: its update is done, and then power is lost (R66, R360). -/
theorem nvUpdates_cons_reset {u u' : NvWrite} {us : List NvWrite} {s : State} {store : List Bool}
    (h : takeAnswers 1 s.env.store = (true, store)) (hr : s.rstNow = true) :
    nvUpdates (u :: u' :: us) s = .cut (s.afterUpdates [u] store s.env.rst.tail).powerLoss := by
  have hu : (s.withSchedules store s.env.rst).nvUpdate u = (s.nvUpdate u).withSchedules store s.env.rst :=
    s.nvUpdate_withSchedules u _ _
  have hn : ((s.withSchedules store s.env.rst).nvUpdate u).rstNow = true := by rw [hu]; exact hr
  rw [nvUpdates, h]
  exact (if_pos hn).trans (congrArg (fun t => NvOutcome.cut (State.powerLoss (State.passBoundary t))) hu)

/-- Where the store answers and `rst` rises first after call `k + 1` of a longer sequence, the first `k + 1` updates are done, and
then power is lost (R66, R360). -/
theorem nvUpdates_of_reset {us : List NvWrite} {s : State} {k : Nat} {later : List Bool} (hs : false ∉ s.env.store)
    (hk : k + 1 < us.length) (hr : s.env.rst = List.replicate k false ++ true :: later) :
    nvUpdates us s = .cut (s.afterUpdates (us.take (k + 1)) (s.env.store.drop (k + 1)) later).powerLoss := by
  induction k generalizing us s with
  | zero =>
    match us, hk with
    | u :: u' :: us, _ =>
      rw [nvUpdates_cons_reset (takeAnswers_of_not_mem hs 1) (by rw [State.rstNow, hr]; rfl), hr]
      rfl
  | succ k ih =>
    match us, hk with
    | u :: u' :: us, hk =>
      have hrest := ih (us := u' :: us) (s := (s.nvUpdate u).withSchedules (s.env.store.drop 1) s.env.rst.tail)
        (fun hm => hs (List.mem_of_mem_drop hm)) (by simpa using hk) (by rw [hr]; rfl)
      rw [nvUpdates_cons_answered (takeAnswers_of_not_mem hs 1) (by rw [State.rstNow, hr]; rfl), hrest,
        State.afterUpdates_cons, State.withSchedules, List.drop_drop, Nat.add_comm 1]
      rfl

/-! ### Blocks stored one after the other -/

theorem Memory.read_writeBlock (m : Memory) (b : Nat) (v : Block) (a : Nat) :
    (m.writeBlock b v).read a = if a / 16 = b then v.at (a % 16) else m.read a := by
  split
  · next h =>
    have ha : a = 16 * b + a % 16 := by omega
    have hi : a % 16 < v.toList.length := by rw [v.length_eq]; omega
    conv_lhs => rw [ha]
    rw [Memory.writeBlock, Memory.read_writeBytes_inside _ _ _ _ hi, Bytes.at, List.getD_eq_getElem _ _ hi]
  · exact Memory.read_writeBlock_outside (by omega) m v

/-- The memory with blocks written in list order. -/
def Memory.writeBlocks (m : Memory) (writes : List (Byte × Block)) : Memory :=
  writes.foldl (fun m w => m.writeBlock w.1.toNat w.2) m

/-- Real blocks written in list order are stored, the last data for a block staying (R71, R311). -/
theorem storedBlocks_writeBlocks (m : Memory) {writes : List (Byte × Block)} (h : ∀ w ∈ writes, w.1.toNat < 12) :
    StoredBlocks m (m.writeBlocks writes) writes := by
  induction writes generalizing m with
  | nil => intro a; simp [Memory.writeBlocks, lastFor]
  | cons w writes ih =>
    obtain ⟨hw, hrest⟩ := List.forall_mem_cons.mp h
    intro a
    rw [show m.writeBlocks (w :: writes) = (m.writeBlock w.1.toNat w.2).writeBlocks writes from rfl, ih _ hrest a,
      Memory.read_writeBlock, lastFor]
    by_cases ha : a < 16 * 12
    · rw [if_pos ha, if_pos ha]
      cases lastFor (a / 16) writes with
      | some v => rfl
      | none =>
        by_cases hb : w.1.toNat = a / 16
        · simp [hb]
        · simp [hb, Ne.symm hb]
    · rw [if_neg ha, if_neg ha, if_neg (by omega)]

/-- The call that stores a real block (R311). -/
def blockUpdate (w : Byte × Block) : NvWrite := .blk w.1.toNat w.2

/-- A plan of real blocks is one call for each (R311). -/
theorem planWrites_of_real (n : Nat) {writes : List (Byte × Block)} (h : ∀ w ∈ writes, w.1.toNat < 12) :
    planWrites n writes = (writes.map blockUpdate, true) := by
  induction writes with
  | nil => rfl
  | cons w writes ih =>
    obtain ⟨hw, hrest⟩ := List.forall_mem_cons.mp h
    have hcall : memWrite w.1 w.2 n = some [blockUpdate w] := if_pos hw
    rw [planWrites, hcall, ih hrest]
    rfl

/-- Block updates change the blocks of the image, and nothing else in it (R66). -/
theorem foldl_blockUpdate_nv (writes : List (Byte × Block)) (s : State) :
    ((writes.map blockUpdate).foldl State.nvUpdate s).nv = { s.nv with blk := s.nv.blk.writeBlocks writes } := by
  induction writes generalizing s with
  | nil => rfl
  | cons w writes ih => exact ih (s.nvUpdate (blockUpdate w))

theorem afterUpdates_blockUpdate_nv (s : State) (writes : List (Byte × Block)) (store rst : List Bool) :
    (s.afterUpdates (writes.map blockUpdate) store rst).nv = { s.nv with blk := s.nv.blk.writeBlocks writes } :=
  foldl_blockUpdate_nv writes s

/-! ### A Write cut short -/

/-- A reset inside a Write: the first of its updates are done, and nothing is left of the command (R313, R360). -/
theorem exec_write_reset {s : State} {idm : Bytes 8} {svc : Code} {es : List BlockElement} {vs : List Block} {k : Nat}
    {later : List Bool} (ha : s.AddressedBy idm) (hs : false ∉ s.env.store) (h1 : 1 ≤ es.length) (h12 : es.length ≤ 12)
    (hv : vs.length = es.length) (hk : k + 1 < (updatesOf es vs).length)
    (hr : s.env.rst = List.replicate k false ++ true :: later) :
    exec (.write (.full idm (writeOf svc es vs))) s =
      .next (s.afterUpdates ((updatesOf es vs).take (k + 1)) (s.env.store.drop (k + 1)) later).powerLoss := by
  refine exec_write_cut ha h1 h12 hv ((nvUpdates_of_reset (s := s.putHeader 0x08 idm) hs hk hr).trans ?_)
  rw [State.putHeader, State.putRsp, afterUpdates_rsp]
  rfl

/-- LOAD moves the image where the store answers (R362). -/
theorem step_load_answered {s : State} (h : s.Runs) (hq : s.seq = .load) (hs : false ∉ s.env.store) :
    ∃ u, step s = .next u ∧ u.seq = .capture ∧ u.cs.idm = s.nv.idm ∧ u.cs.pmm = s.nv.pmm := by
  refine ⟨_, step_load h hq, ?_⟩
  have hans := takeAnswers_of_not_mem (l := s.passBoundary.env.store) hs loadCalls
  rw [loadStep, hans]
  exact ⟨rfl, rfl, rfl⟩

/-- A reset between the two updates of an identity write: the new IDm with the old PMm (R313). -/
theorem identityWrite_cut {s : State} {idm : Bytes 8} (svc : Code) {e : BlockElement} (v : Block) {later : List Bool}
    (ha : s.AddressedBy idm) (hs : false ∉ s.env.store) (he : e.number = 0x83) (hr : s.env.rst = true :: later) :
    exec (.write (.full idm (writeOf svc [e] [v]))) s =
      .next (s.afterUpdates [.idm (Bytes.ofList 8 (v.toList.take 8))] (s.env.store.drop 1) later).powerLoss := by
  have hplan : updatesOf [e] [v] = [.idm (Bytes.ofList 8 (v.toList.take 8)), .pmm (Bytes.ofList 8 (v.toList.drop 8))] := by
    simp [updatesOf, planWrites, writesOf, he, memWrite, Config.nBlocks]
  have h := exec_write_reset (svc := svc) (es := [e]) (vs := [v]) (k := 0) ha hs (by simp) (by simp) rfl
    (by rw [hplan]; simp) hr
  rw [hplan] at h
  exact h

/-- A reset inside a Write of real blocks: the updates that were complete (R66, R360). -/
theorem blockWrite_cut {s : State} {idm : Bytes 8} (svc : Code) {es : List BlockElement} {vs : List Block} {k : Nat}
    {later : List Bool} (ha : s.AddressedBy idm) (hs : false ∉ s.env.store) (h12 : es.length ≤ 12)
    (hv : vs.length = es.length) (hreal : ∀ w ∈ writesOf es vs, w.1.toNat < 12) (hk : k + 1 < es.length)
    (hr : s.env.rst = List.replicate k false ++ true :: later) :
    exec (.write (.full idm (writeOf svc es vs))) s =
      .next (s.afterUpdates (((writesOf es vs).take (k + 1)).map blockUpdate) (s.env.store.drop (k + 1)) later).powerLoss := by
  have hplan : updatesOf es vs = (writesOf es vs).map blockUpdate := congrArg Prod.fst (planWrites_of_real _ hreal)
  have hlen : (updatesOf es vs).length = es.length := by rw [hplan]; simp [writesOf, hv]
  rw [exec_write_reset ha hs (by omega) h12 hv (hlen ▸ hk) hr, hplan, List.map_take]

/-- Settles O59: one update of two is done for an identity write, and `k + 1` of the block updates for a Write of real blocks. -/
theorem writeCutByPowerLoss : Obligations.WriteCutByPowerLoss := by
  intro s idm svc ha hs
  refine ⟨fun e v later he hr hlater => ?_, fun es vs k later h12 hv hes hk hr => ?_⟩
  · have hload := step_load_answered
      (s := (s.afterUpdates [.idm (Bytes.ofList 8 (v.toList.take 8))] (s.env.store.drop 1) later).powerLoss)
      (State.runs_of_noReset hlater rfl) rfl fun hm => hs (List.mem_of_mem_drop hm)
    obtain ⟨u, hu, hseq, hidm, hpmm⟩ := hload
    exact ⟨_, u, identityWrite_cut svc v ha hs he hr, rfl, rfl, rfl, rfl, hu, hseq, hidm, hpmm⟩
  · have hreal : ∀ w ∈ writesOf es vs, w.1.toNat < 12 := by
      intro w hw
      obtain ⟨e, he, hnumber⟩ := List.mem_map.mp (List.of_mem_zip hw).1
      exact hnumber ▸ hes e he
    refine ⟨_, blockWrite_cut svc ha hs h12 hv hreal hk hr, rfl, rfl, ?_, ?_, ?_⟩
    · rw [State.powerLoss_nv, afterUpdates_blockUpdate_nv]
    · rw [State.powerLoss_nv, afterUpdates_blockUpdate_nv]
      exact storedBlocks_writeBlocks s.nv.blk fun w hw => hreal w (List.mem_of_mem_take hw)
    · rw [State.powerLoss_cs, State.afterUpdates_frame]
      rfl

end Sys2Proof.Machine

/-! The decoder and the encoder of command packets are inverse (30_encoding.md R92 to R97). -/

namespace Sys2Proof

/-! ### Which row a packet selects -/

/-- The table's parity mask reads bit 0 of the code (R96). -/
theorem and_one_eq_zero_iff (c : Byte) : c &&& 1 = 0 ↔ c.getLsbD 0 = false := by
  refine ⟨fun h => ?_, Laws.RowMatch.even_code c⟩
  by_contra hc
  have h1 := (Laws.RowMatch.odd_code c (by simpa using hc)).1
  exact absurd (h.symm.trans h1) (by decide)

/-- Where a body starts with a zero byte; the filler of an empty one is 0xFF (R97). -/
theorem headD_eq_zero_iff (body : List Byte) : body.headD 0xFF = 0x00 ↔ body.head? = some 0x00 := by
  cases body <;> simp

theorem isUnsupportedEven_iff (code first : Byte) :
    isUnsupportedEven code first = true ↔
      code.getLsbD 0 = false ∧ code ∉ ([0x00, 0x02, 0x04, 0x06, 0x08, 0x0A, 0x0C, 0x10] : List Byte) ∧
        ¬ (code = 0xF0 ∧ first = 0x00) := by
  simp only [isUnsupportedEven, Bool.and_eq_true, Bool.not_eq_true', ← Bool.not_eq_true, beq_iff_eq, List.contains_iff_mem,
    and_assoc]

/-- What a row says of the code and of the byte after it (R96, R225). -/
def Row.Admits (code first : Byte) : Row → Prop
  | .poll => code = 0x00
  | .echo => code = 0xF0 ∧ first = 0x00
  | .reqsvc => code = 0x02
  | .reqrsp => code = 0x04
  | .read => code = 0x06
  | .write => code = 0x08
  | .search => code = 0x0A
  | .reqsys => code = 0x0C
  | .auth1 => code = 0x10
  | .unsupportedEven => isUnsupportedEven code first = true
  | .oddCode => code.getLsbD 0 = true

/-- One line of the table: it selects its row, or the lines after it select one. -/
theorem of_ite_eq_some {P : Row → Prop} {p : Prop} [Decidable p] {r r' : Row} {later : Option Row}
    (h : (if p then some r' else later) = some r) (here : p → P r') (rest : ¬ p → later = some r → P r) : P r := by
  by_cases hp : p
  · rw [if_pos hp] at h
    cases h
    exact here hp
  · rw [if_neg hp] at h
    exact rest hp h

/-- A row is selected only by a code it admits; a catch-all row by none of an earlier row (R97). -/
theorem admits_of_rowOf {code : Byte} {body : List Byte} {r : Row} (h : rowOf (decodeWord code body) = some r) :
    r.Admits code (body.headD 0xFF) := by
  rw [decodeWord, rowOf_append] at h
  refine of_ite_eq_some (P := Row.Admits code (body.headD 0xFF)) h id fun h00 h => ?_
  refine of_ite_eq_some h id fun hF0 h => ?_
  refine of_ite_eq_some h id fun h02 h => ?_
  refine of_ite_eq_some h id fun h04 h => ?_
  refine of_ite_eq_some h id fun h06 h => ?_
  refine of_ite_eq_some h id fun h08 h => ?_
  refine of_ite_eq_some h id fun h0A h => ?_
  refine of_ite_eq_some h id fun h0C h => ?_
  refine of_ite_eq_some h id fun h10 h => ?_
  refine of_ite_eq_some h (fun heven => ?_) fun hodd h => ?_
  · refine (isUnsupportedEven_iff _ _).mpr ⟨(and_one_eq_zero_iff code).mp heven, ?_, hF0⟩
    simp only [List.mem_cons, List.not_mem_nil, or_false, not_or]
    exact ⟨h00, h02, h04, h06, h08, h0A, h0C, h10⟩
  · exact of_ite_eq_some h (fun _ => Bool.of_not_eq_false (hodd ∘ (and_one_eq_zero_iff code).mpr)) nofun

/-- Settles O5: no row of its own has an odd code, and for an even code the table's order is the one of R96. -/
theorem rowSelection : Obligations.RowSelection := by
  intro code body
  rw [decodeWord, rowOf_append]
  simp only [headD_eq_zero_iff]
  cases hodd : code.getLsbD 0
  · simp only [Laws.RowMatch.even_code code hodd, Bool.false_eq_true, if_false, if_true, apply_ite some]
  · obtain ⟨hlow, h00, hF0, h02, h04, h06, h08, h0A, h0C, h10⟩ := Laws.RowMatch.odd_code code hodd
    have hlow' : ¬ code &&& 1 = 0 := by rw [hlow]; decide
    simp only [h00, hF0, h02, h04, h06, h08, h0A, h0C, h10, hlow', false_and, if_false, if_true]
    exact if_pos hlow

/-! ### The operands of an addressed command -/

section

variable {β : Type} {dec : List Byte → Option β} {enc : β → List Byte} {need : Nat} {okOps : β → Bool} {opsLen : β → Nat}

/-- A command's own operands, from `CMD[10]` on: they decode where the bytes are enough, and no byte is lost (R95). -/
structure OperandCodec (dec : List Byte → Option β) (enc : β → List Byte) (need : Nat) (okOps : β → Bool)
    (opsLen : β → Nat) : Prop where
  decode_eq_some : ∀ bytes o, dec bytes = some o ↔ bytes = enc o ∧ okOps o = true
  decode_eq_none : ∀ bytes, dec bytes = none ↔ bytes.length < need
  length_encode : ∀ o, (enc o).length = opsLen o

theorem decodeAddressed_of_length_lt {body : List Byte} (h : body.length < 8) : decodeAddressed dec body = .noIdm body :=
  if_pos h

theorem decodeAddressed_short {rest : List Byte} (idm : Bytes 8) (h : dec rest = none) :
    decodeAddressed dec (idm.toList ++ rest) = .short idm rest := by
  simp [decodeAddressed, h]

theorem decodeAddressed_full {rest : List Byte} {o : β} (idm : Bytes 8) (h : dec rest = some o) :
    decodeAddressed dec (idm.toList ++ rest) = .full idm o := by
  simp [decodeAddressed, h]

/-- A body has no whole IDm, or is an IDm and what follows it (R94). -/
theorem length_lt_or_eq_idm_append (body : List Byte) :
    body.length < 8 ∨ ∃ (idm : Bytes 8) (rest : List Byte), body = idm.toList ++ rest := by
  by_cases h : body.length < 8
  · exact .inl h
  · exact .inr ⟨⟨body.take 8, by simp; omega⟩, body.drop 8, (List.take_append_drop 8 body).symm⟩

namespace OperandCodec

theorem decodeAddressed_encodeAddressed (c : OperandCodec dec enc need okOps opsLen) {a : Addressed β}
    (h : a.wellFormed need okOps opsLen = true) : decodeAddressed dec (encodeAddressed enc a) = a := by
  cases a with
  | noIdm bytes => exact decodeAddressed_of_length_lt (of_decide_eq_true h)
  | short idm bytes => exact decodeAddressed_short idm ((c.decode_eq_none _).mpr (of_decide_eq_true h))
  | full idm o =>
    have hok : okOps o = true := (Bool.and_eq_true_iff.mp h).1
    exact decodeAddressed_full idm ((c.decode_eq_some _ _).mpr ⟨rfl, hok⟩)

/-- What a body decodes to gives its bytes back, and is well-formed where the packet fits (R92, R95, R182). -/
theorem decodeAddressed_sound (c : OperandCodec dec enc need okOps opsLen) (body : List Byte) :
    encodeAddressed enc (decodeAddressed dec body) = body ∧
      (body.length ≤ 251 → (decodeAddressed dec body).wellFormed need okOps opsLen = true) := by
  rcases length_lt_or_eq_idm_append body with h | ⟨idm, rest, rfl⟩
  · rw [decodeAddressed_of_length_lt h]
    exact ⟨rfl, fun _ => decide_eq_true h⟩
  cases hr : dec rest with
  | none =>
    rw [decodeAddressed_short idm hr]
    exact ⟨rfl, fun _ => decide_eq_true ((c.decode_eq_none rest).mp hr)⟩
  | some o =>
    obtain ⟨rfl, hok⟩ := (c.decode_eq_some rest o).mp hr
    rw [decodeAddressed_full idm hr]
    refine ⟨rfl, fun hl => ?_⟩
    rw [List.length_append, Sized.length_toList, c.length_encode] at hl
    have hm : Config.maxL = 253 := rfl
    exact Bool.and_eq_true_iff.mpr ⟨hok, decide_eq_true (by omega)⟩

end OperandCodec

end

/-- The bytes after the IDm that no command reads (R226). -/
theorem bareCodec : OperandCodec some id 0 (fun _ => true) List.length where
  decode_eq_some := by simp
  decode_eq_none := by simp
  length_encode _ := rfl

theorem reqSvcCodec :
    OperandCodec decodeReqSvcOps (fun o => o.n :: o.nodes) 1 (fun _ => true) (fun o => 1 + o.nodes.length) where
  decode_eq_some bytes o := by cases bytes <;> cases o <;> simp [decodeReqSvcOps]
  decode_eq_none bytes := by cases bytes <;> simp [decodeReqSvcOps]
  length_encode o := by simp only [List.length_cons]; omega

theorem searchCodec :
    OperandCodec decodeSearchOps (fun o => o.lo :: o.hi :: o.unread) 2 (fun _ => true) (fun o => 2 + o.unread.length) where
  decode_eq_some bytes o := by
    rcases bytes with _ | ⟨lo, _ | ⟨hi, unread⟩⟩ <;> cases o <;> simp [decodeSearchOps]
  decode_eq_none bytes := by
    rcases bytes with _ | ⟨lo, _ | ⟨hi, unread⟩⟩ <;> simp [decodeSearchOps]
  length_encode o := by simp only [List.length_cons]; omega

theorem readCodec :
    OperandCodec decodeReadOps (fun o => o.m :: o.svc.b0 :: o.svc.b1 :: o.n :: o.list) 6 (fun o => 2 ≤ o.list.length)
      (fun o => 4 + o.list.length) where
  decode_eq_some bytes o := by
    constructor
    · intro h
      match bytes, h with
      | m :: v0 :: v1 :: n :: list, h =>
        obtain ⟨hl, ho⟩ := Option.ite_none_right_eq_some.mp h
        cases ho
        exact ⟨rfl, decide_eq_true hl⟩
    · rintro ⟨rfl, hl⟩
      exact if_pos (of_decide_eq_true hl)
  decode_eq_none bytes := by
    rcases bytes with _ | ⟨m, _ | ⟨v0, _ | ⟨v1, _ | ⟨n, list⟩⟩⟩⟩ <;> simp [decodeReadOps]
    omega
  length_encode o := by simp only [List.length_cons]; omega

theorem writeCodec :
    OperandCodec decodeWriteOps (fun o => o.m :: o.svc.b0 :: o.svc.b1 :: o.n :: o.body) 22 (fun o => 18 ≤ o.body.length)
      (fun o => 4 + o.body.length) where
  decode_eq_some bytes o := by
    constructor
    · intro h
      match bytes, h with
      | m :: v0 :: v1 :: n :: body, h =>
        obtain ⟨hl, ho⟩ := Option.ite_none_right_eq_some.mp h
        cases ho
        exact ⟨rfl, decide_eq_true hl⟩
    · rintro ⟨rfl, hl⟩
      exact if_pos (of_decide_eq_true hl)
  decode_eq_none bytes := by
    rcases bytes with _ | ⟨m, _ | ⟨v0, _ | ⟨v1, _ | ⟨n, body⟩⟩⟩⟩ <;> simp [decodeWriteOps]
    omega
  length_encode o := by simp only [List.length_cons]; omega

/-! ### The instruction of a row -/

theorem decodePollOps_sound (body : List Byte) :
    (Instr.poll (decodePollOps body)).body = body ∧
      (body.length ≤ 251 → (Instr.poll (decodePollOps body)).WellFormed) := by
  rcases body with _ | ⟨s0, _ | ⟨s1, _ | ⟨rc, unread⟩⟩⟩
  · exact ⟨rfl, fun _ => rfl⟩
  · exact ⟨rfl, fun _ => rfl⟩
  · exact ⟨rfl, fun _ => rfl⟩
  · have hm : Config.maxL = 253 := rfl
    refine ⟨rfl, fun hl => decide_eq_true (?_ : 5 + unread.length ≤ Config.maxL)⟩
    simp only [List.length_cons] at hl
    omega

theorem code_decodeRow {r : Row} {code first : Byte} (h : r.Admits code first) (body : List Byte) :
    (decodeRow r code body).code = code := by
  cases r
  case echo => exact h.1.symm
  case unsupportedEven | oddCode => rfl
  all_goals exact Eq.symm h

/-- What a row's packet decodes to holds every byte of the packet, and is well-formed where the packet fits (R92, R95, R182). -/
theorem decodeRow_sound {r : Row} {code : Byte} {body : List Byte} (h : r.Admits code (body.headD 0xFF)) :
    (decodeRow r code body).body = body ∧ (body.length ≤ 251 → (decodeRow r code body).WellFormed) := by
  cases r with
  | poll => exact decodePollOps_sound body
  | echo =>
    obtain ⟨rest, rfl⟩ := List.head?_eq_some_iff.mp ((headD_eq_zero_iff body).mp h.2)
    have hm : Config.maxL = 253 := rfl
    refine ⟨rfl, fun hl => decide_eq_true (?_ : 3 + rest.length ≤ Config.maxL)⟩
    rw [List.length_cons] at hl
    omega
  | reqsvc => exact reqSvcCodec.decodeAddressed_sound body
  | reqrsp => exact bareCodec.decodeAddressed_sound body
  | read => exact readCodec.decodeAddressed_sound body
  | write => exact writeCodec.decodeAddressed_sound body
  | search => exact searchCodec.decodeAddressed_sound body
  | reqsys => exact bareCodec.decodeAddressed_sound body
  | auth1 => exact bareCodec.decodeAddressed_sound body
  | unsupportedEven =>
    obtain ⟨hbody, hwf⟩ := bareCodec.decodeAddressed_sound body
    refine ⟨hbody, fun hl => Bool.and_eq_true_iff.mpr ⟨hwf hl, ?_⟩⟩
    rwa [← Laws.headD_encodeAddressed (enc := id), hbody]
  | oddCode =>
    obtain ⟨hbody, hwf⟩ := bareCodec.decodeAddressed_sound body
    exact ⟨hbody, fun hl => Bool.and_eq_true_iff.mpr ⟨hwf hl, h⟩⟩

/-- A row's decoder undoes the encoding of its well-formed instructions (R95). -/
theorem decodeRow_code_body {i : Instr} (h : i.WellFormed) : decodeRow (Laws.RowMatch.row i) i.code i.body = i := by
  cases i with
  | poll ops =>
    cases ops with
    | short bytes =>
      rcases bytes with _ | ⟨b0, _ | ⟨b1, _ | ⟨b2, rest⟩⟩⟩
      · rfl
      · rfl
      · rfl
      · have hl : rest.length + 3 < 3 := of_decide_eq_true h
        omega
    | full sys rc unread => rfl
  | echo data => rfl
  | reqsvc a => exact congrArg Instr.reqsvc (reqSvcCodec.decodeAddressed_encodeAddressed h)
  | reqrsp a => exact congrArg Instr.reqrsp (bareCodec.decodeAddressed_encodeAddressed h)
  | read a => exact congrArg Instr.read (readCodec.decodeAddressed_encodeAddressed h)
  | write a => exact congrArg Instr.write (writeCodec.decodeAddressed_encodeAddressed h)
  | search a => exact congrArg Instr.search (searchCodec.decodeAddressed_encodeAddressed h)
  | reqsys a => exact congrArg Instr.reqsys (bareCodec.decodeAddressed_encodeAddressed h)
  | auth1 a => exact congrArg Instr.auth1 (bareCodec.decodeAddressed_encodeAddressed h)
  | unsupportedEven code a =>
    exact congrArg (Instr.unsupportedEven code)
      (bareCodec.decodeAddressed_encodeAddressed (Bool.and_eq_true_iff.mp h).1)
  | oddCode code a =>
    exact congrArg (Instr.oddCode code) (bareCodec.decodeAddressed_encodeAddressed (Bool.and_eq_true_iff.mp h).1)

/-! ### Whole packets -/

/-- The decode word of a well-formed instruction selects its own row (R97). -/
theorem rowOf_of_wellFormed {i : Instr} (h : i.WellFormed) :
    rowOf (decodeWord i.code i.body) = some (Laws.RowMatch.row i) := by
  cases i with
  | poll ops => exact Laws.RowMatch.poll ops h
  | echo data => exact Laws.RowMatch.echo data h
  | reqsvc a => exact Laws.RowMatch.reqsvc a h
  | reqrsp a => exact Laws.RowMatch.reqrsp a h
  | read a => exact Laws.RowMatch.read a h
  | write a => exact Laws.RowMatch.write a h
  | search a => exact Laws.RowMatch.search a h
  | reqsys a => exact Laws.RowMatch.reqsys a h
  | auth1 a => exact Laws.RowMatch.auth1 a h
  | unsupportedEven code a => exact Laws.RowMatch.unsupportedEven code a h
  | oddCode code a => exact Laws.RowMatch.oddCode code a h

/-- A well-formed instruction fits the packet register (R92, R182). -/
theorem length_encode_le {i : Instr} (h : i.WellFormed) : (encode i).length ≤ 253 := by
  cases i with
  | poll ops => exact (Laws.EncodedLength.poll ops h).2
  | echo data => exact (Laws.EncodedLength.echo data h).2
  | reqsvc a => exact (Laws.EncodedLength.reqsvc a h).2
  | reqrsp a => exact (Laws.EncodedLength.reqrsp a h).2
  | read a => exact (Laws.EncodedLength.read a h).2
  | write a => exact (Laws.EncodedLength.write a h).2
  | search a => exact (Laws.EncodedLength.search a h).2
  | reqsys a => exact (Laws.EncodedLength.reqsys a h).2
  | auth1 a => exact (Laws.EncodedLength.auth1 a h).2
  | unsupportedEven code a => exact (Laws.EncodedLength.unsupportedEven code a h).2
  | oddCode code a => exact (Laws.EncodedLength.oddCode code a h).2

/-- The two catch-all rows leave no decode word over (R97). -/
theorem exists_rowOf (w : Word) : ∃ r, rowOf w = some r := Option.ne_none_iff_exists'.mp (Machine.rowOf_ne_none w)

/-- A packet whose first byte is its length decodes by the row that its code selects (R92, R97). -/
theorem decode_of_rowOf {len code : Byte} {body : List Byte} {r : Row} (hl : len.toNat = body.length + 2)
    (hr : rowOf (decodeWord code body) = some r) : decode (len :: code :: body) = .ok (decodeRow r code body) := by
  rw [decode, if_neg (not_not.mpr hl), hr]

/-- What decodes is a length byte, a code that a row admits, and the body that the row decodes. -/
theorem exists_row_of_decode {bytes : List Byte} {i : Instr} (h : decode bytes = .ok i) :
    ∃ len code body r, bytes = len :: code :: body ∧ len.toNat = body.length + 2 ∧ r.Admits code (body.headD 0xFF) ∧
      i = decodeRow r code body := by
  match bytes, h with
  | len :: code :: body, h =>
    by_cases hl : len.toNat = body.length + 2
    · obtain ⟨r, hr⟩ := exists_rowOf (decodeWord code body)
      rw [decode_of_rowOf hl hr] at h
      exact ⟨len, code, body, r, rfl, hl, admits_of_rowOf hr, (Except.ok.inj h).symm⟩
    · rw [decode, if_pos hl] at h
      cases h

/-- Settles O1: the length byte is the packet's length, the code selects the row, and the row's operands are a codec. -/
theorem decodeEncode : Obligations.DecodeEncode := by
  intro i h
  calc decode (encode i)
      = .ok (decodeRow (Laws.RowMatch.row i) i.code i.body) :=
        decode_of_rowOf (Machine.headD_encode (length_encode_le h)) (rowOf_of_wellFormed h)
    _ = .ok i := congrArg _ (decodeRow_code_body h)

/-- Settles O2: the row gives back code and body, and the length byte was checked. -/
theorem encodeDecode : Obligations.EncodeDecode := by
  intro bytes i h
  obtain ⟨len, code, body, r, rfl, hl, hr, rfl⟩ := exists_row_of_decode h
  rw [encode, code_decodeRow hr, (decodeRow_sound hr).1, ← hl, BitVec.ofNat_toNat, BitVec.setWidth_eq]

/-- Settles O3: the row that was selected admits the code, and the body has at most 251 bytes. -/
theorem decodedIsWellFormed : Obligations.DecodedIsWellFormed := by
  intro bytes i hlen h
  obtain ⟨len, code, body, r, rfl, -, hr, rfl⟩ := exists_row_of_decode h
  exact (decodeRow_sound hr).2 (by simp only [List.length_cons] at hlen; omega)

/-- Settles O4: beyond the length byte nothing is checked, since every decode word selects a row. -/
theorem decodeAnswersEveryPacket : Obligations.DecodeAnswersEveryPacket := by
  intro bytes
  refine ⟨fun ⟨i, h⟩ => Machine.length_of_decode h, fun ⟨h2, hl⟩ => ?_⟩
  match bytes, h2, hl with
  | len :: code :: body, _, hl =>
    obtain ⟨r, hr⟩ := exists_rowOf (decodeWord code body)
    exact ⟨_, decode_of_rowOf hl hr⟩

/-- Settles O6: the decoder runs on each of the six packets. -/
theorem specPacketsDecode : Obligations.SpecPacketsDecode := ⟨rfl, rfl, rfl, rfl, rfl, rfl⟩

end Sys2Proof

/-! No step traps, and the header of an addressed reply (30_encoding.md R94, R102; 46_command_dispatcher.md R228). -/

namespace Sys2Proof.Machine

/-! ### Nothing traps -/

/-- The command register holds a whole packet: its first byte is its length (R25). -/
theorem State.Inv.headD_packet {s : State} (h : s.Inv) (hl : 2 ≤ s.packet.length) :
    (s.packet.headD 0).toNat = s.packet.length := by
  have hle := s.length_packet_le
  obtain h0 | ⟨hlen, hmax⟩ := h.command
  · omega
  have hfull : s.packet.length = s.cmdLen := by
    have hm : Config.maxL = 253 := rfl
    rw [State.packet, List.length_take, Sized.length_toList]
    exact Nat.min_eq_left (by simp only [Config.packetBuf]; omega)
  have hfirst : s.packet.headD 0 = s.cmd.at 0 := by
    rw [State.packet, List.headD_eq_head?_getD, List.head?_take, if_neg (by omega), List.head?_eq_getElem?, Bytes.at_eq_getD]
  rw [hfirst, hlen, hfull]

/-- DISPATCH never meets a malformed command register (R25, R102). -/
theorem State.Inv.exists_dispatchStep {s : State} (h : s.Inv) : ∃ t, Machine.dispatchStep s = .next t := by
  rcases dispatchStep_cases s with ⟨i, -, e⟩ | ⟨-, e⟩ | ⟨hl, hne, -⟩
  · obtain ⟨t, ht, -⟩ := exec_cases i s
    exact ⟨t, e.trans ht⟩
  · exact ⟨_, e⟩
  · exact absurd (h.headD_packet hl) hne

/-- Settles O14: only DISPATCH could fault, and the invariant keeps the command register well-formed. -/
theorem nothingTraps : Obligations.NothingTraps := by
  intro s h
  by_cases hrst : s.rstNow = true
  · exact ⟨_, step_of_rstNow hrst⟩
  have hlow : s.rstNow = false := by simpa using hrst
  by_cases hwait : s.waiting = true
  · exact ⟨_, step_of_waiting hlow hwait⟩
  have hruns : s.Runs := ⟨hlow, by simpa using hwait⟩
  cases hq : s.seq with
  | load => exact ⟨_, step_load hruns hq⟩
  | capture => exact ⟨_, step_capture hruns hq⟩
  | sync => exact ⟨_, step_sync hruns hq⟩
  | assemble => exact ⟨_, step_assemble hruns hq⟩
  | dispatch => rw [step_dispatch hruns hq]; exact h.passBoundary.exists_dispatchStep
  | transmit => exact ⟨_, step_transmit hruns hq⟩
  | delay => exact ⟨_, step_delay hruns hq⟩

/-! ### The header of an addressed reply -/

/-- RSP holds the header of an addressed reply (R93, R94). -/
def State.HasHeader (s : State) (code : Byte) (idm : Bytes 8) : Prop := s.rsp.Has 1 ((code + 1) :: idm.toList)

/-- A handler that answers leaves the header as the dispatcher wrote it (R228). -/
def KeepsHeader (handler : State → State) : Prop :=
  ∀ {s : State} {code : Byte} {idm : Bytes 8}, s.HasHeader code idm → s.rspValid = false → (handler s).rspValid = true →
    (handler s).HasHeader code idm

section

variable {s : State} {code : Byte} {idm : Bytes 8}

theorem State.hasHeader_putHeader (s : State) (code : Byte) (idm : Bytes 8) : (s.putHeader code idm).HasHeader code idm :=
  Sized.has_overlay_same (by simp [Config.packetBuf])

namespace State.HasHeader

/-- A command writes its operands behind the IDm. -/
theorem putRsp (h : s.HasHeader code idm) {pos : Nat} (hp : 10 ≤ pos) (xs : List Byte) :
    (s.putRsp pos xs).HasHeader code idm :=
  Sized.has_overlay_disjoint h (.inr (by simpa using hp)) (by simp [Config.packetBuf])

/-- The length byte stands before the header. -/
theorem putLength (h : s.HasHeader code idm) (len : Nat) : (s.putLength len).HasHeader code idm :=
  Sized.has_overlay_disjoint h (.inl (by simp)) (by simp [Config.packetBuf])

theorem statusFail (h : s.HasHeader code idm) (f : StatusFailure) : (s.statusFail f).HasHeader code idm :=
  (putLength (s := s.logError) h 12).putRsp (Nat.le_refl 10) [0xFF, f.flag2]

theorem readBlocks (h : s.HasHeader code idm) (bs : List Byte) (j : Nat) : (readBlocks bs j s).2.HasHeader code idm := by
  induction bs generalizing s j with
  | nil => exact h
  | cons b bs ih =>
    rw [Machine.readBlocks]
    cases memRead s.cs b with
    | none => exact h
    | some d => exact ih (h.putRsp (by omega) d.toList) (j + 1)

/-- Updates of the store leave RSP as it is (R66). -/
theorem afterUpdates (h : s.HasHeader code idm) (us : List NvWrite) (store rst : List Bool) :
    (s.afterUpdates us store rst).HasHeader code idm := by
  rw [State.afterUpdates_frame]
  exact h

/-- The reply's header as bytes of RSP and of the packet (R94, R228). -/
theorem bytes (h : s.HasHeader code idm) : s.rsp.at 1 = code + 1 ∧ (s.rsp.toList.drop 2).take 8 = idm.toList := by
  have hseg : (s.rsp.toList.drop 1).take 9 = (code + 1) :: idm.toList := by
    simpa [State.HasHeader, Sized.Has] using h
  constructor
  · have hcode : ((s.rsp.toList.drop 1).take 9)[0]? = some (code + 1) := by rw [hseg]; rfl
    rw [List.getElem?_take_of_lt (by omega), List.getElem?_drop] at hcode
    rw [Bytes.at_eq_getD, hcode]
    rfl
  · have hidm := congrArg (List.drop 1) hseg
    rwa [List.drop_take, List.drop_drop] at hidm

end State.HasHeader

end

theorem keepsHeader_noResponse : KeepsHeader State.noResponse := nofun

theorem keepsHeader_requestResponse : KeepsHeader requestResponse := fun h _ _ => (h.putLength 11).putRsp (by omega) _

theorem keepsHeader_requestService (ops : ReqSvcOps) : KeepsHeader (requestService ops) := by
  intro s code idm h _ hv
  rw [requestService] at hv ⊢
  split at hv
  · next hn =>
    rw [if_pos hn]
    exact ((h.putLength _).putRsp (by omega) _).putRsp (by omega) _
  · cases hv

theorem keepsHeader_searchServiceCode (ops : SearchOps) : KeepsHeader (searchServiceCode ops) :=
  fun h _ _ => (h.putLength 12).putRsp (by omega) _

theorem keepsHeader_requestSystemCode : KeepsHeader requestSystemCode := by
  intro s code idm h _ hv
  rw [requestSystemCode] at hv ⊢
  by_cases hk : s.cs.sys.activeLen = 0
  · rw [if_pos hk] at hv
    cases hv
  · rw [if_neg hk]
    exact ((h.putLength _).putRsp (by omega) _).putRsp (by omega) _

theorem keepsHeader_readCommand (ops : ReadOps) : KeepsHeader (readCommand ops) := by
  intro s code idm h _ _
  unfold readCommand
  split
  · exact h.statusFail _
  split
  · exact h.statusFail _
  split
  · exact h.statusFail _
  split
  · exact h.statusFail _
  next bs _ =>
  have hread := h.readBlocks bs 0
  split
  · next u hu =>
    rw [hu] at hread
    exact hread.statusFail _
  · next u hu =>
    rw [hu] at hread
    exact ((hread.putLength _).putRsp (Nat.le_refl 10) [0x00, 0x00]).putRsp (by omega) _

theorem keepsHeader_writeCommand (ops : WriteOps) : KeepsHeader (writeCommand ops) := by
  intro s code idm h hs
  unfold writeCommand
  split
  · exact fun _ => h.statusFail _
  split
  · exact fun _ => h.statusFail _
  split
  · exact fun _ => h.statusFail _
  next used bs _ =>
  split
  · exact nofun
  generalize planWrites ops.n.toNat (pairBlocks (ops.body.drop used) 0 bs) = plan
  rcases nvUpdates_cases plan.1 s with ⟨store, rst, e⟩ | ⟨k, store, rst, -, ⟨-, e⟩ | ⟨-, e⟩⟩ <;> rw [e]
  · have hdone := h.afterUpdates plan.1 store rst
    simp only
    split
    · exact fun _ => (hdone.putLength 12).putRsp (Nat.le_refl 10) [0x00, 0x00]
    · exact fun _ => hdone.statusFail _
  · exact nofun
  · intro hv
    rw [State.hang_rspValid, State.afterUpdates_frame] at hv
    exact absurd hv (by simp [hs])

/-- An addressed command that answers has a whole IDm, and its reply the header for it (R228). -/
theorem hasHeader_of_addressed {β : Type} {handler : β → State → State} (hk : ∀ ops, KeepsHeader (handler ops)) {code : Byte}
    {a : Addressed β} {s : State} (hs : s.rspValid = false) (hv : (addressed code handler a s).rspValid = true) :
    ∃ idm, idmOf a = some idm ∧ (addressed code handler a s).HasHeader code idm := by
  rcases addressed_cases code handler a s with ⟨idm, ops, rfl, -, e⟩ | ⟨idm, bytes, -, -, e⟩ | e <;> rw [e] at hv ⊢
  · exact ⟨idm, rfl, hk ops (s.hasHeader_putHeader code idm) hs hv⟩
  · cases hv
  · cases hv

/-- The first eight bytes after the code are the IDm, where there is a whole one (R94). -/
theorem take_encodeAddressed {β : Type} {enc : β → List Byte} {a : Addressed β} {idm : Bytes 8} (h : idmOf a = some idm) :
    (encodeAddressed enc a).take 8 = idm.toList := by
  cases a <;> cases h <;> exact List.take_left' idm.length_toList

theorem replyHeader_of_addressed {β : Type} {handler : β → State → State} (hk : ∀ ops, KeepsHeader (handler ops))
    (enc : β → List Byte) {code : Byte} {a : Addressed β} {s t : State} (hs : s.rspValid = false)
    (ht : addressed code handler a s = t) (hv : t.rspValid = true) :
    t.rsp.at 1 = code + 1 ∧ (t.rsp.toList.drop 2).take 8 = (encodeAddressed enc a).take 8 := by
  rw [← ht] at hv ⊢
  obtain ⟨idm, ha, hheader⟩ := hasHeader_of_addressed hk hs hv
  rw [take_encodeAddressed ha]
  exact hheader.bytes

/-- Settles O20: the dispatcher writes the header, and every handler that answers keeps it. -/
theorem addressedReplyHeader : Obligations.AddressedReplyHeader := by
  intro i s t hpoll hecho hs ht hv
  cases i with
  | poll ops => exact absurd rfl (hpoll ops)
  | echo data => exact absurd rfl (hecho data)
  | reqsvc a => exact replyHeader_of_addressed keepsHeader_requestService _ hs (Host.Outcome.next.inj ht) hv
  | reqrsp a => exact replyHeader_of_addressed (fun _ => keepsHeader_requestResponse) _ hs (Host.Outcome.next.inj ht) hv
  | read a => exact replyHeader_of_addressed keepsHeader_readCommand _ hs (Host.Outcome.next.inj ht) hv
  | write a => exact replyHeader_of_addressed keepsHeader_writeCommand _ hs (Host.Outcome.next.inj ht) hv
  | search a => exact replyHeader_of_addressed keepsHeader_searchServiceCode _ hs (Host.Outcome.next.inj ht) hv
  | reqsys a => exact replyHeader_of_addressed (fun _ => keepsHeader_requestSystemCode) _ hs (Host.Outcome.next.inj ht) hv
  | auth1 a => exact replyHeader_of_addressed (fun _ => keepsHeader_noResponse) _ hs (Host.Outcome.next.inj ht) hv
  | unsupportedEven code a => exact replyHeader_of_addressed (fun _ => keepsHeader_noResponse) _ hs (Host.Outcome.next.inj ht) hv
  | oddCode code a =>
    cases ht
    cases hv

end Sys2Proof.Machine

/-! The Symbol Synchronizer: which phase a word shows, and the first offset that shows one (40_symbol_synchronizer.md R121 to R128). -/

namespace Sys2Proof.Machine

/-! ### The phase of a word -/

/-- In a strictly descending list the first hit is the largest. -/
theorem find?_eq_some_iff_of_descending {α : Type} [LinearOrder α] {f : α → Bool} {l : List α} {p : α}
    (hl : l.Pairwise (· > ·)) :
    l.find? f = some p ↔ p ∈ l ∧ f p = true ∧ ∀ q ∈ l, p < q → f q = false := by
  induction l with
  | nil => simp
  | cons a l ih =>
    obtain ⟨ha, hl⟩ := List.pairwise_cons.mp hl
    cases hf : f a with
    | true =>
      rw [List.find?_cons_of_pos hf, Option.some_inj]
      constructor
      · rintro rfl
        refine ⟨List.mem_cons_self, hf, fun q hq hlt => ?_⟩
        rcases List.mem_cons.mp hq with rfl | hq
        · exact absurd hlt (lt_irrefl _)
        · exact absurd hlt (lt_asymm (ha q hq))
      · rintro ⟨hp, -, hmax⟩
        rcases List.mem_cons.mp hp with rfl | hp
        · rfl
        · exact absurd (hmax a List.mem_cons_self (ha p hp)) (by simp [hf])
    | false =>
      have hne : f p = true → p ≠ a := by rintro hp rfl; simp [hf] at hp
      rw [List.find?_cons_of_neg (by simp [hf]), ih hl]
      simp only [List.mem_cons, forall_eq_or_imp, hf, implies_true, true_and]
      constructor
      · rintro ⟨hp, hrest⟩
        exact ⟨.inr hp, hrest⟩
      · rintro ⟨hp, hfp, hmax⟩
        exact ⟨hp.resolve_left (hne hfp), hfp, hmax⟩

/-- `find_phase` takes the largest phase that matches (R122). -/
theorem findPhase_eq_some_iff {table : List (Word × Word)} {x : Word} {p : Fin 8} :
    findPhase table x = some p ↔ sigMatches table x p = true ∧ ∀ q, p < q → sigMatches table x q = false := by
  have hall : ∀ q : Fin 8, q ∈ ([7, 6, 5, 4, 3, 2, 1, 0] : List (Fin 8)) := by decide
  rw [findPhase, find?_eq_some_iff_of_descending (by decide)]
  simp only [hall, true_and, true_implies]

/-- Settles O25: the phases are tried from the largest down, and R126's tie-break is the last branch of the report. -/
theorem phaseAndPolarityChoice : Obligations.PhaseAndPolarityChoice := by
  refine ⟨fun _ _ _ => findPhase_eq_some_iff, fun i a b => ?_⟩
  rw [syncReport, apply_ite some]

/-! ### The sync signatures -/

theorem signatureOf_injective : ∀ p q : Fin 8, signatureOf p = signatureOf q → p = q := by decide

theorem signatureOf_ne_complement : ∀ p q : Fin 8, signatureOf p ≠ ~~~(signatureOf q) := by decide

/-- Row `p` of the machine's table: a full mask and R123's value. -/
theorem signature_getElem? : ∀ p : Fin 8, Params.signature[p.val]? = some (0xFFFF, signatureOf p) := by decide

theorem sigMatches_signature (x : Word) (p : Fin 8) : sigMatches Params.signature x p = true ↔ x = signatureOf p := by
  have hmask : x &&& 0xFFFF = x := BitVec.and_allOnes
  rw [sigMatches, signature_getElem?]
  simp only [hmask, beq_iff_eq]

/-- At most one signature matches, so the search order plays no role (R123, R128). -/
theorem findPhase_signature {x : Word} {p : Fin 8} : findPhase Params.signature x = some p ↔ x = signatureOf p := by
  rw [findPhase_eq_some_iff, sigMatches_signature]
  refine ⟨And.left, fun hx => ⟨hx, fun q hpq => ?_⟩⟩
  rw [Bool.eq_false_iff, ne_eq, sigMatches_signature, hx]
  exact fun he => hpq.ne (signatureOf_injective p q he)

theorem findPhase_signature_eq_none {x : Word} : findPhase Params.signature x = none ↔ ∀ p, x ≠ signatureOf p := by
  simp [Option.eq_none_iff_forall_ne_some, findPhase_signature]

/-- The complement of a signature shows no phase (R128). -/
theorem findPhase_complement (p : Fin 8) : findPhase Params.signature (~~~(signatureOf p)) = none :=
  findPhase_signature_eq_none.mpr fun q he => signatureOf_ne_complement q p he.symm

/-! ### The scan -/

/-- What the synchronizer makes of one window word, at both polarities (R125). -/
def wordReport (i : Nat) (x : Word) : Option SyncReport :=
  syncReport i (findPhase Params.signature x) (findPhase Params.signature (~~~x))

/-- A word that is a signature at one polarity is reported with that phase and polarity: it shows none at the other. -/
theorem wordReport_of_signature {x : Word} {p : Fin 8} {pol : Bool} (i : Nat)
    (h : (if pol then ~~~x else x) = signatureOf p) : wordReport i x = some ⟨i, p, pol⟩ := by
  cases pol with
  | false =>
    obtain rfl : x = signatureOf p := h
    rw [wordReport, findPhase_signature.mpr rfl, findPhase_complement]
    rfl
  | true =>
    have hx : ~~~x = signatureOf p := h
    have hnone : findPhase Params.signature x = none := by
      rw [← BitVec.not_not (b := x), hx, findPhase_complement]
    rw [wordReport, findPhase_signature.mpr hx, hnone]
    rfl

theorem wordReport_of_no_signature {x : Word} (i : Nat)
    (h : ∀ (p : Fin 8) (pol : Bool), (if pol then ~~~x else x) ≠ signatureOf p) : wordReport i x = none := by
  have hplain : findPhase Params.signature x = none := findPhase_signature_eq_none.mpr fun p => h p false
  have hinverted : findPhase Params.signature (~~~x) = none := findPhase_signature_eq_none.mpr fun p => h p true
  rw [wordReport, hplain, hinverted]
  rfl

theorem syncScan_of_wordReport {i : Nat} {b0 b1 : Byte} {rest : List Byte} {r : SyncReport}
    (h : wordReport i (b0 ++ b1) = some r) : syncScan Params.signature i (b0 :: b1 :: rest) = some r := by
  rw [wordReport] at h
  rw [syncScan, h]

theorem syncScan_of_wordReport_none {i : Nat} {b0 b1 : Byte} {rest : List Byte} (h : wordReport i (b0 ++ b1) = none) :
    syncScan Params.signature i (b0 :: b1 :: rest) = syncScan Params.signature (i + 1) (b1 :: rest) := by
  rw [wordReport] at h
  rw [syncScan, h]

/-- The scan reports the first word of the window that is a signature (R124, R125). -/
theorem syncScan_of_first {k i : Nat} {w : List Byte} {p : Fin 8} {pol : Bool} (hi : i + 1 < w.length)
    (h : HasSync w i p pol) (hfirst : ∀ j, j < i → ∀ (q : Fin 8) (pol' : Bool), ¬ HasSync w j q pol') :
    syncScan Params.signature k w = some ⟨k + i, p, pol⟩ := by
  induction w generalizing k i with
  | nil => simp at hi
  | cons b0 w ih =>
    match w, i with
    | [], _ => simp at hi
    | b1 :: rest, 0 => exact syncScan_of_wordReport (wordReport_of_signature k h)
    | b1 :: rest, i + 1 =>
      have hnone : wordReport k (b0 ++ b1) = none := wordReport_of_no_signature k (hfirst 0 i.succ_pos)
      have hlater : ∀ j, j < i → ∀ (q : Fin 8) (pol' : Bool), ¬ HasSync (b1 :: rest) j q pol' :=
        fun j hj => hfirst (j + 1) (Nat.succ_lt_succ hj)
      rw [syncScan_of_wordReport_none hnone, ih (Nat.lt_of_succ_lt_succ hi) h hlater, Nat.add_right_comm, Nat.add_assoc]

/-- A window without a signature, or of fewer than two bytes, gives no report (R127). -/
theorem syncScan_of_no_signature {k : Nat} {w : List Byte}
    (h : ∀ i, i + 1 < w.length → ∀ (p : Fin 8) (pol : Bool), ¬ HasSync w i p pol) :
    syncScan Params.signature k w = none := by
  induction w generalizing k with
  | nil => rfl
  | cons b0 w ih =>
    match w with
    | [] => rfl
    | b1 :: rest =>
      have hnone : wordReport k (b0 ++ b1) = none := wordReport_of_no_signature k (h 0 (by simp))
      rw [syncScan_of_wordReport_none hnone]
      exact ih fun i hi => h (i + 1) (Nat.succ_lt_succ hi)

/-- Settles O27: the step of SYNC takes the scan's report, or raises NoSync. -/
theorem syncReportsFirstMatch : Obligations.SyncReportsFirstMatch := by
  intro s hs hq
  rw [step_sync hs hq, syncStep, State.passBoundary_window]
  constructor
  · intro i p pol hi h hfirst
    rw [syncScan_of_first hi h hfirst, Nat.zero_add]
  · intro h
    rw [syncScan_of_no_signature h]
    rfl

/-! ### The encoder's header -/

/-- The delayed header is a frame without data: the idle samples and the header's, cut after its sixteen bytes. -/
theorem shifted_syncHeader (p : Fin 8) (pol idle : Bool) :
    ∃ rest, shifted p pol idle (Params.syncHeader.flatMap (encodeByte Params.symbolTable)) =
      bytesOf ((headerSamples p pol idle).take 128) ++ rest := by
  have hframe := bytesOf_frameSamples p pol idle [] (List.replicate ((8 - p.val) % 8) idle)
  rw [frameSamples, List.append_nil] at hframe
  rw [shifted, map_xor_symbols]
  exact ⟨_, hframe⟩

/-- Settles O26: the scan of the header's first sixteen sample bytes is the scan of all of them. -/
theorem preambleIsLocated : Obligations.PreambleIsLocated := by
  refine ⟨signatureOf_injective, signatureOf_ne_complement, fun p pol idle => ?_⟩
  obtain ⟨rest, hsamples⟩ := shifted_syncHeader p pol idle
  obtain ⟨hwhole, hdropped⟩ := syncScan_header p pol idle
  simp only [hsamples]
  refine ⟨syncScan_append rest hwhole, fun _ => ?_⟩
  rw [List.drop_append_of_le_length (by simp)]
  exact syncScan_append rest hdropped

end Sys2Proof.Machine

/-! Frame Capture: one sample byte, a whole window, and the overflow (41_frame_capture.md). -/

namespace Sys2Proof.Machine

/-! ### One sample byte -/

/-- The markers are the two idle bytes (R140). -/
theorem isMarker_iff {b : Byte} : isMarker b = true ↔ b = 0x00 ∨ b = 0xFF := by
  rw [isMarker, Bool.or_eq_true, beq_iff_eq, beq_iff_eq]

theorem isMarker_eq_false_iff {b : Byte} : isMarker b = false ↔ b ≠ 0x00 ∧ b ≠ 0xFF := by
  rw [← Bool.not_eq_true, isMarker_iff, not_or]

/-- Settles O22: the cases of the phase, with its two tests as the statement's branches. -/
theorem captureTakesOneSample : Obligations.CaptureTakesOneSample := by
  intro s hr hq
  rw [step_capture hr hq]
  rcases captureStep_cases s.passBoundary with ⟨hnil, e⟩ | ⟨b, rest, hs, hcase⟩
  · exact ⟨fun _ => by rw [e], fun b rest hs => nomatch hnil.symm.trans hs⟩
  · refine ⟨fun hnil => (nomatch hs.symm.trans hnil), fun b' rest' hs' => ?_⟩
    obtain ⟨rfl, rfl⟩ := List.cons.inj (hs.symm.trans hs')
    simp only [← isMarker_iff, Host.Outcome.next.injEq]
    rcases hcase with ⟨hm, hn, e⟩ | ⟨hm, hn, e⟩ | ⟨hm, hn, e⟩ | ⟨hm, hn, e⟩ <;> rw [e]
    · rw [if_pos hm]; exact (if_pos hn).symm
    · rw [if_pos hm]; exact (if_neg (Nat.not_le_of_lt hn)).symm
    · rw [if_neg (by simp [hm])]; exact (if_pos hn).symm
    · rw [if_neg (by simp [hm])]; exact (if_neg hn).symm

/-! ### A whole window -/

/-- Settles O23: the run from an empty window to SYNC, with the markers spelled out. -/
theorem captureFillsWindow : Obligations.CaptureFillsWindow := by
  intro s lead data rest m hq hn hw hr hmark hdata h16 h528 hs
  obtain ⟨hm, hlead⟩ := List.forall_mem_cons.mp hmark
  obtain ⟨buf, hwindow, hreach⟩ := reaches_sync hq hn hw hr (fun b hb => isMarker_iff.mpr (hlead b hb))
    (isMarker_iff.mpr hm) (fun b hb => isMarker_eq_false_iff.mpr (hdata b hb)) h16 h528 hs
  exact ⟨_, hreach, hwindow, rfl⟩

/-! ### The overflow -/

/-- The byte that fills the buffer raises FrameTooLong (R144). -/
theorem step_capture_overflow {s : State} {b : Byte} {rest : List Byte} (h : s.Runs) (hq : s.seq = .capture)
    (hs : s.env.samples = b :: rest) (hm : isMarker b = false) (hn : s.nCap = 527) :
    step s = .next (afterFailure { s with buf := s.buf.overlay s.nCap [b], env := s.env.after rest 1 } 1) := by
  rw [(captureTakesOneSample s h hq).2 b rest hs, if_neg (not_or.mpr (isMarker_eq_false_iff.mp hm)), if_pos (by rw [hn])]
  simp only [Env.after, List.drop_one]

/-- Settles O24: 527 bytes are stored, and the last one is the overflow. -/
theorem captureOverflows : Obligations.CaptureOverflows := by
  intro s data rest hq hn hw hr hdata hl hs
  obtain ⟨init, b, rfl⟩ := (List.eq_nil_or_concat' data).resolve_left (List.ne_nil_of_length_eq_add_one hl)
  have hinit : init.length = 527 := by simpa using hl
  have hunmarked : ∀ x ∈ init ++ [b], isMarker x = false := fun x hx => isMarker_eq_false_iff.mpr (hdata x hx)
  obtain ⟨buf, -, hfill⟩ := reaches_fill (data := init) (rest := b :: rest) hq hw hr
    (fun x hx => hunmarked x (by simp [hx])) (by omega) (by simpa using hs)
  rw [hn, Nat.zero_add, hinit] at hfill
  have hlast := step_capture_overflow (s := { s with buf := buf, nCap := 527, env := s.env.after (b :: rest) 527 })
    (State.runs_of_noReset (Env.noReset_after hr _ _) hw) hq rfl (hunmarked b (by simp)) rfl
  rw [Env.after_after] at hlast
  exact ⟨_, hfill.trans (.single hlast), rfl⟩

end Sys2Proof.Machine

/-! The extractor on three sample bytes held as one word: R160. -/

namespace Sys2Proof.Machine

/-- The bits of two bytes in time order are those of the word they form, highest first (R13). -/
theorem getD_bitsOf_pair (hi lo : Byte) {q : Nat} (hq : q < 16) :
    (bitsOf [hi, lo]).getD q false = (hi ++ lo).getLsbD (15 - q) := by
  rw [getD_bitsOf, BitVec.getLsbD_append]
  rcases (by omega : q / 8 = 0 ∨ q / 8 = 1) with hbyte | hbyte <;> rw [hbyte]
  · rw [if_neg (by omega), List.getD_cons_zero]
    congr 1; omega
  · rw [if_pos (by omega), List.getD_cons_succ, List.getD_cons_zero]
    congr 1; omega

/-- The bits of the three bytes of a word are its bits, highest first (R13). -/
theorem getD_bitsOf_threeBytes (y : BitVec 24) {q : Nat} (hq : q < 24) :
    (bitsOf [y.extractLsb' 16 8, y.extractLsb' 8 8, y.extractLsb' 0 8]).getD q false = y.getLsbD (23 - q) := by
  have hbyte : [y.extractLsb' 16 8, y.extractLsb' 8 8, y.extractLsb' 0 8].getD (q / 8) 0 =
      y.extractLsb' (16 - 8 * (q / 8)) 8 := by
    rcases (by omega : q / 8 = 0 ∨ q / 8 = 1 ∨ q / 8 = 2) with h | h | h <;> rw [h] <;> rfl
  rw [getD_bitsOf, hbyte, BitVec.getLsbD_extractLsb', decide_eq_true (by omega), Bool.true_and]
  congr 1; omega

/-- A bit of the first `n` bytes is a bit of all of them. -/
theorem getD_bitsOf_take (w : List Byte) {n q : Nat} (hq : q < 8 * n) :
    (bitsOf (w.take n)).getD q false = (bitsOf w).getD q false := by
  rw [getD_bitsOf, getD_bitsOf]
  simp only [List.getD_eq_getElem?_getD, List.getElem?_take_of_lt (show q / 8 < n by omega)]

/-- In the two symbol bytes of a data byte, as one word, the first sample of each pair is the data bit (R197). -/
theorem getLsbD_symbols (b : Byte) {k : Nat} (hk : k < 8) :
    (Params.symbolTable.getD (b.toNat / 16) 0 ++ Params.symbolTable.getD (b.toNat % 16) 0).getLsbD (15 - 2 * k) =
      (bitsOf [b]).getD k false := by
  rw [← getD_bitsOf_pair _ _ (by omega), ← getD_manchester (bitsOf [b]), ← bitsOf_encodeByte, encodeByte]

/-- At inverted polarity each of the 24 samples is the complement (R160); above them the word has no bits to complement. -/
theorem getLsbD_complement_if (pol : Bool) (x : BitVec 24) {i : Nat} (hi : i < 24) :
    (if pol then ~~~x else x).getLsbD i = xor pol (x.getLsbD i) := by
  cases pol <;> simp [hi]

/-- The first data samples of a word that holds a byte's code from position `p` on are the byte's bits (R157). -/
theorem getLsbD_of_coded {b : Byte} {p : Fin 8} {x : BitVec 24}
    (hx : x.extractLsb' (8 - p.val) 16 =
      Params.symbolTable.getD (b.toNat / 16) 0 ++ Params.symbolTable.getD (b.toNat % 16) 0) {k : Nat} (hk : k < 8) :
    x.getLsbD (23 - (p.val + 2 * k)) = (bitsOf [b]).getD k false := by
  rw [← getLsbD_symbols b hk, ← hx, BitVec.getLsbD_extractLsb', decide_eq_true (by omega), Bool.true_and]
  congr 1; omega

/-- The last sample that is read, at `p + 14`, lies inside the bytes that are needed (R157). -/
theorem lt_need {p : Fin 8} {k : Nat} (hk : k < 8) : p.val + 2 * k < 8 * need p := by
  rw [need_eq]; split <;> omega

/-- Settles O28: each bit that is read is the first sample of its pair, at the polarity that the extractor takes back. -/
theorem extractorInvertsLineCode : Obligations.ExtractorInvertsLineCode := by
  intro b p pol x hx y
  apply extract_eq
  intro k hk
  have hbit : k < (bitsOf [b]).length := by simpa using hk
  calc (bitsOf ([y.extractLsb' 16 8, y.extractLsb' 8 8, y.extractLsb' 0 8].take (need p))).getD (p.val + 2 * k) false
      = y.getLsbD (23 - (p.val + 2 * k)) := by
        rw [getD_bitsOf_take _ (lt_need hk), getD_bitsOf_threeBytes y (by omega)]
    _ = xor pol ((bitsOf [b]).getD k false) := by
        rw [getLsbD_complement_if pol x (by omega), getLsbD_of_coded hx hk]
    _ = ((bitsOf [b]).map (xor pol)).getD k false := by
        rw [List.getD_eq_getElem _ _ hbit, List.getD_eq_getElem _ _ (by simpa using hk), List.getElem_map]

end Sys2Proof.Machine

/-! The checksum's residue: the trailer takes the register back to 0 (R172). -/

namespace Sys2Proof.Machine

/-- While no 1 leaves the register the polynomial does not enter, and the generator only shifts (R171). -/
theorem crcShifts_of_high_zeros {k : Nat} {c : Word} (h : ∀ i < k, c.getMsbD i = false) : crcShifts k c = c <<< k := by
  induction k generalizing c with
  | zero => simp [crcShifts]
  | succ k ih =>
    have hmsb : c.msb = false := h 0 k.succ_pos
    have hshift : crcShift c = c <<< 1 := by simp [crcShift, hmsb]
    have hrest : ∀ i < k, (c <<< 1).getMsbD i = false := fun i hi => by
      simp [h (i + 1) (Nat.succ_lt_succ hi)]
    rw [crcShifts, hshift, ih hrest, ← BitVec.shiftLeft_add, Nat.add_comm]

/-- The register's own high byte cancels it, and the low byte moves up. The width of two appended bytes must stay `8 + 8` for
`simp`'s lemmas on `++` to apply, hence `-Nat.reduceAdd`. -/
theorem crcByte_high (hi lo : Byte) : crcByte (hi ++ lo) hi = lo ++ (0 : Byte) := by
  have hcancel : (hi ++ lo) ^^^ (hi ++ (0 : Byte)) = (0 : Byte) ++ lo := by
    simp [BitVec.xor_append, -Nat.reduceAdd]
  have hzeros : ∀ i < 8, ((0 : Byte) ++ lo).getMsbD i = false := fun i hi => by
    simp [BitVec.getMsbD_append, hi, -Nat.reduceAdd]
  have hmoved : ((0 : Byte) ++ lo) <<< 8 = lo ++ (0 : Byte) := by
    ext i hi
    have hindex : i - 8 < 8 := by omega
    by_cases hlow : i < 8 <;> simp [BitVec.getElem_append, hlow, hindex, -Nat.reduceAdd]
  rw [crcByte, hcancel, crcShifts_of_high_zeros hzeros, hmoved]

/-- The two bytes of the register's value, high byte first, take it to 0. -/
theorem foldl_crcByte_crcTrailer (c : Word) : (crcTrailer c).foldl crcByte c = 0 := by
  have hbytes : c.extractLsb' 8 8 ++ c.extractLsb' 0 8 = c := by
    simp [BitVec.extractLsb'_append_extractLsb' (w := 8) (len := 8)]
  calc (crcTrailer c).foldl crcByte c
      = crcByte (crcByte (c.extractLsb' 8 8 ++ c.extractLsb' 0 8) (c.extractLsb' 8 8)) (c.extractLsb' 0 8) := by
        rw [hbytes]; rfl
    _ = crcByte (c.extractLsb' 0 8 ++ (0 : Byte)) (c.extractLsb' 0 8) := by rw [crcByte_high]
    _ = (0 : Byte) ++ (0 : Byte) := crcByte_high _ _

/-- Settles O33: the register holds the checksum when the trailer's bytes come. -/
theorem checksumResidueIsZero : Obligations.ChecksumResidueIsZero := by
  intro x
  calc crc16 (x ++ crcTrailer (crc16 x))
      = (crcTrailer (crc16 x)).foldl crcByte (crc16 x) := List.foldl_append
    _ = 0 := foldl_crcByte_crcTrailer _

end Sys2Proof.Machine

/-! ASSEMBLE: the bytes it decodes, the trailers it accepts, and the outcome of its checks (R181 to R185). -/

namespace Sys2Proof.Machine

/-! ### Decoding the window -/

/-- Every two sample bytes give a data byte, as long as its source bytes are inside the window (R181). -/
theorem length_decodeWindow (p : Fin 8) (pol : Bool) (w : List Byte) :
    (decodeWindow p pol w).length = if w.length < need p then 0 else (w.length - need p) / 2 + 1 := by
  have hneed := two_le_need p
  by_cases h : w.length < need p
  · rw [decodeWindow_of_lt pol h, if_pos h, List.length_nil]
  · rw [decodeWindow_of_le pol (Nat.le_of_not_lt h), if_neg h, List.length_cons, length_decodeWindow p pol (w.drop 2),
      List.length_drop]
    split <;> omega
termination_by w.length
decreasing_by rw [List.length_drop]; omega

/-- Data byte `k` comes from the sample bytes from `2 k` on (R181). -/
theorem getElem?_decodeWindow {p : Fin 8} {k : Nat} {w : List Byte} (pol : Bool) (h : 2 * k + need p ≤ w.length) :
    (decodeWindow p pol w)[k]? = some (extract Params.phaseTable ((w.drop (2 * k)).take (need p)) p pol) := by
  induction k generalizing w with
  | zero => rw [decodeWindow_of_le pol (by omega)]; rfl
  | succ k ih =>
    rw [decodeWindow_of_le pol (by omega), List.getElem?_cons_succ, ih (by rw [List.length_drop]; omega), List.drop_drop,
      Nat.mul_succ, Nat.add_comm 2]

/-- Settles O29: a byte that is counted has its source bytes inside the window. -/
theorem assemblerDecodesWindow : Obligations.AssemblerDecodesWindow := by
  intro p pol w
  refine ⟨length_decodeWindow p pol w, fun k hk => getElem?_decodeWindow pol ?_⟩
  rw [length_decodeWindow] at hk
  split at hk <;> omega

/-! ### The two trailers -/

/-- The tolerance of R183 as a choice between two words. -/
theorem trailerOk_iff {c t : Word} : trailerOk c t = true ↔ t = c ∨ t = c ^^^ 1 := by
  have hflip : t ^^^ c = 1 ↔ t = c ^^^ 1 := by
    rw [BitVec.xor_comm c, ← BitVec.xor_left_inj c, BitVec.xor_assoc, BitVec.xor_self, BitVec.xor_zero]
  rw [trailerOk, Bool.or_eq_true, beq_iff_eq, beq_iff_eq, hflip]

/-- Two bytes are the trailer of the word they form, and of no other (R172). -/
theorem eq_crcTrailer_iff {hi lo : Byte} {c : Word} : [hi, lo] = crcTrailer c ↔ trailerWord hi lo = c := by
  constructor
  · intro h
    obtain ⟨rfl, rfl⟩ : hi = c.extractLsb' 8 8 ∧ lo = c.extractLsb' 0 8 := by simpa [crcTrailer] using h
    simp [trailerWord, BitVec.extractLsb'_append_extractLsb' (w := 8) (len := 8)]
  · rintro rfl
    simp [crcTrailer, trailerWord, BitVec.extractLsb'_append_eq_left, BitVec.extractLsb'_append_eq_right, -Nat.reduceAdd]

/-- Settles O32: each accepted word has one trailer. -/
theorem twoTrailersAreAccepted : Obligations.TwoTrailersAreAccepted := fun x hi lo => by
  rw [trailerOk_iff, eq_crcTrailer_iff, eq_crcTrailer_iff]

/-! ### The checks -/

/-- No byte, a length beyond 253, or too few bytes for it and the trailer: LengthError (R182). -/
theorem checkFrame_lengthError {d : List Byte} (h : d = [] ∨ 253 < (d.headD 0).toNat ∨ d.length < (d.headD 0).toNat + 2)
    (s : State) : checkFrame d s = afterFailure s 3 := by
  rcases checkFrame_cases d s with ⟨-, e⟩ | ⟨l, rest, rfl, hl, hlen, -⟩
  · exact e
  · have hhead : ((l :: rest).headD 0).toNat = l.toNat := rfl
    rcases h with h | h | h
    · cases h
    · omega
    · omega

/-- Bytes that pass the length check are delivered if the trailer is one of the two, or else raise ChecksumError (R183, R184). -/
theorem checkFrame_of_length {d : List Byte} {L : Nat} (hne : d ≠ []) (hL : (d.headD 0).toNat = L) (hl : L ≤ 253)
    (hlen : L + 2 ≤ d.length) (s : State) :
    checkFrame d s =
      if wordAt d L = crc16 (d.take L) ∨ wordAt d L = crc16 (d.take L) ^^^ 1 then
        { s with crc := crc16 (d.take L), cmd := s.cmd.overlay 0 (d.take L), cmdLen := L, seq := .dispatch }
      else afterFailure { s with crc := crc16 (d.take L) } 4 := by
  rcases checkFrame_cases d s with ⟨h, -⟩ | ⟨l, rest, rfl, -, -, hcase⟩
  · rcases h with h | h | h
    · exact absurd h hne
    · omega
    · omega
  · obtain rfl : l.toNat = L := hL
    rcases hcase with ⟨hbad, e⟩ | ⟨hok, e⟩
    · exact e.trans (if_neg fun h => Bool.eq_false_iff.1 hbad (trailerOk_iff.2 h)).symm
    · exact e.trans (if_pos (trailerOk_iff.1 hok)).symm

/-- A step in ASSEMBLE decodes and checks (R181). -/
theorem step_assemble_decoded {s : State} {d : List Byte} (h : s.Runs) (hq : s.seq = .assemble)
    (hd : d = decodeWindow s.ph s.pol (s.window.drop (s.off + 4))) :
    step s = .next (checkFrame d { s.passBoundary with dec := s.dec.overlay 0 d, nDec := d.length }) := by
  rw [step_assemble h hq, hd]; rfl

/-- Settles O30: the two failing outcomes of the checks. -/
theorem assemblerRejects : Obligations.AssemblerRejects := by
  intro s d hs hq hd
  rw [step_assemble_decoded hs hq hd]
  refine ⟨fun hshort => congrArg _ (checkFrame_lengthError hshort _), fun hne hl hlen hword hflip => ?_⟩
  rw [checkFrame_of_length hne rfl hl hlen, if_neg (not_or_intro hword hflip)]

/-- Settles O31: the accepting outcome; the packet is read back from CMD, which holds all of its at most 253 bytes. -/
theorem assemblerAccepts : Obligations.AssemblerAccepts := by
  intro s d hs hq hd hne hl hlen hword
  refine ⟨_, by rw [step_assemble_decoded hs hq hd, checkFrame_of_length hne rfl hl hlen, if_pos hword], ?_, rfl⟩
  have htake : (d.take (d.headD 0).toNat).length = (d.headD 0).toNat := List.length_take_of_le (by omega)
  have hcmd := Sized.take_overlay_zero (v := s.cmd) (xs := d.take (d.headD 0).toNat) (by simp only [Config.packetBuf]; omega)
  rwa [htake] at hcmd

end Sys2Proof.Machine

/-! Both ends of the channel: what one transmission emits, and what is received of a frame (45_symbol_encoder.md). -/

namespace Sys2Proof.Machine

/-! ### One transmission -/

/-- RSP holds 255 bytes, the most that its length byte can name, so the response has the length that it states (R26). -/
theorem State.length_response (s : State) : s.response.length = (s.rsp.at 0).toNat := by
  have hbyte := (s.rsp.at 0).isLt
  exact List.length_take_of_le (by simp only [Sized.length_toList, Config.packetBuf]; omega)

/-- A data byte is sent as two symbol bytes (R196). -/
theorem length_flatMap_encodeByte (table bs : List Byte) : (bs.flatMap (encodeByte table)).length = 2 * bs.length := by
  simp [List.length_flatMap, encodeByte, Nat.mul_comm]

/-- A wire frame is the payload with eight header bytes and two trailer bytes (R90). -/
theorem length_frameSymbols (payload : List Byte) (c : Word) :
    (frameSymbols payload c).length = 2 * payload.length + 20 := by
  rw [frameSymbols, length_flatMap_encodeByte]
  simp only [frameBytes, Params.syncHeader, crcTrailer, List.length_append, List.length_cons, List.length_nil]
  omega

/-- Settles O34: the run of one transmission, with the sink calls counted: two flush bytes and the wire frame. -/
theorem transmissionTrace : Obligations.TransmissionTrace := by
  intro s hq ht hg hw hr hs L c wire
  obtain ⟨k, hsent⟩ := reaches_transmitted hq hw hr ht hg hs
  have hcalls : (Params.flush.map (Emitted.mk false) ++ (frameSymbols s.response c).map (Emitted.mk true)).length =
      2 * L + 22 := by
    rw [List.length_append, List.length_map, List.length_map, length_frameSymbols, s.length_response]
    exact Nat.add_comm 2 _
  rw [Env.afterSent, hcalls, ← List.append_assoc] at hsent
  exact ⟨k, hsent⟩

/-! ### What is received of a frame -/

/-- Settles O35: the run from CAPTURE to DISPATCH writes the receive registers and takes samples and boundaries, no more. -/
theorem receiveInvertsSend : Obligations.ReceiveInvertsSend := by
  intro s packet rest lead p pol idle hq hn hw hr hl hne hs
  obtain ⟨k, buf, nCap, off, dec, nDec, cmd, samples, hreached, hpacket, hoff, hsuf⟩ :=
    receive_onAir hq hn hw hr hl hne hs
  exact ⟨k, _, hreached, hpacket, rfl, rfl, hoff, rfl, hsuf, rfl⟩

end Sys2Proof.Machine

/-! The dispatcher: what a step in DISPATCH runs, how every command ends, and which commands are silent (46_command_dispatcher.md R216
to R235). -/

namespace Sys2Proof.Machine

/-! ### The step in DISPATCH -/

/-- Settles O7: passing the boundary leaves the packet as it is, and DISPATCH runs what it decodes to. -/
theorem stepRunsDecodedInstruction : Obligations.StepRunsDecodedInstruction := by
  intro s i hr hq hd
  rw [step_dispatch hr hq]
  exact dispatchStep_of_decode hd

/-- A packet without a command code has no meaning to run (R217). -/
theorem dispatchStep_of_length_lt {s : State} (h : s.packet.length < 2) : dispatchStep s = .next s.noResponse := by
  rcases dispatchStep_cases s with ⟨i, hd, -⟩ | ⟨-, e⟩ | ⟨hl, -, -⟩
  · have hl := (length_of_decode hd).1
    omega
  · exact e
  · omega

theorem silentFrom_noResponse (s : State) : SilentFrom s s.noResponse := rfl

/-- Settles O8: DISPATCH answers `noResponse`. -/
theorem shortestPacketIsSilent : Obligations.ShortestPacketIsSilent := by
  intro s hr hq hl
  exact ⟨_, (step_dispatch hr hq).trans (dispatchStep_of_length_lt hl), silentFrom_noResponse _⟩

/-! ### How a command ends where the store answers -/

/-- A command that ends in a response or in silence, after the work a command may do (R216). -/
def CommandCompletes (s t : State) : Prop := ∃ u, Working s u ∧ (t = u.respond ∨ t = u.noResponse)

theorem IsReply.completes {s u t : State} (h : IsReply u t) (hu : Working s u) : CommandCompletes s t := by
  obtain ⟨rsp, elog, -, -, -, rfl⟩ := h
  exact ⟨{ u with rsp := rsp, cs := { u.cs with elog := elog } }, hu.trans rfl, .inl rfl⟩

theorem IsOutcome.completes {s t : State} (h : IsOutcome s t) : CommandCompletes s t := by
  rcases h with ⟨rsp, rfl⟩ | h
  · exact ⟨{ s with rsp := rsp }, rfl, .inr rfl⟩
  · exact h.completes rfl

/-- A Write is cut short only by a reset or by a call that is not answered (R313, R374). -/
theorem WriteOutcome.completes {s t : State} (h : WriteOutcome s t) (hs : s.StoreAnswers) : CommandCompletes s t := by
  obtain ⟨hstore, hrst⟩ := hs
  rcases h with h | ⟨us, store, rst, rsp, -, h | ⟨hm, -⟩ | ⟨hm, -⟩⟩
  · exact h.completes
  · exact h.completes (working_afterUpdates s us store rst)
  · exact absurd hm hrst
  · exact absurd hm hstore

theorem exec_completes (i : Instr) {s : State} (hs : s.StoreAnswers) : ∃ t, exec i s = .next t ∧ CommandCompletes s t := by
  obtain ⟨t, ht, hcase⟩ := exec_cases i s
  refine ⟨t, ht, ?_⟩
  rcases hcase with ⟨-, -, hout⟩ | ⟨-, rfl⟩ | ⟨-, hout⟩
  · exact hout.completes
  · exact ⟨{ s with rsp := s.rsp.overlay 0 s.packet }, rfl, .inl rfl⟩
  · exact hout.completes hs

/-- Settles O19: a command at work touches none of the registers in question, and it ends in `respond` or in `noResponse`. -/
theorem everyCommandAnswersOrIsSilent : Obligations.EveryCommandAnswersOrIsSilent := by
  intro i s hs
  obtain ⟨t, ht, u, hu, hend⟩ := exec_completes i hs
  refine ⟨t, ht, ?_⟩
  rw [hu] at hend
  rcases hend with rfl | rfl
  · exact ⟨.inl ⟨rfl, rfl⟩, rfl, rfl, rfl, rfl, rfl⟩
  · exact ⟨.inr ⟨rfl, rfl, rfl⟩, rfl, rfl, rfl, rfl, rfl⟩

/-! ### Silences of addressed commands -/

section

variable {β : Type} {code : Byte} {handler : β → State → State} {s : State}

/-- The address check passes and operands are missing: silence after the header (R235 (c), (e)). -/
theorem addressed_of_match_short {idm : Bytes 8} {bytes : List Byte} (h : s.AddressedBy idm) :
    addressed code handler (.short idm bytes) s = (s.putHeader code idm).noResponse :=
  if_pos ((s.addressMatch_iff idm).mpr h)

/-- The address check fails (R226). -/
theorem addressed_of_notAddressedBy {a : Addressed β} (h : s.NotAddressedBy a) :
    addressed code handler a s = s.noResponse := by
  rcases addressed_cases code handler a s with ⟨idm, ops, rfl, ha, -⟩ | ⟨idm, bytes, rfl, ha, -⟩ | e
  · exact absurd ha (h idm rfl)
  · exact absurd ha (h idm rfl)
  · exact e

/-- An addressed command for another card, or for none, as an outcome of `exec`. -/
theorem silent_of_notAddressedBy {a : Addressed β} (h : s.NotAddressedBy a) :
    ∃ t, (.next (addressed code handler a s) : Host.Outcome State Fault Refusal) = .next t ∧ SilentFrom s t :=
  ⟨_, congrArg _ (addressed_of_notAddressedBy h), silentFrom_noResponse s⟩

end

/-- The header is all that a silence after it leaves in RSP (R228, R235 (e)). -/
theorem silentAfterHeader_noResponse (s : State) (code : Byte) (idm : Bytes 8) :
    SilentAfterHeader s (s.putHeader code idm).noResponse code idm := by
  have hheader := s.hasHeader_putHeader code idm
  have hlen : ((code + 1) :: idm.toList).length = 9 := by simp
  refine ⟨rfl, fun i hi => Bytes.at_overlay_outside (by omega), hheader.bytes.1, fun i hi => ?_⟩
  rw [State.noResponse_rsp, State.putHeader_rsp, Bytes.at_overlay_inside (by omega) (by omega) (by simp only [Config.packetBuf]; omega),
    show 2 + i - 1 = i + 1 by omega, List.getD_cons_succ]
  rfl

/-- Settles O42: the two even rows run `noResponse` behind the address check, the odd row runs it at once. -/
theorem unansweredCommands : Obligations.UnansweredCommands := fun s =>
  ⟨fun idm _ ha =>
    ⟨⟨_, congrArg Host.Outcome.next (addressed_of_match ha), silentAfterHeader_noResponse s 0x10 idm⟩,
      fun code => ⟨_, congrArg Host.Outcome.next (addressed_of_match ha), silentAfterHeader_noResponse s code idm⟩⟩,
    fun _ _ => ⟨_, rfl, silentFrom_noResponse s⟩⟩

/-- Settles O43: the address check comes before the header and before every handler. -/
theorem otherCardsCommandIsSilent : Obligations.OtherCardsCommandIsSilent := fun _ =>
  ⟨fun _ => silent_of_notAddressedBy, fun _ => silent_of_notAddressedBy, fun _ => silent_of_notAddressedBy,
    fun _ => silent_of_notAddressedBy, fun _ h =>
      ⟨silent_of_notAddressedBy h, silent_of_notAddressedBy h, silent_of_notAddressedBy h,
        fun _ => silent_of_notAddressedBy h⟩⟩

/-- Settles O44: the short form is addressed, so the header is written, and no handler runs. -/
theorem tooShortReadOrWriteIsSilent : Obligations.TooShortReadOrWriteIsSilent := fun s idm _ ha =>
  ⟨⟨_, congrArg Host.Outcome.next (addressed_of_match_short ha), silentAfterHeader_noResponse s 0x06 idm⟩,
    ⟨_, congrArg Host.Outcome.next (addressed_of_match_short ha), silentAfterHeader_noResponse s 0x08 idm⟩⟩

end Sys2Proof.Machine

/-! The replies of Polling, Echo and Request Response (46_command_dispatcher.md R219 to R224, R230, R234). -/

namespace Sys2Proof.Sized

variable {α : Type} {n : Nat}

/-- `take_overlay_append` as a segment, with the position as it stands in the model. -/
theorem has_overlay_append {v : Sized α n} {pre xs : List α} {pos : Nat} (h : v.Has 0 pre) (hpos : pre.length = pos)
    (hn : pos + xs.length ≤ n) : (v.overlay pos xs).Has 0 (pre ++ xs) := by
  subst hpos
  exact take_overlay_append h hn

/-- A second write inside the start of a first one. -/
theorem overlay_overlay {v : Sized α n} {pos : Nat} {xs ys : List α} (h : ys.length ≤ xs.length) :
    (v.overlay pos xs).overlay pos ys = v.overlay pos (ys ++ xs.drop ys.length) := by
  have hlen : (ys ++ xs.drop ys.length).length = xs.length := by simp; omega
  refine eq_of_toList (List.ext_getElem? fun i => ?_)
  by_cases hi : i < n
  · by_cases hin : pos ≤ i ∧ i < pos + xs.length
    · obtain ⟨hp, hx⟩ := hin
      rw [getElem?_overlay_inside (xs := ys ++ xs.drop ys.length) hp (by omega) hi]
      by_cases hy : i < pos + ys.length
      · rw [getElem?_overlay_inside hp hy hi, List.getElem?_append_left (by omega)]
      · rw [getElem?_overlay_outside (by omega) hi, getElem?_overlay_inside hp hx hi, List.getElem?_append_right (by omega),
          List.getElem?_drop]
        congr 1
        omega
    · rw [getElem?_overlay_outside (by omega) hi, getElem?_overlay_outside (by omega) hi,
        getElem?_overlay_outside (by omega) hi]
  · rw [List.getElem?_eq_none (by simp; omega), List.getElem?_eq_none (by simp; omega)]

end Sys2Proof.Sized

namespace Sys2Proof.Machine

/-! ### Replies as answers -/

theorem replyFrame_answer (s : State) (parts : List (Nat × List Byte)) : ReplyFrame s (s.answer false parts) := rfl

/-- An answer whose parts start RSP with its bytes, the first of which is their number, replies with them (R216). -/
theorem State.replies_answer {s : State} {logged : Bool} {parts : List (Nat × List Byte)} {bytes : List Byte}
    (h : (s.rsp.overlays parts).Has 0 bytes) (hl : (bytes.headD 0).toNat = bytes.length) (hne : bytes ≠ []) :
    (s.answer logged parts).Replies bytes :=
  ⟨rfl, rfl, State.response_of_has h hl hne⟩

/-! ### Echo -/

/-- Settles O40: the response is the packet that the card holds. -/
theorem echoReply : Obligations.EchoReply := fun s data hwf hp =>
  ⟨_, exec_echo data s,
    ⟨rfl, rfl, response_of_overlay_encode (Laws.EncodedLength.echo data hwf).2 (congrArg (s.rsp.overlay 0) hp)⟩, rfl⟩

/-! ### Request Response -/

theorem requestResponse_eq_answer (s : State) : requestResponse s = s.answer false [(0, [11]), (10, [0x00])] := rfl

/-- Settles O41: the header, the length, and the status byte behind them. -/
theorem requestResponseReply : Obligations.RequestResponseReply := by
  intro s idm unread ha
  refine ⟨_, congrArg Host.Outcome.next (addressed_of_match ha), ?_, rfl⟩
  rw [requestResponse_eq_answer]
  have hheader : (((s.putHeader 0x04 idm).rsp).overlay 0 [11]).Has 0 ([11, 0x05] ++ idm.toList) := s.has_header 0x04 idm 11
  have hlen : ([11, 0x05] ++ idm.toList : List Byte).length = 10 := by simp
  exact State.replies_answer (Sized.has_overlay_append hheader hlen (by simp [Config.packetBuf])) (by simp) (by simp)

/-! ### Which slot Polling selects -/

theorem codeMatches_iff {request entry : Code} : codeMatches request entry = true ↔ EntryMatches request entry := by
  simp [codeMatches, EntryMatches]

/-- The slot search is R221's. -/
theorem selectSlot_eq_some_iff {T : CodeTable} {request : Code} {slot : Nat} :
    selectSlot T request = some slot ↔ SlotChosen T request slot := by
  rw [selectSlot, SlotChosen]
  by_cases hwild : request = ⟨0xFF, 0xFF⟩
  · rw [if_pos hwild, Option.some_inj]
    exact ⟨fun h => .inl ⟨hwild, h.symm⟩, fun h => h.elim (fun ⟨_, h⟩ => h.symm) fun ⟨hne, _⟩ => absurd hwild hne⟩
  · have hentry {j : Nat} (hj : j < T.active.length) : codeMatches request T.active[j] = true ↔ EntryMatches request (T.entry j) := by
      rw [codeMatches_iff, CodeTable.entry_of_lt hj]
    rw [if_neg hwild, List.findIdx?_eq_some_iff_getElem]
    constructor
    · rintro ⟨hlt, hmatch, hfirst⟩
      exact .inr ⟨hwild, hlt, (hentry hlt).mp hmatch, fun j hj h => hfirst j hj ((hentry (hj.trans hlt)).mpr h)⟩
    · rintro (⟨h, -⟩ | ⟨-, hlt, hmatch, hfirst⟩)
      · exact absurd h hwild
      · exact ⟨hlt, (hentry hlt).mpr hmatch, fun j hj h => hfirst j hj ((hentry (hj.trans hlt)).mp h)⟩

theorem selectSlot_eq_none_iff {T : CodeTable} {request : Code} :
    selectSlot T request = none ↔ ∀ slot, ¬ SlotChosen T request slot := by
  simp only [Option.eq_none_iff_forall_ne_some, ne_eq, selectSlot_eq_some_iff]

/-- FF FF selects slot 0 of any table (R221, R234). -/
theorem slotChosen_wildcard (T : CodeTable) : SlotChosen T ⟨0xFF, 0xFF⟩ 0 := .inl ⟨rfl, rfl⟩

/-- An empty table has no slot for any other request. -/
theorem not_slotChosen_of_empty {T : CodeTable} {request : Code} (hwild : request ≠ ⟨0xFF, 0xFF⟩) (hempty : T.activeLen = 0)
    (slot : Nat) : ¬ SlotChosen T request slot := by
  rintro (⟨h, -⟩ | ⟨-, hlt, -⟩)
  · exact hwild h
  · omega

/-! ### What Polling appends -/

/-- The bytes that Polling appends for a sub-code (R222). -/
def PollAppends (sys : CodeTable) (slot : Nat) (rc : Byte) (extra : List Byte) : Prop :=
  (rc = 0 ∧ extra = []) ∨ (rc = 1 ∧ extra = [(sys.entry slot).b0, (sys.entry slot).b1]) ∨ (rc = 2 ∧ extra = Params.commCap)

theorem pollExtra_of_pollAppends {T : CodeTable} {slot : Nat} {rc : Byte} {extra : List Byte} (h : PollAppends T slot rc extra) :
    pollExtra Params.commCap T slot rc = some extra := by
  rcases h with ⟨rfl, rfl⟩ | ⟨rfl, rfl⟩ | ⟨rfl, rfl⟩ <;> rfl

theorem pollExtra_eq_none {rc : Byte} (h : 2 < rc.toNat) (commCap : List Byte) (T : CodeTable) (slot : Nat) :
    pollExtra commCap T slot rc = none := by
  have h0 : rc ≠ 0 := by rintro rfl; simp at h
  have h1 : rc ≠ 1 := by rintro rfl; simp at h
  have h2 : rc ≠ 2 := by rintro rfl; simp at h
  rw [pollExtra, if_neg h0, if_neg h1, if_neg h2]

theorem PollAppends.length_le {T : CodeTable} {slot : Nat} {rc : Byte} {extra : List Byte} (h : PollAppends T slot rc extra) :
    extra.length ≤ 2 := by
  rcases h with ⟨-, rfl⟩ | ⟨-, rfl⟩ | ⟨-, rfl⟩ <;> simp [Params.commCap]

/-- Every sub-code up to 2 appends something, be it nothing. -/
theorem exists_pollAppends {rc : Byte} (h : rc.toNat ≤ 2) (T : CodeTable) (slot : Nat) : ∃ extra, PollAppends T slot rc extra := by
  have hrc : rc.toNat = 0 ∨ rc.toNat = 1 ∨ rc.toNat = 2 := by omega
  rcases hrc with h | h | h
  · exact ⟨_, .inl ⟨BitVec.eq_of_toNat_eq h, rfl⟩⟩
  · exact ⟨_, .inr (.inl ⟨BitVec.eq_of_toNat_eq h, rfl⟩)⟩
  · exact ⟨_, .inr (.inr ⟨BitVec.eq_of_toNat_eq h, rfl⟩)⟩

/-- Adding the slot above the low nibble puts it into the high nibble (R223). -/
theorem nibble_add_eq_append (slot : Nat) (b : Byte) :
    BitVec.ofNat 8 (slot * 16) + (b &&& 0x0F) = BitVec.ofNat 4 slot ++ b.extractLsb' 0 4 := by
  have hlow : (b &&& 0x0F).toNat = b.toNat % 2 ^ 4 := Nat.and_two_pow_sub_one_eq_mod b.toNat 4
  have hjoin : (slot % 2 ^ 4) <<< 4 + b.toNat % 2 ^ 4 = (slot % 2 ^ 4) <<< 4 ||| b.toNat % 2 ^ 4 :=
    Nat.shiftLeft_add_eq_or_of_lt (Nat.mod_lt _ (by decide)) _
  apply BitVec.eq_of_toNat_eq
  rw [BitVec.toNat_add, BitVec.toNat_ofNat, hlow, BitVec.toNat_append, BitVec.toNat_ofNat, BitVec.extractLsb'_toNat,
    Nat.shiftRight_zero, ← hjoin, Nat.shiftLeft_eq]
  omega

theorem pollFirstByte_eq (slot : Nat) (b : Byte) :
    pollFirstByte slot b = if slot = 0 then b else BitVec.ofNat 4 slot ++ b.extractLsb' 0 4 := by
  rw [pollFirstByte, nibble_add_eq_append]

/-! ### The reply of Polling -/

/-- The parts of RSP that Polling writes for a slot, in its order (R223). -/
def pollParts (cs : CardState) (slot : Nat) (extra : List Byte) : List (Nat × List Byte) :=
  [(0, [BitVec.ofNat 8 (18 + extra.length)]), (1, [0x01]), (2, cs.idm.toList), (2, [pollFirstByte slot (cs.idm.at 0)]),
    (10, cs.pmm.toList), (18, extra)]

/-- The bytes of Polling's reply (R223). -/
def pollBytes (cs : CardState) (slot : Nat) (extra : List Byte) : List Byte :=
  [BitVec.ofNat 8 (18 + extra.length), 0x01, pollFirstByte slot (cs.idm.at 0)] ++ cs.idm.toList.drop 1 ++ cs.pmm.toList ++ extra

section

variable {s : State} {request : Code} {rc : Byte} {slot : Nat} {extra : List Byte}

theorem polling_eq_answer (hslot : selectSlot s.cs.sys request = some slot)
    (hextra : pollExtra Params.commCap s.cs.sys slot rc = some extra) :
    polling request rc s = s.answer false (pollParts s.cs slot extra) := by
  rw [polling, hslot]
  simp [hextra, State.answer, pollParts, Sized.overlays, State.respond, State.putRsp, State.putLength]

theorem polling_silent (h : (∀ slot, ¬ SlotChosen s.cs.sys request slot) ∨ 2 < rc.toNat) :
    polling request rc s = s.noResponse := by
  rw [polling]
  cases hslot : selectSlot s.cs.sys request with
  | none => rfl
  | some slot =>
    rcases h with hnone | hrc
    · exact absurd (selectSlot_eq_some_iff.mp hslot) (hnone slot)
    · simp only [pollExtra_eq_none hrc]

theorem length_pollBytes (cs : CardState) (slot : Nat) (extra : List Byte) : (pollBytes cs slot extra).length = 18 + extra.length := by
  simp [pollBytes]; omega

/-- What Polling writes, part after part, is its reply from the start of RSP on. -/
theorem has_pollBytes (v : Bytes Config.packetBuf) (cs : CardState) (slot : Nat) (hl : extra.length ≤ 2) :
    (v.overlays (pollParts cs slot extra)).Has 0 (pollBytes cs slot extra) := by
  simp only [pollParts, Sized.overlays, List.foldl_cons, List.foldl_nil]
  rw [Sized.overlay_overlay (by simp)]
  have hlength := Sized.has_overlay_same (v := v) (pos := 0) (xs := [BitVec.ofNat 8 (18 + extra.length)]) (by simp [Config.packetBuf])
  have hcode := Sized.has_overlay_append (xs := [0x01]) hlength rfl (by simp [Config.packetBuf])
  have hidm := Sized.has_overlay_append (xs := pollFirstByte slot (cs.idm.at 0) :: cs.idm.toList.drop 1) hcode rfl
    (by simp [Config.packetBuf])
  have hpmm := Sized.has_overlay_append (pos := 10) (xs := cs.pmm.toList) hidm (by simp) (by simp [Config.packetBuf])
  have hextra := Sized.has_overlay_append (pos := 18) (xs := extra) hpmm (by simp) (by simp only [Config.packetBuf]; omega)
  simpa [pollBytes] using hextra

/-- Polling for a slot it selects: what it answers, and its place in RSP (R223). -/
theorem polling_answers (hslot : SlotChosen s.cs.sys request slot) (hextra : PollAppends s.cs.sys slot rc extra) :
    ReplyFrame s (polling request rc s) ∧ (polling request rc s).Replies (pollBytes s.cs slot extra) ∧
      (polling request rc s).rsp.Has 0 (pollBytes s.cs slot extra) := by
  have hl := hextra.length_le
  have hhas := has_pollBytes s.rsp s.cs slot hl
  have hfirst : ((pollBytes s.cs slot extra).headD 0).toNat = (pollBytes s.cs slot extra).length := by
    rw [length_pollBytes]
    exact (BitVec.toNat_ofNat ..).trans (Nat.mod_eq_of_lt (by omega))
  rw [polling_eq_answer (selectSlot_eq_some_iff.mpr hslot) (pollExtra_of_pollAppends hextra)]
  exact ⟨replyFrame_answer s _, State.replies_answer hhas hfirst (by simp [pollBytes]), hhas⟩

end

/-- Settles O37: the reply is `pollBytes`, whose first IDm byte is R223's. -/
theorem pollingReply : Obligations.PollingReply := by
  intro s sys rc unread slot extra hslot hextra
  obtain ⟨hframe, hreply, -⟩ := polling_answers hslot hextra
  rw [pollBytes, pollFirstByte_eq] at hreply
  exact ⟨_, rfl, hframe, hreply⟩

/-- Settles O38: the three ways to silence. -/
theorem pollingSilences : Obligations.PollingSilences := by
  rintro s ops (⟨bytes, rfl⟩ | ⟨sys, rc, unread, rfl, h⟩)
  · exact ⟨_, rfl, silentFrom_noResponse s⟩
  · exact ⟨_, congrArg Host.Outcome.next (polling_silent h), silentFrom_noResponse s⟩

/-! ### Polling FF FF -/

/-- Slot 0 leaves the stored IDm as it is (R223). -/
theorem pollBytes_slot_zero (cs : CardState) (extra : List Byte) :
    pollBytes cs 0 extra = [BitVec.ofNat 8 (18 + extra.length), 0x01] ++ cs.idm.toList ++ cs.pmm.toList ++ extra := by
  have hidm : cs.idm.at 0 :: cs.idm.toList.drop 1 = cs.idm.toList := by
    have hlen := cs.idm.length_toList
    rw [Bytes.at]
    cases hl : cs.idm.toList with
    | nil => rw [hl] at hlen; cases hlen
    | cons b bs => rfl
  rw [pollBytes, ← hidm]
  simp [pollFirstByte]

/-- Settles O39: FF FF selects slot 0, whose entry in an empty table is the sentinel. -/
theorem pollingNeverLocksOut : Obligations.PollingNeverLocksOut := by
  intro s rc unread
  refine ⟨fun hrc => ?_, fun hrc => ?_, fun sys hwild hempty => ?_⟩
  · have hslot := slotChosen_wildcard s.cs.sys
    obtain ⟨extra, hextra⟩ := exists_pollAppends hrc s.cs.sys 0
    obtain ⟨-, ⟨hvalid, hseq, -⟩, hhas⟩ := polling_answers hslot hextra
    have response_of {ext : List Byte} (h : PollAppends s.cs.sys 0 rc ext) :
        (polling ⟨0xFF, 0xFF⟩ rc s).response = pollBytes s.cs 0 ext := (polling_answers hslot h).2.1.2.2
    refine ⟨_, rfl, hvalid, hseq, ?_, fun _ h0 => ?_, fun hempty h1 => ?_⟩
    · have htake : (polling ⟨0xFF, 0xFF⟩ rc s).rsp.toList.take (18 + extra.length) = pollBytes s.cs 0 extra := by
        rw [← length_pollBytes s.cs 0 extra]
        exact hhas
      calc ((polling ⟨0xFF, 0xFF⟩ rc s).rsp.toList.drop 2).take 16
          = (((polling ⟨0xFF, 0xFF⟩ rc s).rsp.toList.take (18 + extra.length)).drop 2).take 16 := by
            rw [List.drop_take, List.take_take, Nat.min_eq_left (by omega)]
        _ = (s.cs.idm.toList ++ s.cs.pmm.toList ++ extra).take 16 := by
            rw [htake, pollBytes_slot_zero]
            rfl
        _ = s.cs.idm.toList ++ s.cs.pmm.toList := List.take_left' (by simp)
    · rw [response_of (.inl ⟨h0, rfl⟩), pollBytes_slot_zero]
      simp
    · have hentry : s.cs.sys.entry 0 = sentinel := by
        have h := CodeTable.entry_activeLen (T := s.cs.sys) (by omega)
        rwa [hempty] at h
      rw [response_of (.inr (.inl ⟨h1, rfl⟩)), pollBytes_slot_zero, hentry]
      simp [sentinel]
  · exact ⟨_, congrArg Host.Outcome.next (polling_silent (.inr hrc)), silentFrom_noResponse s⟩
  · exact ⟨_, congrArg Host.Outcome.next (polling_silent (.inl (not_slotChosen_of_empty hwild hempty))), silentFrom_noResponse s⟩

end Sys2Proof.Machine

/-! Two cards with one Card State and one packet give one answer, whatever else their registers hold (46_command_dispatcher.md R215,
R231; 70_reset_and_hazards.md R379). -/

namespace Sys2Proof.Sized

variable {α : Type} {n : Nat}

/-- Two sequences hold the same elements at the positions in `known`. -/
def SameOn (known : Nat → Prop) (v w : Sized α n) : Prop := ∀ i, known i → v.toList[i]? = w.toList[i]?

theorem SameOn.mono {known known' : Nat → Prop} {v w : Sized α n} (h : v.SameOn known w) (hk : ∀ i, known' i → known i) :
    v.SameOn known' w := fun i hi => h i (hk i hi)

/-- A write of the same part makes its positions known. -/
theorem SameOn.overlay {known : Nat → Prop} {v w : Sized α n} (h : v.SameOn known w) (pos : Nat) (xs : List α) :
    (v.overlay pos xs).SameOn (fun i => known i ∨ (pos ≤ i ∧ i < pos + xs.length)) (w.overlay pos xs) := by
  intro i hi
  by_cases hn : i < n
  · by_cases hin : pos ≤ i ∧ i < pos + xs.length
    · rw [getElem?_overlay_inside hin.1 hin.2 hn, getElem?_overlay_inside hin.1 hin.2 hn]
    · rw [getElem?_overlay_outside (by omega) hn, getElem?_overlay_outside (by omega) hn]
      exact h i (hi.resolve_right hin)
  · rw [List.getElem?_eq_none (by simp; omega), List.getElem?_eq_none (by simp; omega)]

/-- A position that one of the parts covers. -/
def Covers (parts : List (Nat × List α)) (i : Nat) : Prop := ∃ p ∈ parts, p.1 ≤ i ∧ i < p.1 + p.2.length

/-- Writes of the same parts make the positions they cover known. -/
theorem SameOn.overlays {known : Nat → Prop} {v w : Sized α n} (h : v.SameOn known w) (parts : List (Nat × List α)) :
    (v.overlays parts).SameOn (fun i => known i ∨ Covers parts i) (w.overlays parts) := by
  induction parts generalizing known v w with
  | nil => exact h.mono fun i hi => hi.resolve_right (by simp [Covers])
  | cons p parts ih =>
    refine (ih (h.overlay p.1 p.2)).mono ?_
    rintro i (hi | ⟨q, hq, hin⟩)
    · exact .inl (.inl hi)
    · rcases List.mem_cons.mp hq with rfl | hq
      · exact .inl (.inr hin)
      · exact .inr ⟨q, hq, hin⟩

theorem SameOn.take {k : Nat} {v w : Sized α n} (h : v.SameOn (· < k) w) : v.toList.take k = w.toList.take k := by
  refine List.ext_getElem? fun i => ?_
  rw [List.getElem?_take, List.getElem?_take]
  split
  · next hi => exact h i hi
  · rfl

end Sys2Proof.Sized

namespace Sys2Proof.Machine

/-! ### Twins -/

/-- Parts behind the length byte leave it as it is. -/
theorem at_zero_overlays {r : Bytes Config.packetBuf} {parts : List (Nat × List Byte)} (h : ∀ p ∈ parts, 0 < p.1) :
    Bytes.at (r.overlays parts) 0 = r.at 0 := by
  induction parts generalizing r with
  | nil => rfl
  | cons p parts ih =>
    obtain ⟨hp, hparts⟩ := List.forall_mem_cons.mp h
    exact (ih hparts).trans (at_zero_overlay hp)

/-- Two cards at work on one packet with one Card State; their RSP registers hold the same bytes at the positions in `known`. -/
structure Twins (known : Nat → Prop) (u u' : State) : Prop where
  cs : u.cs = u'.cs
  packet : u.packet = u'.packet
  rsp : u.rsp.SameOn known u'.rsp

/-- Two states that a reader cannot tell apart (R215): the same Card State, and the same response or none. -/
def Alike (t t' : State) : Prop :=
  t.rspValid = t'.rspValid ∧ t.seq = t'.seq ∧ t.cs = t'.cs ∧ (t.rspValid = true → t.response = t'.response)

/-- A handler that does the same for twins, where the store answers; it finds the header in RSP (R228). -/
def Stateless (handler : State → State) : Prop :=
  ∀ {u u' : State}, Twins (fun i => 1 ≤ i ∧ i < 10) u u' → u.StoreAnswers → u'.StoreAnswers → Alike (handler u) (handler u')

namespace Twins

variable {known : Nat → Prop} {u u' : State}

theorem putRsp (h : Twins known u u') (pos : Nat) (xs : List Byte) :
    Twins (fun i => known i ∨ (pos ≤ i ∧ i < pos + xs.length)) (u.putRsp pos xs) (u'.putRsp pos xs) :=
  ⟨h.cs, h.packet, h.rsp.overlay pos xs⟩

theorem putHeader (h : Twins known u u') (code : Byte) (idm : Bytes 8) :
    Twins (fun i => 1 ≤ i ∧ i < 10) (u.putHeader code idm) (u'.putHeader code idm) :=
  ⟨h.cs, h.packet, (h.rsp.overlay 1 ((code + 1) :: idm.toList)).mono fun i hi => .inr (by simp; omega)⟩

theorem noResponse (h : Twins known u u') : Alike u.noResponse u'.noResponse := ⟨rfl, rfl, h.cs, nofun⟩

/-- Twins answer alike where the length byte is written first, and every byte that it counts is known or written. -/
theorem answer (h : Twins known u u') (logged : Bool) {len : Byte} {bytes : List Byte} {parts : List (Nat × List Byte)}
    (hpos : ∀ p ∈ parts, 0 < p.1)
    (hcover : ∀ i < len.toNat, known i ∨ Sized.Covers ((0, len :: bytes) :: parts) i) :
    Alike (u.answer logged ((0, len :: bytes) :: parts)) (u'.answer logged ((0, len :: bytes) :: parts)) := by
  have hlen (v : State) : (v.answer logged ((0, len :: bytes) :: parts)).rsp.at 0 = len :=
    (at_zero_overlays hpos).trans (Bytes.at_overlay_inside (Nat.le_refl 0) (by simp) (by decide))
  have hcs : u.logError.cs = u'.logError.cs := by rw [State.logError_cs, State.logError_cs, h.cs, h.packet]
  refine ⟨rfl, rfl, ?_, fun _ => ?_⟩
  · cases logged
    · exact h.cs
    · exact hcs
  · rw [State.response, State.response, hlen, hlen]
    exact ((h.rsp.overlays _).mono hcover).take

/-- A failure status stands behind the header (R261). -/
theorem statusFail (h : Twins known u u') (hheader : ∀ i, 1 ≤ i → i < 10 → known i) (f : StatusFailure) :
    Alike (u.statusFail f) (u'.statusFail f) := by
  refine h.answer true (len := 12) (bytes := []) (parts := [(10, [0xFF, f.flag2])]) (by simp) fun i hi => ?_
  by_cases hin : 1 ≤ i ∧ i < 10
  · exact .inl (hheader i hin.1 hin.2)
  · right
    simp [Sized.Covers] at hi ⊢
    omega

end Twins

/-! ### Every handler is stateless -/

theorem stateless_noResponse : Stateless State.noResponse := fun h _ _ => h.noResponse

theorem stateless_requestResponse : Stateless requestResponse := fun h _ _ =>
  h.answer false (len := 11) (bytes := []) (parts := [(10, [0x00])]) (by simp) fun i hi => by
    simp [Sized.Covers] at hi ⊢
    omega

theorem stateless_requestService (ops : ReqSvcOps) : Stateless (requestService ops) := by
  intro u u' h _ _
  rw [requestService, requestService]
  split
  · refine h.answer false (len := BitVec.ofNat 8 (11 + 2 * ops.n.toNat)) (bytes := [])
      (parts := [(10, [ops.n]), (11, List.replicate (2 * ops.n.toNat) 0)]) (by simp) fun i hi => ?_
    simp [Sized.Covers] at hi ⊢
    omega
  · exact h.noResponse

theorem stateless_searchServiceCode (ops : SearchOps) : Stateless (searchServiceCode ops) := by
  intro u u' h _ _
  rw [searchServiceCode, searchServiceCode, h.cs]
  refine h.answer false (len := 12) (bytes := []) (parts := [(10, codeBytes [searchCode u'.cs.svc (searchIndex ops)])]) (by simp)
    fun i hi => ?_
  simp [Sized.Covers] at hi ⊢
  omega

theorem stateless_requestSystemCode : Stateless requestSystemCode := by
  intro u u' h _ _
  rw [requestSystemCode, requestSystemCode, h.cs]
  split
  · exact h.noResponse
  · refine h.answer false (len := BitVec.ofNat 8 (11 + 2 * u'.cs.sys.activeLen)) (bytes := [])
      (parts := [(10, [BitVec.ofNat 8 u'.cs.sys.activeLen]), (11, codeBytes u'.cs.sys.active)]) (by simp) fun i hi => ?_
    have hcount : u'.cs.sys.active.length = u'.cs.sys.activeLen := rfl
    simp [Sized.Covers, hcount] at hi ⊢
    omega

/-- A parsed list has as many block numbers as were asked for (R262). -/
theorem length_of_parseList {n used : Nat} {bytes bs : List Byte} (h : parseList n bytes = some (used, bs)) : bs.length = n := by
  fun_induction parseList n bytes generalizing used bs with
  | case1 => cases h; rfl
  | case2 n b rest ih =>
    obtain ⟨p, hrest, heq⟩ := Option.map_eq_some_iff.mp h
    cases heq
    exact congrArg Nat.succ (ih hrest)
  | case3 n b rest _ ih =>
    obtain ⟨p, hrest, heq⟩ := Option.map_eq_some_iff.mp h
    cases heq
    exact congrArg Nat.succ (ih hrest)
  | _ => cases h

/-- Twins read the same blocks to the same places (R265). -/
theorem Twins.readBlocks {known : Nat → Prop} {u u' : State} (h : Twins known u u') (bs : List Byte) (j : Nat) :
    ∃ resolved v v', readBlocks bs j u = (resolved, v) ∧ readBlocks bs j u' = (resolved, v') ∧
      Twins (fun i => known i ∨ (resolved = true ∧ 13 + 16 * j ≤ i ∧ i < 13 + 16 * (j + bs.length))) v v' := by
  induction bs generalizing known u u' j with
  | nil => exact ⟨true, u, u', rfl, rfl, h.cs, h.packet, h.rsp.mono fun i hi => hi.resolve_right (by simp)⟩
  | cons b bs ih =>
    rw [Machine.readBlocks, Machine.readBlocks, h.cs]
    cases hb : memRead u'.cs b with
    | none => exact ⟨false, u, u', rfl, rfl, h.cs, h.packet, h.rsp.mono fun i hi => hi.resolve_right (by simp)⟩
    | some d =>
      obtain ⟨resolved, v, v', hv, hv', htwins⟩ := ih (h.putRsp (13 + 16 * j) d.toList) (j + 1)
      refine ⟨resolved, v, v', hv, hv', htwins.cs, htwins.packet, htwins.rsp.mono ?_⟩
      rintro i (hi | ⟨hres, hlo, hhi⟩)
      · exact .inl (.inl hi)
      · by_cases hblock : i < 13 + 16 * j + 16
        · exact .inl (.inr ⟨hlo, by simpa using hblock⟩)
        · exact .inr ⟨hres, by omega, by rw [List.length_cons] at hhi; omega⟩

theorem stateless_readCommand (ops : ReadOps) : Stateless (readCommand ops) := by
  intro u u' h _ _
  have fail (f : StatusFailure) : Alike (u.statusFail f) (u'.statusFail f) := h.statusFail (fun _ hi hj => ⟨hi, hj⟩) f
  rw [readCommand, readCommand, h.cs]
  split
  · exact fail _
  split
  · exact fail _
  split
  · exact fail _
  cases hparse : parseList ops.n.toNat ops.list with
  | none => exact fail _
  | some list =>
    obtain ⟨used, bs⟩ := list
    obtain ⟨resolved, v, v', hv, hv', htwins⟩ := h.readBlocks bs 0
    simp only [hv, hv']
    cases resolved
    · exact htwins.statusFail (fun _ hi hj => .inl ⟨hi, hj⟩) _
    · refine htwins.answer false (len := BitVec.ofNat 8 (13 + 16 * ops.n.toNat)) (bytes := [])
        (parts := [(10, [0x00, 0x00]), (12, [ops.n])]) (by simp) fun i hi => ?_
      have hcount := length_of_parseList hparse
      simp [Sized.Covers, hcount] at hi ⊢
      omega

/-- Updates look at nothing of the Card State but what they update (R66). -/
theorem nvUpdate_cs_congr {u u' : State} (h : u.cs = u'.cs) (w : NvWrite) : (u.nvUpdate w).cs = (u'.nvUpdate w).cs := by
  cases w <;> simp [h]

theorem foldl_nvUpdate_cs_congr {u u' : State} (h : u.cs = u'.cs) (ws : List NvWrite) :
    (ws.foldl State.nvUpdate u).cs = (ws.foldl State.nvUpdate u').cs := by
  induction ws generalizing u u' with
  | nil => exact h
  | cons w ws ih => exact ih (nvUpdate_cs_congr h w)

theorem Twins.afterUpdates {known : Nat → Prop} {u u' : State} (h : Twins known u u') (ws : List NvWrite)
    (store rst store' rst' : List Bool) : Twins known (u.afterUpdates ws store rst) (u'.afterUpdates ws store' rst') := by
  have hcs : (u.afterUpdates ws store rst).cs = (u'.afterUpdates ws store' rst').cs := foldl_nvUpdate_cs_congr h.cs ws
  rw [State.afterUpdates_frame u, State.afterUpdates_frame u']
  exact ⟨hcs, h.packet, h.rsp⟩

theorem stateless_writeCommand (ops : WriteOps) : Stateless (writeCommand ops) := by
  intro u u' h hs hs'
  have fail (f : StatusFailure) : Alike (u.statusFail f) (u'.statusFail f) := h.statusFail (fun _ hi hj => ⟨hi, hj⟩) f
  rw [writeCommand, writeCommand]
  split
  · exact fail _
  split
  · exact fail _
  cases parseList ops.n.toNat ops.body with
  | none => exact fail _
  | some list =>
    obtain ⟨used, bs⟩ := list
    simp only
    split
    · exact h.noResponse
    generalize planWrites ops.n.toNat (pairBlocks (ops.body.drop used) 0 bs) = plan
    rw [nvUpdates_of_storeAnswers plan.1 hs, nvUpdates_of_storeAnswers plan.1 hs']
    have hdone := h.afterUpdates plan.1 (u.env.store.drop plan.1.length) (u.env.rst.drop (plan.1.length - 1))
      (u'.env.store.drop plan.1.length) (u'.env.rst.drop (plan.1.length - 1))
    simp only
    split
    · refine hdone.answer false (len := 12) (bytes := []) (parts := [(10, [0x00, 0x00])]) (by simp) fun i hi => ?_
      simp [Sized.Covers] at hi ⊢
      omega
    · exact hdone.statusFail (fun _ hi hj => ⟨hi, hj⟩) _

/-! ### Every command is stateless -/

section

variable {known : Nat → Prop} {s s' : State}

/-- The address check looks at the Card State alone (R226), and what follows finds the header (R228). -/
theorem Twins.addressed {β : Type} {handler : β → State → State} (h : Twins known s s') (hh : ∀ ops, Stateless (handler ops))
    (hs : s.StoreAnswers) (hs' : s'.StoreAnswers) (code : Byte) (a : Addressed β) :
    Alike (addressed code handler a s) (addressed code handler a s') := by
  have hmatch (idm : Bytes 8) : s.addressMatch idm = s'.addressMatch idm := by rw [State.addressMatch, State.addressMatch, h.cs]
  cases a with
  | noIdm bytes => exact h.noResponse
  | short idm bytes =>
    rw [Machine.addressed, Machine.addressed, hmatch]
    split
    · exact (h.putHeader code idm).noResponse
    · exact h.noResponse
  | full idm ops =>
    rw [Machine.addressed, Machine.addressed, hmatch]
    split
    · exact hh ops (h.putHeader code idm) hs hs'
    · exact h.noResponse

/-- Polling writes every byte of its reply itself (R223). -/
theorem Twins.polling (h : Twins known s s') (request : Code) (rc : Byte) : Alike (polling request rc s) (polling request rc s') := by
  cases hslot : selectSlot s'.cs.sys request with
  | none =>
    have hnone := selectSlot_eq_none_iff.mp hslot
    rw [polling_silent (.inl (h.cs ▸ hnone)), polling_silent (.inl hnone)]
    exact h.noResponse
  | some slot =>
    cases hextra : pollExtra Params.commCap s'.cs.sys slot rc with
    | none =>
      rw [Machine.polling, Machine.polling, h.cs, hslot]
      simp only [hextra]
      exact h.noResponse
    | some extra =>
      rw [polling_eq_answer (h.cs ▸ hslot) (h.cs ▸ hextra), polling_eq_answer hslot hextra, h.cs]
      refine h.answer false (by simp) fun i hi => ?_
      simp [Sized.Covers] at hi ⊢
      omega

/-- Echo copies the packet, whose first byte counts no more than its bytes (R224). -/
theorem Twins.echo (h : Twins known s s') {data : List Byte} (hp : s.Holds (.echo data)) :
    Alike (s.putRsp 0 s.packet).respond (s'.putRsp 0 s'.packet).respond := by
  rw [← h.packet, hp]
  refine h.answer false (parts := []) (by simp) fun i hi => ?_
  simp [Sized.Covers] at hi ⊢
  omega

theorem Twins.exec (h : Twins known s s') {i : Instr} (hp : s.Holds i) (hs : s.StoreAnswers) (hs' : s'.StoreAnswers) :
    ∃ t t', exec i s = .next t ∧ exec i s' = .next t' ∧ Alike t t' := by
  cases i with
  | poll ops =>
    cases ops with
    | short bytes => exact ⟨_, _, rfl, rfl, h.noResponse⟩
    | full sys rc unread => exact ⟨_, _, rfl, rfl, h.polling sys rc⟩
  | echo data => exact ⟨_, _, rfl, rfl, h.echo hp⟩
  | reqsvc a => exact ⟨_, _, rfl, rfl, h.addressed stateless_requestService hs hs' _ a⟩
  | reqrsp a => exact ⟨_, _, rfl, rfl, h.addressed (fun _ => stateless_requestResponse) hs hs' _ a⟩
  | read a => exact ⟨_, _, rfl, rfl, h.addressed stateless_readCommand hs hs' _ a⟩
  | write a => exact ⟨_, _, rfl, rfl, h.addressed stateless_writeCommand hs hs' _ a⟩
  | search a => exact ⟨_, _, rfl, rfl, h.addressed stateless_searchServiceCode hs hs' _ a⟩
  | reqsys a => exact ⟨_, _, rfl, rfl, h.addressed (fun _ => stateless_requestSystemCode) hs hs' _ a⟩
  | auth1 a => exact ⟨_, _, rfl, rfl, h.addressed (fun _ => stateless_noResponse) hs hs' _ a⟩
  | unsupportedEven code a => exact ⟨_, _, rfl, rfl, h.addressed (fun _ => stateless_noResponse) hs hs' _ a⟩
  | oddCode code a => exact ⟨_, _, rfl, rfl, h.noResponse⟩

end

/-- Settles O21: two cards with one Card State and one packet are twins, whatever bytes their RSP registers hold. -/
theorem commandsAreStateless : Obligations.CommandsAreStateless := by
  intro i s s' t t' hcs hp hp' hs hs' ht ht'
  have htwins : Twins (fun _ => False) s s' := ⟨hcs, hp.trans hp'.symm, nofun⟩
  obtain ⟨u, u', hu, hu', halike⟩ := htwins.exec hp hs hs'
  cases hu.symm.trans ht
  cases hu'.symm.trans ht'
  exact halike

end Sys2Proof.Machine

/-! LOAD and DELAY in a run, and how an agent answers the next calls (70_reset_and_hazards.md R362, R374, R381). -/

namespace Sys2Proof.Machine

/-! ### The next calls to an agent -/

/-- No refusal among the next `k` answers of an agent: all `k` calls are answered. -/
theorem takeAnswers_of_not_mem_take {k : Nat} {l : List Bool} (h : false ∉ l.take k) : takeAnswers k l = (true, l.drop k) := by
  fun_induction takeAnswers k l with
  | case1 l => rfl
  | case2 k => rfl
  | case3 k l ih => exact ih fun hm => h (List.mem_cons_of_mem true hm)
  | case4 k l => exact absurd List.mem_cons_self h

/-- A refusal among the next `k` answers: one of the calls is never answered (R374). -/
theorem takeAnswers_of_mem_take {k : Nat} {l : List Bool} (h : false ∈ l.take k) : ∃ later, takeAnswers k l = (false, later) := by
  fun_induction takeAnswers k l with
  | case1 l => simp at h
  | case2 k => simp at h
  | case3 k l ih => exact ih (by simpa using h)
  | case4 k l => exact ⟨l, rfl⟩

/-! ### LOAD and DELAY -/

/-- LOAD with its sixteen reads answered (R362). -/
theorem loadStep_of_answered {s : State} (h : false ∉ s.env.store.take 16) :
    loadStep s = { s with
      seq := .capture, nCap := 0
      cs := { s.cs with idm := s.nv.idm, pmm := s.nv.pmm, svc := s.nv.svc, sys := s.nv.sys, blk := s.nv.blk }
      env := { s.env with store := s.env.store.drop 16 } } := by
  have hans : takeAnswers loadCalls s.env.store = (true, s.env.store.drop 16) := takeAnswers_of_not_mem_take h
  rw [loadStep, hans]
  rfl

/-- LOAD with a read that is never answered: the Card State is as it was (R374). -/
theorem loadStep_of_unanswered {s : State} (h : false ∈ s.env.store.take 16) :
    ∃ store, loadStep s = { s with waiting := true, env := { s.env with store := store } } := by
  obtain ⟨store, hans⟩ : ∃ store, takeAnswers loadCalls s.env.store = (false, store) := takeAnswers_of_mem_take h
  refine ⟨store, ?_⟩
  rw [loadStep, hans]
  rfl

/-- Settles O10: the step passes the boundary and moves the image. -/
theorem loadMovesImage : Obligations.LoadMovesImage := by
  intro s hr hq hs
  rw [step_load hr hq]
  exact congrArg Host.Outcome.next (loadStep_of_answered (s := s.passBoundary) hs)

/-- Settles O11: DELAY enters CAPTURE. -/
theorem delayReturnsToCapture : Obligations.DelayReturnsToCapture := fun _ hr hq => step_delay hr hq

end Sys2Proof.Machine

/-! The block lists and the Virtual Block Map (48_read_write.md R262; 49_virtual_block_map.md R290 to R316). -/

namespace Sys2Proof.Machine

/-! ### Which block lists parse -/

/-- What parses is a block list and what follows it (R262). -/
theorem exists_of_parseList {n used : Nat} {bytes numbers : List Byte} (h : parseList n bytes = some (used, numbers)) :
    ∃ es rest, es.length = n ∧ bytes = listBytes es ++ rest ∧ numbers = es.map BlockElement.number ∧
      used = (listBytes es).length := by
  fun_induction parseList n bytes generalizing used numbers with
  | case1 bytes => cases h; exact ⟨[], bytes, rfl, rfl, rfl, rfl⟩
  | case2 n b rest ih =>
    obtain ⟨⟨used, numbers⟩, hrest, heq⟩ := Option.map_eq_some_iff.mp h
    cases heq
    obtain ⟨es, rest, rfl, rfl, rfl, rfl⟩ := ih hrest
    exact ⟨.short b :: es, rest, rfl, rfl, rfl, rfl⟩
  | case3 n b rest _ ih =>
    obtain ⟨⟨used, numbers⟩, hrest, heq⟩ := Option.map_eq_some_iff.mp h
    cases heq
    obtain ⟨es, rest, rfl, rfl, rfl, rfl⟩ := ih hrest
    exact ⟨.long b :: es, rest, rfl, rfl, rfl, rfl⟩
  | _ => cases h

/-- Settles O49: a block list parses to its numbers, and what parses is one. -/
theorem blockListParsing : Obligations.BlockListParsing := by
  intro n used bytes numbers
  refine ⟨exists_of_parseList, ?_⟩
  rintro ⟨es, rest, rfl, rfl, rfl, rfl⟩
  exact parseList_listBytes es rest

/-- The parser fails on everything else (R262). -/
theorem parseList_eq_none {n : Nat} {bytes : List Byte} (h : ¬ StartsWithList n bytes) : parseList n bytes = none := by
  cases hp : parseList n bytes with
  | none => rfl
  | some list =>
    obtain ⟨es, rest, hlen, hbytes, -, -⟩ := exists_of_parseList hp
    exact absurd ⟨es, rest, hlen, hbytes⟩ h

/-! ### What a block number reads as -/

theorem memRead_of_real {b : Byte} (h : b.toNat < 12) (cs : CardState) : memRead cs b = some (cs.blk.readBlock b.toNat) :=
  if_pos h

/-- A byte of a block of storage (R292). -/
theorem Memory.at_readBlock (m : Memory) (b : Nat) {i : Nat} (h : i < 16) : (m.readBlock b).at i = m.read (16 * b + i) := by
  simp [Memory.readBlock, Bytes.at, h]

theorem codeBytes_eq_flatMap (codes : List Code) : codeBytes codes = codes.flatMap fun c => [c.b0, c.b1] := by
  induction codes with
  | nil => rfl
  | cons c codes ih => rw [codeBytes, ih]; rfl

/-- A short list fills the start of a block, with zeros behind it (R299). -/
theorem toList_ofList_block {l : List Byte} (h : l.length ≤ 16) :
    (Bytes.ofList 16 l).toList = l ++ List.replicate (16 - l.length) 0x00 := by
  rw [Bytes.ofList, Sized.toList_ofListD, List.take_append, List.take_of_length_le h, List.take_replicate]
  congr 2
  omega

/-- A table's four entries and eight zeros (R299). -/
theorem CodeTable.toList_pack (t : CodeTable) :
    t.pack.toList = t.toList.flatMap (fun c => [c.b0, c.b1]) ++ List.replicate 8 0x00 := by
  have hlen : (codeBytes t.toList).length = 8 := by rw [length_codeBytes, Sized.length_toList]
  rw [CodeTable.pack, toList_ofList_block (by omega), hlen, codeBytes_eq_flatMap]

/-- Settles O50: the chain of `memRead`, one class of block numbers after the other. -/
theorem blockReadMap : Obligations.BlockReadMap := by
  intro cs b
  refine ⟨fun h => ⟨_, memRead_of_real h cs, fun i hi => Memory.at_readBlock _ _ hi⟩, ?_, ?_, ?_, ?_, ?_, ?_, ?_, ?_, ?_⟩
  · rintro (⟨h12, h15⟩ | h)
    · rw [memRead, if_neg (by simp only [Config.nBlocks]; omega), if_pos (by omega)]
      rfl
    · fin_cases h <;> rfl
  · rintro rfl; rfl
  · rintro rfl; rfl
  · rintro rfl
    refine congrArg some ((toList_ofList_block (by simp)).trans ?_)
    simp
  · rintro rfl
    exact congrArg some (Bytes.toList_ofList_of_length (by simp))
  · rintro rfl
    exact congrArg some cs.svc.toList_pack
  · rintro rfl
    exact congrArg some cs.sys.toList_pack
  · rintro rfl; rfl
  · intro h
    rw [memRead, if_neg (by simp only [Config.nBlocks]; omega), if_neg (by omega)]
    repeat rw [if_neg (by bv_omega)]

/-! ### What a write to a block number does -/

/-- A block that takes no write takes none of the calls (R316). -/
theorem memWrite_of_not_writable {b : Byte} {n : Nat} (h : ¬ Writable b n) (v : Block) : memWrite b v n = none := by
  cases hw : memWrite b v n with
  | none => rfl
  | some us =>
    refine absurd ?_ h
    rcases memWrite_cases hw with ⟨hb, -⟩ | ⟨hb, hn, -⟩ | ⟨hb, hn, -⟩ | ⟨hb, hn, -⟩ | ⟨hb, -⟩
    · exact .inl (.inl hb)
    · exact .inr ⟨hn, .inl hb⟩
    · exact .inr ⟨hn, .inr (.inl hb)⟩
    · exact .inr ⟨hn, .inr (.inr hb)⟩
    · exact .inl (.inr hb)

theorem memWrite_of_noop {b : Byte} (h : b = 0x80 ∨ b = 0x90 ∨ b = 0x91) (v : Block) (n : Nat) : memWrite b v n = some [] := by
  rcases h with rfl | rfl | rfl <;> rfl

/-- The table of a payload (R314). -/
theorem CodeTable.entry_ofBlock (v : Block) {i : Nat} (h : i < 4) :
    (CodeTable.ofBlock v).entry i = ⟨v.at (2 * i), v.at (2 * i + 1)⟩ := by
  match i, h with
  | 0, _ => rfl
  | 1, _ => rfl
  | 2, _ => rfl
  | 3, _ => rfl

/-- The two halves of an identity payload are all of it (R313). -/
theorem toList_halves (v : Block) :
    (Bytes.ofList 8 (v.toList.take 8)).toList ++ (Bytes.ofList 8 (v.toList.drop 8)).toList = v.toList := by
  rw [Bytes.toList_ofList_of_length (by simp), Bytes.toList_ofList_of_length (by simp), List.take_append_drop]

/-- Settles O51: the chain of `memWrite`, one class of block numbers after the other. -/
theorem blockWriteMap : Obligations.BlockWriteMap := by
  intro b v n
  refine ⟨fun h => if_pos h, ?_, ?_, ?_, fun h => memWrite_of_noop h v n, fun h => memWrite_of_not_writable h v⟩
  · rintro rfl rfl
    exact ⟨_, _, rfl, toList_halves v⟩
  · rintro rfl rfl
    exact ⟨_, rfl, fun i hi => CodeTable.entry_ofBlock v hi⟩
  · rintro rfl rfl
    exact ⟨_, rfl, fun i hi => CodeTable.entry_ofBlock v hi⟩

end Sys2Proof.Machine

/-! The replies of Request Service, Search Service Code and Request System Code (47_service_commands.md R246, R250, R253). -/

namespace Sys2Proof.Machine

/-! ### Replies behind a header -/

/-- RSP behind its length byte and the header of an addressed reply (R93, R94). -/
def replyHeader (len : Nat) (code : Byte) (idm : Bytes 8) : List Byte :=
  BitVec.ofNat 8 len :: (code + 1) :: idm.toList

@[simp] theorem length_replyHeader (len : Nat) (code : Byte) (idm : Bytes 8) : (replyHeader len code idm).length = 10 := by
  simp [replyHeader]

/-- The length byte joins the header that the dispatcher wrote (R93, R228). -/
theorem State.HasHeader.has_replyHeader {s : State} {code : Byte} {idm : Bytes 8} (h : s.HasHeader code idm) (len : Nat) :
    (s.putLength len).rsp.Has 0 (replyHeader len code idm) := by
  have hlength : (s.putLength len).rsp.Has 0 [BitVec.ofNat 8 len] := Sized.has_overlay_same (by simp [Config.packetBuf])
  exact Sized.has_append hlength (h.putLength len)

/-- RSP holds a header and a body of the length that its first byte says: the command is answered with them (R216). -/
theorem State.replies_respond {s : State} {len : Nat} {code : Byte} {idm : Bytes 8} {body : List Byte}
    (h : s.rsp.Has 0 (replyHeader len code idm ++ body)) (hlen : len = 10 + body.length) (hl : len < 256) :
    s.respond.Replies (replyHeader len code idm ++ body) := by
  refine ⟨rfl, rfl, State.response_of_has (s := s.respond) h ?_ (by simp [replyHeader])⟩
  rw [List.length_append, length_replyHeader, ← hlen]
  exact (BitVec.toNat_ofNat ..).trans (Nat.mod_eq_of_lt hl)

/-- An answer of which only RSP was written (R216). -/
theorem replyFrame_respond {s u : State} (h : RspOnly s u) : ReplyFrame s u.respond := by
  rw [RspOnly] at h
  rw [h]
  rfl

theorem State.rspOnly_putHeader (s : State) (code : Byte) (idm : Bytes 8) : RspOnly s (s.putHeader code idm) :=
  (RspOnly.refl s).putRsp _ _

/-! ### Request Service -/

theorem nodeCountOk_iff (n : Byte) : nodeCountOk n = true ↔ 1 ≤ n.toNat ∧ n.toNat ≤ 32 := by
  rw [nodeCountOk, Bool.and_eq_true, decide_eq_true_eq, decide_eq_true_eq]

/-- Key versions for a legal count (R246). -/
theorem requestService_replies {s : State} {code : Byte} {idm : Bytes 8} (h : s.HasHeader code idm) {ops : ReqSvcOps}
    (hn : 1 ≤ ops.n.toNat ∧ ops.n.toNat ≤ 32) :
    (requestService ops s).Replies
      (replyHeader (11 + 2 * ops.n.toNat) code idm ++ ([ops.n] ++ List.replicate (2 * ops.n.toNat) 0x00)) := by
  rw [requestService, if_pos ((nodeCountOk_iff ops.n).mpr hn)]
  refine State.replies_respond ?_ (by simp; omega) (by omega)
  have hcount := Sized.has_overlay_append (pos := 10) (xs := [ops.n]) (h.has_replyHeader (11 + 2 * ops.n.toNat)) (by simp)
    (by simp [Config.packetBuf])
  have hversions := Sized.has_overlay_append (pos := 11) (xs := List.replicate (2 * ops.n.toNat) 0x00) hcount (by simp)
    (by simp [Config.packetBuf]; omega)
  rwa [List.append_assoc] at hversions

theorem replyFrame_requestService {s u : State} (h : RspOnly s u) {ops : ReqSvcOps} (hn : 1 ≤ ops.n.toNat ∧ ops.n.toNat ≤ 32) :
    ReplyFrame s (requestService ops u) := by
  rw [requestService, if_pos ((nodeCountOk_iff ops.n).mpr hn)]
  exact replyFrame_respond (((h.putRsp _ _).putRsp _ _).putRsp _ _)

theorem requestService_silent {s : State} {ops : ReqSvcOps} (hn : ¬ (1 ≤ ops.n.toNat ∧ ops.n.toNat ≤ 32)) :
    requestService ops s = s.noResponse :=
  if_neg fun h => hn ((nodeCountOk_iff ops.n).mp h)

/-- Settles O45: the count decides between the key versions and silence. -/
theorem requestServiceReply : Obligations.RequestServiceReply := by
  intro s idm ha
  refine ⟨fun ops => ⟨_, congrArg Host.Outcome.next (addressed_of_match ha), ?_⟩,
    fun bytes => ⟨_, congrArg Host.Outcome.next (addressed_of_match_short ha), silentAfterHeader_noResponse s 0x02 idm⟩⟩
  split
  · next hn =>
    have hreply := requestService_replies (s.hasHeader_putHeader 0x02 idm) hn
    rw [← List.append_assoc] at hreply
    exact ⟨hreply, replyFrame_requestService (s.rspOnly_putHeader 0x02 idm) hn⟩
  · next hn =>
    rw [requestService_silent hn]
    exact silentAfterHeader_noResponse s 0x02 idm

/-! ### Search Service Code -/

/-- The search is R250's: the active entry at the index, or FF FF. -/
theorem searchCode_eq (T : CodeTable) (idx : Nat) :
    searchCode T idx = if idx < T.activeLen then T.entry idx else ⟨0xFF, 0xFF⟩ := by
  rw [searchCode]
  split
  · next h => rw [CodeTable.entry_of_lt h, List.getD_eq_getElem _ _ h]
  · next h => exact List.getD_eq_default _ _ (Nat.le_of_not_lt h)

theorem searchServiceCode_replies {s : State} {code : Byte} {idm : Bytes 8} (h : s.HasHeader code idm) (ops : SearchOps) :
    (searchServiceCode ops s).Replies
      (replyHeader 12 code idm ++ codeBytes [searchCode s.cs.svc (searchIndex ops)]) := by
  refine State.replies_respond ?_ (by simp) (by omega)
  exact Sized.has_overlay_append (pos := 10) (h.has_replyHeader 12) (by simp) (by simp [Config.packetBuf])

/-- Settles O46: the reply holds the code that the search finds. -/
theorem searchServiceCodeReply : Obligations.SearchServiceCodeReply := by
  intro s idm ha
  refine ⟨fun ops => ⟨_, congrArg Host.Outcome.next (addressed_of_match ha), ?_,
      replyFrame_respond (((s.rspOnly_putHeader 0x0A idm).putRsp _ _).putRsp _ _)⟩,
    fun bytes => ⟨_, congrArg Host.Outcome.next (addressed_of_match_short ha), silentAfterHeader_noResponse s 0x0A idm⟩⟩
  rw [← searchCode_eq]
  exact searchServiceCode_replies (s.hasHeader_putHeader 0x0A idm) ops

/-! ### Request System Code -/

/-- The active entries are the first ones of the table (R41). -/
theorem CodeTable.active_eq_take (T : CodeTable) : T.active = T.toList.take T.activeLen :=
  List.prefix_iff_eq_take.mp (List.takeWhile_prefix _)

theorem requestSystemCode_replies {s : State} {code : Byte} {idm : Bytes 8} (h : s.HasHeader code idm)
    (hk : s.cs.sys.activeLen ≠ 0) :
    (requestSystemCode s).Replies
      (replyHeader (11 + 2 * s.cs.sys.activeLen) code idm ++
        ([BitVec.ofNat 8 s.cs.sys.activeLen] ++ codeBytes s.cs.sys.active)) := by
  have h4 := s.cs.sys.activeLen_le
  have hlen : (codeBytes s.cs.sys.active).length = 2 * s.cs.sys.activeLen := length_codeBytes _
  rw [requestSystemCode, if_neg hk]
  refine State.replies_respond ?_ (by simp only [List.length_append, List.length_singleton, hlen]; omega) (by omega)
  have hcount := Sized.has_overlay_append (pos := 10) (xs := [BitVec.ofNat 8 s.cs.sys.activeLen])
    (h.has_replyHeader (11 + 2 * s.cs.sys.activeLen)) (by simp) (by simp [Config.packetBuf])
  have hcodes := Sized.has_overlay_append (pos := 11) (xs := codeBytes s.cs.sys.active) hcount (by simp)
    (by simp only [Config.packetBuf]; omega)
  rwa [List.append_assoc] at hcodes

theorem replyFrame_requestSystemCode {s u : State} (h : RspOnly s u) (hk : u.cs.sys.activeLen ≠ 0) :
    ReplyFrame s (requestSystemCode u) := by
  rw [requestSystemCode, if_neg hk]
  exact replyFrame_respond (((h.putRsp _ _).putRsp _ _).putRsp _ _)

theorem requestSystemCode_silent {s : State} (hk : s.cs.sys.activeLen = 0) : requestSystemCode s = s.noResponse := if_pos hk

/-- Settles O47: an empty table decides for silence. -/
theorem requestSystemCodeReply : Obligations.RequestSystemCodeReply := by
  intro s idm unread ha
  refine ⟨_, congrArg Host.Outcome.next (addressed_of_match ha), ?_⟩
  split
  · next hk =>
    rw [requestSystemCode_silent (s := s.putHeader 0x0C idm) hk]
    exact silentAfterHeader_noResponse s 0x0C idm
  · next hk =>
    have hreply := requestSystemCode_replies (s.hasHeader_putHeader 0x0C idm) hk
    rw [← List.append_assoc, codeBytes_eq_flatMap, CodeTable.active_eq_take] at hreply
    exact ⟨hreply, replyFrame_requestSystemCode (s.rspOnly_putHeader 0x0C idm) hk⟩

end Sys2Proof.Machine

/-! Read Without Encryption: its blocks in request order, and its failures (48_read_write.md R261, R265 to R267). -/

namespace Sys2Proof.Machine

/-! ### Status failures behind a header -/

/-- A status failure answers flag1 FF and its flag2, and slot 0 of the log takes the command (R261, R320). -/
theorem failsWith_statusFail {s u : State} {code : Byte} {idm : Bytes 8} (hu : u.HasHeader code idm)
    (hpacket : u.packet = s.packet) (f : StatusFailure) : FailsWith s (u.statusFail f) code idm f.flag2 := by
  refine ⟨?_, ?_⟩
  · have hheader := State.HasHeader.has_replyHeader (s := u.logError) hu 12
    have hflags := Sized.has_overlay_append (pos := 10) (xs := [0xFF, f.flag2]) hheader (by simp) (by simp [Config.packetBuf])
    exact State.replies_respond (s := (u.logError.putLength 12).putFlags 0xFF f.flag2) hflags (by simp) (by decide)
  · rw [← hpacket]
    exact Sized.getElem?_overlay_inside (Nat.le_refl 0) (by simp) (by omega)

/-- A command at work writes no part of the packet. -/
theorem RspOnly.packet {s u : State} (h : RspOnly s u) : u.packet = s.packet := (congrArg State.packet h :)

/-! ### Which service resolves -/

theorem CodeTable.mem_active_iff {T : CodeTable} {v : Code} : v ∈ T.active ↔ ∃ i, i < T.activeLen ∧ T.entry i = v := by
  rw [List.mem_iff_getElem]
  constructor
  · rintro ⟨i, h, rfl⟩
    exact ⟨i, h, CodeTable.entry_of_lt h⟩
  · rintro ⟨i, h, rfl⟩
    exact ⟨i, h, (CodeTable.entry_of_lt h).symm⟩

theorem serviceResolves_iff {svc : CodeTable} {v : Code} : serviceResolves svc v = true ↔ Resolves svc v := by
  rw [serviceResolves, Resolves, Bool.or_eq_true, beq_iff_eq, List.contains_iff_mem, CodeTable.mem_active_iff]

/-! ### The checks of Read -/

section

variable {s : State} {ops : ReadOps}

theorem readCommand_of_serviceCount (hm : ops.m ≠ 1) : readCommand ops s = s.statusFail .serviceCount := if_pos hm

theorem readCommand_of_unknownService (hm : ops.m = 1) (hr : ¬ Resolves s.cs.svc ops.svc) :
    readCommand ops s = s.statusFail .serviceOrList := by
  rw [readCommand, if_neg (not_not.mpr hm), if_pos]
  rwa [Bool.not_eq_true', ← Bool.not_eq_true, serviceResolves_iff]

variable (hm : ops.m = 1) (hr : Resolves s.cs.svc ops.svc)
include hm hr

theorem readCommand_of_blockCount (hn : ¬ CountOk ops.n) : readCommand ops s = s.statusFail .blockCount := by
  rw [readCommand, if_neg (not_not.mpr hm), if_neg (by simp [serviceResolves_iff.mpr hr]), if_pos]
  rwa [Bool.not_eq_true', ← Bool.not_eq_true, blockCountOk_iff]

variable (hn : CountOk ops.n)
include hn

theorem readCommand_of_badList (hl : ¬ StartsWithList ops.n.toNat ops.list) :
    readCommand ops s = s.statusFail .serviceOrList := by
  rw [readCommand, if_neg (not_not.mpr hm), if_neg (by simp [serviceResolves_iff.mpr hr]),
    if_neg (by simp [(blockCountOk_iff _).mpr hn]), parseList_eq_none hl]

/-- A Read that passes the checks before its blocks (R265). -/
theorem readCommand_of_list {es : List BlockElement} {rest : List Byte} (hlen : es.length = ops.n.toNat)
    (hlist : ops.list = listBytes es ++ rest) {resolved : Bool} {u : State}
    (hread : readBlocks (es.map BlockElement.number) 0 s = (resolved, u)) :
    readCommand ops s =
      if resolved then ((u.putLength (13 + 16 * ops.n.toNat)).statusOk.putRsp 12 [ops.n]).respond
      else u.statusFail .block := by
  rw [readCommand, if_neg (not_not.mpr hm), if_neg (by simp [serviceResolves_iff.mpr hr]),
    if_neg (by simp [(blockCountOk_iff _).mpr hn]), hlist, ← hlen, parseList_listBytes]
  simp only [hread]
  cases resolved <;> rfl

end

/-- A Read that fails a check: a status failure with that check's flag2, after no more than RSP was written (R265, R333). -/
theorem readCommand_of_failure {s : State} {ops : ReadOps} {flag2 : Byte} (h : ReadFailure s.cs ops flag2) :
    ∃ u f, readCommand ops s = u.statusFail f ∧ f.flag2 = flag2 ∧ RspOnly s u ∧
      ∀ code idm, s.HasHeader code idm → u.HasHeader code idm := by
  rcases h with ⟨hm, rfl⟩ | ⟨hm, hr, rfl⟩ | ⟨hm, hr, hn, rfl⟩ | ⟨hm, hr, hn, hl, rfl⟩ |
    ⟨hm, hr, hn, ⟨es, rest, hlen, hlist, e, he, hnone⟩, rfl⟩
  · exact ⟨s, .serviceCount, readCommand_of_serviceCount hm, rfl, .refl s, fun _ _ => id⟩
  · exact ⟨s, .serviceOrList, readCommand_of_unknownService hm hr, rfl, .refl s, fun _ _ => id⟩
  · exact ⟨s, .blockCount, readCommand_of_blockCount hm hr hn, rfl, .refl s, fun _ _ => id⟩
  · exact ⟨s, .serviceOrList, readCommand_of_badList hm hr hn hl, rfl, .refl s, fun _ _ => id⟩
  · obtain ⟨hframe, hall⟩ := readBlocks_cases (es.map BlockElement.number) 0 s
    have hstop : (readBlocks (es.map BlockElement.number) 0 s).1 = false := by
      by_contra htrue
      exact hall.mp (by simpa using htrue) e.number (List.mem_map_of_mem he) hnone
    refine ⟨(readBlocks (es.map BlockElement.number) 0 s).2, .block, ?_, rfl, hframe, fun _ _ hh => hh.readBlocks _ 0⟩
    rw [readCommand_of_list hm hr hn hlen hlist (Prod.ext hstop rfl)]
    rfl

/-- Settles O53: the first failing check ends the Read behind the header. -/
theorem readFailureReply : Obligations.ReadFailureReply := by
  intro s idm ops flag2 ha hfail
  obtain ⟨u, f, he, rfl, hu, hheader⟩ := readCommand_of_failure (s := s.putHeader 0x06 idm) hfail
  have hrsp : RspOnly s u := hu
  refine ⟨_, congrArg Host.Outcome.next ((addressed_of_match ha).trans he), ?_, (statusFrame_statusFail hrsp f).1⟩
  exact failsWith_statusFail (hheader _ _ (s.hasHeader_putHeader 0x06 idm)) hrsp.packet f

/-! ### The blocks of a Read -/

/-- The block reads write behind what stands before block `j` (R265). -/
theorem readBlocks_has_below {s : State} {pos : Nat} {xs : List Byte} {j : Nat} (h : s.rsp.Has pos xs) (bs : List Byte)
    (hp : pos + xs.length ≤ 13 + 16 * j) (hfit : pos + xs.length ≤ 255) : (readBlocks bs j s).2.rsp.Has pos xs := by
  induction bs generalizing s j with
  | nil => exact h
  | cons b bs ih =>
    rw [readBlocks]
    cases memRead s.cs b with
    | none => exact h
    | some d => exact ih (Sized.has_overlay_disjoint h (.inr hp) hfit) (by omega)

/-- Blocks that all resolve stand in RSP in request order (R265). -/
theorem readBlocks_has {s : State} {bs : List Byte} {data : List Block} {j : Nat} (h : bs.map (memRead s.cs) = data.map some)
    (hfit : 13 + 16 * (j + data.length) ≤ 255) :
    (readBlocks bs j s).1 = true ∧ (readBlocks bs j s).2.rsp.Has (13 + 16 * j) (data.flatMap Sized.toList) := by
  induction bs generalizing s j data with
  | nil =>
    obtain rfl : data = [] := by simpa using h.symm
    exact ⟨rfl, Sized.has_nil _ _⟩
  | cons b bs ih =>
    match data, h with
    | d :: data, h =>
      obtain ⟨hb, hbs⟩ := List.cons.inj h
      rw [List.length_cons] at hfit
      obtain ⟨hall, hrest⟩ := ih (s := s.putRsp (13 + 16 * j) d.toList) (j := j + 1) hbs (by omega)
      have hblock : (s.putRsp (13 + 16 * j) d.toList).rsp.Has (13 + 16 * j) d.toList :=
        Sized.has_overlay_same (by simp [Config.packetBuf]; omega)
      have hfirst := readBlocks_has_below (j := j + 1) hblock bs (by simp; omega) (by simp; omega)
      rw [readBlocks, hb]
      have hpos : 13 + 16 * j + d.toList.length = 13 + 16 * (j + 1) := by simp; omega
      exact ⟨hall, Sized.has_append hfirst (hpos ▸ hrest)⟩

/-- A Read whose blocks all resolve: what it answers behind a header (R265). -/
theorem readBlocks_replies {u : State} {code : Byte} {idm : Bytes 8} {n : Byte} {data : List Block} (h : u.HasHeader code idm)
    (hdata : u.rsp.Has 13 (data.flatMap Sized.toList)) (hlen : data.length = n.toNat) (hn : n.toNat ≤ 12) :
    ((u.putLength (13 + 16 * n.toNat)).statusOk.putRsp 12 [n]).respond.Replies
      (replyHeader (13 + 16 * n.toNat) code idm ++ ([0x00, 0x00] ++ [n] ++ data.flatMap Sized.toList)) := by
  have hbytes : (data.flatMap Sized.toList).length = 16 * n.toNat := hlen ▸ length_flatMap_blocks data
  have hfit : 13 + (data.flatMap Sized.toList).length ≤ Config.packetBuf := by simp only [Config.packetBuf]; omega
  have hflags := Sized.has_overlay_append (pos := 10) (xs := [0x00, 0x00]) (h.has_replyHeader (13 + 16 * n.toNat)) (by simp)
    (by simp [Config.packetBuf])
  have hcount := Sized.has_overlay_append (pos := 12) (xs := [n]) hflags (by simp) (by simp [Config.packetBuf])
  have hblocks : ((u.putLength (13 + 16 * n.toNat)).statusOk.putRsp 12 [n]).rsp.Has 13 (data.flatMap Sized.toList) :=
    Sized.has_overlay_disjoint (Sized.has_overlay_disjoint
      (Sized.has_overlay_disjoint hdata (.inl (by simp)) hfit) (.inl (by simp)) hfit) (.inl (by simp)) hfit
  refine State.replies_respond ?_ (by simp only [List.length_append, List.length_cons, List.length_nil, hbytes]; omega) (by omega)
  have hall := Sized.has_append hcount (by simpa using hblocks)
  simpa using hall

/-- Settles O52: the header, the flags, the count, and the blocks that the loop has written behind them. -/
theorem readReply : Obligations.ReadReply := by
  intro s idm ops es rest data ha hm hr hn hlen hlist hdata
  have hcount : data.length = ops.n.toNat := by
    rw [← hlen]
    simpa using (congrArg List.length hdata).symm
  have h12 : ops.n.toNat ≤ 12 := hn.2
  have hmap : (es.map BlockElement.number).map (memRead (s.putHeader 0x06 idm).cs) = data.map some := by
    rw [← hdata, List.map_map]
    rfl
  obtain ⟨hall, hblocks⟩ := readBlocks_has (s := s.putHeader 0x06 idm) (j := 0) hmap (by omega)
  have hheader := (s.hasHeader_putHeader 0x06 idm).readBlocks (es.map BlockElement.number) 0
  have hframe : RspOnly s (readBlocks (es.map BlockElement.number) 0 (s.putHeader 0x06 idm)).2 := (readBlocks_cases _ 0 _).1
  have he := readCommand_of_list (s := s.putHeader 0x06 idm) hm hr hn hlen hlist (Prod.ext hall rfl)
  refine ⟨_, congrArg Host.Outcome.next ((addressed_of_match ha).trans (he.trans (if_pos rfl))),
    replyFrame_respond (((hframe.putRsp _ _).putRsp _ _).putRsp _ _), ?_⟩
  have hreply := readBlocks_replies hheader hblocks hcount h12
  simpa [replyHeader] using hreply

end Sys2Proof.Machine

/-! Write Without Encryption: its failures, and what it stores (48_read_write.md R270 to R272; 49_virtual_block_map.md R311 to R316). -/

namespace Sys2Proof.Machine

/-! ### The checks of Write -/

section

variable {s : State} {ops : WriteOps}

theorem writeCommand_of_serviceCount (hm : ops.m ≠ 1) : writeCommand ops s = s.statusFail .serviceCount := if_pos hm

variable (hm : ops.m = 1)
include hm

theorem writeCommand_of_blockCount (hn : ¬ CountOk ops.n) : writeCommand ops s = s.statusFail .blockCount := by
  rw [writeCommand, if_neg (not_not.mpr hm), if_pos]
  rwa [Bool.not_eq_true', ← Bool.not_eq_true, blockCountOk_iff]

variable (hn : CountOk ops.n)
include hn

theorem writeCommand_of_badList (hl : ¬ StartsWithList ops.n.toNat ops.body) :
    writeCommand ops s = s.statusFail .serviceOrList := by
  rw [writeCommand, if_neg (not_not.mpr hm), if_neg (by simp [(blockCountOk_iff _).mpr hn]), parseList_eq_none hl]

variable {es : List BlockElement} {rest : List Byte} (hlen : es.length = ops.n.toNat) (hbody : ops.body = listBytes es ++ rest)
include hlen hbody

/-- The length check comes before any block is written, and logs nothing (R270, R272). -/
theorem writeCommand_of_badLength (hrest : rest.length ≠ 16 * ops.n.toNat) : writeCommand ops s = s.noResponse := by
  rw [writeCommand, if_neg (not_not.mpr hm), if_neg (by simp [(blockCountOk_iff _).mpr hn]), hbody, ← hlen,
    parseList_listBytes]
  exact if_pos (by rw [List.length_append]; omega)

/-- A Write that passes its checks makes its calls (R270, R271). -/
theorem writeCommand_of_done (hrest : rest.length = 16 * ops.n.toNat) {t : State}
    (hdone : nvUpdates (planWrites ops.n.toNat (pairBlocks rest 0 (es.map BlockElement.number))).1 s = .done t) :
    writeCommand ops s =
      if (planWrites ops.n.toNat (pairBlocks rest 0 (es.map BlockElement.number))).2 then (t.putLength 12).statusOk.respond
      else t.statusFail .block := by
  rw [← hlen] at hdone hrest ⊢
  rw [writeCommand, if_neg (not_not.mpr hm), if_neg (by simp [(blockCountOk_iff _).mpr hn]), hbody, ← hlen,
    parseList_listBytes]
  simp only [List.length_append, List.drop_left, hdone]
  exact if_neg (by omega)

end

/-- A Write that fails a check before its blocks: a status failure with that check's flag2 (R270, R333). -/
theorem writeCommand_of_failure {ops : WriteOps} {flag2 : Byte} (h : WriteFailure ops flag2) (s : State) :
    ∃ f, writeCommand ops s = s.statusFail f ∧ f.flag2 = flag2 := by
  rcases h with ⟨hm, rfl⟩ | ⟨hm, hn, rfl⟩ | ⟨hm, hn, hl, rfl⟩
  · exact ⟨.serviceCount, writeCommand_of_serviceCount hm, rfl⟩
  · exact ⟨.blockCount, writeCommand_of_blockCount hm hn, rfl⟩
  · exact ⟨.serviceOrList, writeCommand_of_badList hm hn hl, rfl⟩

/-- Settles O57: the first failing check ends the Write behind the header; a wrong length ends it in silence. -/
theorem writeFailureReply : Obligations.WriteFailureReply := by
  intro s idm ops ha
  refine ⟨fun flag2 hfail => ?_, fun hm hn es rest hlen hbody hrest => ?_⟩
  · obtain ⟨f, he, rfl⟩ := writeCommand_of_failure hfail (s.putHeader 0x08 idm)
    have hheader := s.rspOnly_putHeader 0x08 idm
    exact ⟨_, congrArg Host.Outcome.next ((addressed_of_match ha).trans he),
      failsWith_statusFail (s.hasHeader_putHeader 0x08 idm) hheader.packet f, (statusFrame_statusFail hheader f).1⟩
  · exact ⟨_, congrArg Host.Outcome.next ((addressed_of_match ha).trans (writeCommand_of_badLength hm hn hlen hbody hrest)),
      silentAfterHeader_noResponse s 0x08 idm⟩

/-! ### A Write of a list and its data -/

/-- A Write that passes its checks answers after its calls (R270, R271). -/
theorem exec_write_done {s t : State} {idm : Bytes 8} {svc : Code} {es : List BlockElement} {vs : List Block}
    (ha : s.AddressedBy idm) (h1 : 1 ≤ es.length) (h12 : es.length ≤ 12) (hv : vs.length = es.length)
    (hdone : nvUpdates (updatesOf es vs) (s.putHeader 0x08 idm) = .done t) :
    exec (.write (.full idm (writeOf svc es vs))) s =
      .next (if (planWrites es.length (writesOf es vs)).2 then (t.putLength 12).statusOk.respond else t.statusFail .block) := by
  have hn : (writeOf svc es vs).n.toNat = es.length := Nat.mod_eq_of_lt (by omega)
  have hpairs : pairBlocks (vs.flatMap Sized.toList) 0 (es.map BlockElement.number) = writesOf es vs :=
    pairBlocks_flatMap [] vs _ (by simpa using hv)
  rw [updatesOf, ← hpairs, ← hn] at hdone
  rw [← hpairs, ← hn]
  have hcount : CountOk (writeOf svc es vs).n := by rw [CountOk, hn]; exact ⟨h1, h12⟩
  exact congrArg Host.Outcome.next ((addressed_of_match ha).trans
    (writeCommand_of_done rfl hcount hn.symm rfl (by rw [length_flatMap_blocks, hv, hn]) hdone))

/-- Where the store answers, a Write ends after all its calls (R66, R271). -/
theorem exec_write_stored {s : State} {idm : Bytes 8} {svc : Code} {es : List BlockElement} {vs : List Block} {us : List NvWrite}
    {complete : Bool} (ha : s.AddressedBy idm) (hs : s.StoreAnswers) (h1 : 1 ≤ es.length) (h12 : es.length ≤ 12)
    (hv : vs.length = es.length) (hplan : planWrites es.length (writesOf es vs) = (us, complete)) :
    ∃ store rst, exec (.write (.full idm (writeOf svc es vs))) s =
      .next (if complete then ((((s.putHeader 0x08 idm).afterUpdates us store rst).putLength 12).statusOk).respond
        else ((s.putHeader 0x08 idm).afterUpdates us store rst).statusFail .block) := by
  have hs' : (s.putHeader 0x08 idm).StoreAnswers := hs
  have hdone := nvUpdates_of_storeAnswers (updatesOf es vs) hs'
  have hexec := exec_write_done (svc := svc) ha h1 h12 hv hdone
  rw [updatesOf, hplan] at hexec
  exact ⟨_, _, hexec⟩

/-- The reply of a Write that is complete (R270). -/
theorem writeOk_replies {u : State} {code : Byte} {idm : Bytes 8} (h : u.HasHeader code idm) :
    ((u.putLength 12).statusOk).respond.Replies ([12, code + 1] ++ idm.toList ++ [0x00, 0x00]) := by
  have hflags := Sized.has_overlay_append (pos := 10) (xs := [0x00, 0x00]) (h.has_replyHeader 12) (by simp)
    (by simp [Config.packetBuf])
  exact State.replies_respond (s := (u.putLength 12).statusOk) hflags (by simp) (by decide)

/-! ### Real blocks among the blocks of a Write -/

/-- The writes that name a real block (R311). -/
def realWrites (writes : List (Byte × Block)) : List (Byte × Block) := writes.filter fun w => w.1.toNat < 12

theorem toNat_lt_of_mem_realWrites {writes : List (Byte × Block)} {w : Byte × Block} (h : w ∈ realWrites writes) :
    w.1.toNat < 12 := by
  simpa using List.of_mem_filter h

/-- A no-op block is no data for a real one (R315). -/
theorem lastFor_realWrites {b : Nat} (hb : b < 12) (writes : List (Byte × Block)) :
    lastFor b (realWrites writes) = lastFor b writes := by
  induction writes with
  | nil => rfl
  | cons w writes ih =>
    by_cases hw : w.1.toNat < 12
    · have hcons : realWrites (w :: writes) = w :: realWrites writes := List.filter_cons_of_pos (by simpa using hw)
      rw [hcons, lastFor, lastFor, ih]
    · have hcons : realWrites (w :: writes) = realWrites writes := List.filter_cons_of_neg (by simpa using hw)
      rw [hcons, lastFor, ih, if_neg (by omega)]
      cases lastFor b writes <;> rfl

/-- Storing the real blocks of a list stores the list (R71, R311, R315). -/
theorem storedBlocks_realWrites (m : Memory) (writes : List (Byte × Block)) :
    StoredBlocks m (m.writeBlocks (realWrites writes)) writes := by
  intro a
  rw [storedBlocks_writeBlocks m (fun w => toNat_lt_of_mem_realWrites) a]
  split
  · next ha => rw [lastFor_realWrites (by omega)]
  · rfl

/-- Real and no-op blocks at the start of a plan: one call for each real one (R311, R315). -/
theorem planWrites_append {n : Nat} {writes : List (Byte × Block)} (h : ∀ w ∈ writes, AlwaysWritable w.1)
    (later : List (Byte × Block)) :
    planWrites n (writes ++ later) =
      ((realWrites writes).map blockUpdate ++ (planWrites n later).1, (planWrites n later).2) := by
  induction writes with
  | nil => rfl
  | cons w writes ih =>
    obtain ⟨hw, hrest⟩ := List.forall_mem_cons.mp h
    by_cases hreal : w.1.toNat < 12
    · have hcall : memWrite w.1 w.2 n = some [blockUpdate w] := if_pos hreal
      have hcons : realWrites (w :: writes) = w :: realWrites writes := List.filter_cons_of_pos (by simpa using hreal)
      rw [List.cons_append, planWrites, hcall, ih hrest, hcons]
      rfl
    · have hcons : realWrites (w :: writes) = realWrites writes := List.filter_cons_of_neg (by simpa using hreal)
      rw [List.cons_append, planWrites, memWrite_of_noop (hw.resolve_left hreal), ih hrest, hcons]
      rfl

theorem foldl_blockUpdate_cs (writes : List (Byte × Block)) (s : State) :
    ((writes.map blockUpdate).foldl State.nvUpdate s).cs = { s.cs with blk := s.cs.blk.writeBlocks writes } := by
  induction writes generalizing s with
  | nil => rfl
  | cons w writes ih => exact ih (s.nvUpdate (blockUpdate w))

/-- The state after block updates (R66, R311). -/
theorem afterUpdates_blockUpdate (s : State) (writes : List (Byte × Block)) (store rst : List Bool) :
    s.afterUpdates (writes.map blockUpdate) store rst =
      { s with cs := { s.cs with blk := s.cs.blk.writeBlocks writes }, nv := { s.nv with blk := s.nv.blk.writeBlocks writes },
               env := { s.env with store := store, rst := rst } } := by
  rw [State.afterUpdates, State.foldl_nvUpdate_frame, foldl_blockUpdate_nv, foldl_blockUpdate_cs]
  rfl

theorem alwaysWritable_of_mem_writesOf {es : List BlockElement} {vs : List Block} (h : ∀ e ∈ es, AlwaysWritable e.number)
    {w : Byte × Block} (hw : w ∈ writesOf es vs) : AlwaysWritable w.1 := by
  obtain ⟨e, he, hnumber⟩ := List.mem_map.mp (List.of_mem_zip hw).1
  exact hnumber ▸ h e he

/-- Settles O55: the plan is the calls of the real blocks, all of which are answered. -/
theorem writeBlocksReply : Obligations.WriteBlocksReply := by
  intro s idm svc es vs ha hs h1 h12 hv hes
  have hplan : planWrites es.length (writesOf es vs) = ((realWrites (writesOf es vs)).map blockUpdate, true) := by
    have happend := planWrites_append (n := es.length) (fun w => alwaysWritable_of_mem_writesOf (vs := vs) hes (w := w)) []
    simpa [planWrites] using happend
  obtain ⟨store, rst, he⟩ := exec_write_stored (svc := svc) ha hs h1 h12 hv hplan
  have hheader := (s.hasHeader_putHeader 0x08 idm).afterUpdates ((realWrites (writesOf es vs)).map blockUpdate) store rst
  have hreply := writeOk_replies hheader
  rw [afterUpdates_blockUpdate] at he hreply
  exact ⟨_, he, hreply, ⟨rfl, rfl⟩, rfl, storedBlocks_realWrites _ _, storedBlocks_realWrites _ _⟩

/-! ### A Write that meets an unwritable block -/

/-- The writes of a list's first part take the first data (R98). -/
theorem writesOf_append (before after : List BlockElement) (vs : List Block) :
    writesOf (before ++ after) vs = writesOf before vs ++ writesOf after (vs.drop before.length) := by
  induction before generalizing vs with
  | nil => rfl
  | cons e before ih =>
    cases vs with
    | nil => simp [writesOf]
    | cons v vs => exact congrArg ((e.number, v) :: ·) (ih vs)

/-- A plan ends at its first unwritable block (R271). -/
theorem planWrites_of_unwritable {n : Nat} {e : BlockElement} (h : ¬ Writable e.number n) (after : List BlockElement)
    {vs : List Block} (hv : vs ≠ []) : planWrites n (writesOf (e :: after) vs) = ([], false) := by
  match vs, hv with
  | v :: vs, _ =>
    have hcons : writesOf (e :: after) (v :: vs) = (e.number, v) :: writesOf after vs := rfl
    rw [hcons, planWrites, memWrite_of_not_writable h]

/-- Beside another block, what is writable is always writable (R312 to R314). -/
theorem alwaysWritable_of_writable {b : Byte} {n : Nat} (h : Writable b n) (hn : n ≠ 1) : AlwaysWritable b :=
  h.resolve_right fun ⟨h1, _⟩ => hn h1

/-- A failure status after block updates (R261, R271). -/
theorem writeFrame_statusFail (s : State) (rsp : Bytes Config.packetBuf) (card image : Memory) (store rst : List Bool)
    (f : StatusFailure) :
    WriteFrame s (State.statusFail
      { s with rsp := rsp, cs := { s.cs with blk := card }, nv := { s.nv with blk := image },
               env := { s.env with store := store, rst := rst } } f) :=
  ⟨rfl, State.logError_slot _⟩

/-- Settles O58: the plan is the calls of the real blocks before the unwritable one, and it is not complete. -/
theorem writeStopsAtUnwritable : Obligations.WriteStopsAtUnwritable := by
  intro s idm svc before e after vs ha hs h12 hv hbefore he
  have hlen : (before ++ e :: after).length = before.length + after.length + 1 := by simp; omega
  have hfirst : ∀ d ∈ before, AlwaysWritable d.number := by
    intro d hd
    have hpos := List.length_pos_of_mem hd
    exact alwaysWritable_of_writable (hbefore d hd) (by omega)
  have hdata : vs.drop before.length ≠ [] := by
    rw [← List.length_pos_iff, List.length_drop]
    omega
  have hplan : planWrites (before ++ e :: after).length (writesOf (before ++ e :: after) vs) =
      ((realWrites (writesOf before vs)).map blockUpdate, false) := by
    rw [writesOf_append, planWrites_append fun w => alwaysWritable_of_mem_writesOf hfirst,
      planWrites_of_unwritable he after hdata, List.append_nil]
  obtain ⟨store, rst, hexec⟩ := exec_write_stored (svc := svc) ha hs (by omega) h12 hv hplan
  have hheader := (s.hasHeader_putHeader 0x08 idm).afterUpdates ((realWrites (writesOf before vs)).map blockUpdate) store rst
  have hfails := failsWith_statusFail (s := s) hheader (by rw [afterUpdates_blockUpdate]; rfl) .block
  rw [afterUpdates_blockUpdate] at hexec hfails
  exact ⟨_, hexec, hfails, writeFrame_statusFail s _ _ _ store rst .block, storedBlocks_realWrites _ _,
    storedBlocks_realWrites _ _⟩

/-! ### A Write of the identity or of a table -/

/-- The first half of an identity payload (R313). -/
theorem ofList_take_eight (v : Block) : Bytes.ofList 8 (v.toList.take 8) = Bytes.ofList 8 (v.toList.drop 0) := by
  refine Sized.eq_of_toList ?_
  rw [List.drop_zero, Bytes.toList_ofList_of_length (by simp), Bytes.ofList, Sized.toList_ofListD, List.take_append_of_le_length (by simp)]

/-- The two calls of an identity payload, both done (R66, R313). -/
theorem afterUpdates_identity (s : State) (idm pmm : Bytes 8) (store rst : List Bool) :
    s.afterUpdates [.idm idm, .pmm pmm] store rst =
      { s with cs := { s.cs with idm := idm, pmm := pmm }, nv := { s.nv with idm := idm, pmm := pmm },
               env := { s.env with store := store, rst := rst } } := rfl

/-- The call of a Service Table payload, done (R66, R314). -/
theorem afterUpdates_svc (s : State) (T : CodeTable) (store rst : List Bool) :
    s.afterUpdates [.svc T] store rst =
      { s with cs := { s.cs with svc := T }, nv := { s.nv with svc := T },
               env := { s.env with store := store, rst := rst } } := rfl

/-- The call of a System Table payload, done (R66, R314). -/
theorem afterUpdates_sys (s : State) (T : CodeTable) (store rst : List Bool) :
    s.afterUpdates [.sys T] store rst =
      { s with cs := { s.cs with sys := T }, nv := { s.nv with sys := T },
               env := { s.env with store := store, rst := rst } } := rfl

/-- Settles O56: the plan is the one or two calls of the block, all of which are answered. -/
theorem writeIdentityAndTables : Obligations.WriteIdentityAndTables := by
  intro s idm svc e v ha hs he
  have hwrites : writesOf [e] [v] = [(e.number, v)] := rfl
  obtain ⟨us, hus⟩ : ∃ us, memWrite e.number v 1 = some us := by
    rcases he with he | he | he <;> rw [he] <;> exact ⟨_, rfl⟩
  have hplan : planWrites [e].length (writesOf [e] [v]) = (us, true) := by
    simp [hwrites, planWrites, hus]
  obtain ⟨store, rst, hexec⟩ := exec_write_stored (svc := svc) (es := [e]) (vs := [v]) ha hs (by simp) (by simp) rfl hplan
  have hheader := (s.hasHeader_putHeader 0x08 idm).afterUpdates us store rst
  rw [if_pos rfl] at hexec
  refine ⟨_, hexec, writeOk_replies hheader, ?_⟩
  rcases he with he | he | he <;> rw [he] at hus ⊢ <;> cases hus
  · rw [ofList_take_eight, afterUpdates_identity]
    exact (if_pos rfl).symm
  · rw [afterUpdates_svc]
    exact ((if_neg (by decide)).trans (if_pos rfl)).symm
  · rw [afterUpdates_sys]
    exact ((if_neg (by decide)).trans (if_neg (by decide))).symm

end Sys2Proof.Machine

/-! Calls that are never answered (70_reset_and_hazards.md R374; 41_frame_capture.md R145). -/

namespace Sys2Proof.Machine

/-! ### A CORE that waits -/

/-- `s` after `k` boundaries at which nothing but the reset schedule moved. -/
def State.idle (s : State) (k : Nat) : State := { s with env := { s.env with rst := s.env.rst.drop k } }

theorem State.idle_passBoundary (s : State) (k : Nat) : (s.passBoundary).idle k = s.idle (k + 1) := by
  simp [State.idle, State.passBoundary, List.drop_tail]

/-- Where every step without a reset only passes its boundary, so does every run. -/
theorem reaches_idle {stuck : State → Prop} (hkeep : ∀ s, stuck s → stuck s.passBoundary)
    (hstep : ∀ s, stuck s → s.NoReset → step s = .next s.passBoundary) (k : Nat) {s : State} (h : stuck s) (hr : s.NoReset) :
    Reaches k s (s.idle k) := by
  induction k generalizing s with
  | zero => exact .refl s
  | succ k ih =>
    rw [← State.idle_passBoundary]
    exact .cons (hstep s h hr) (ih (hkeep s h) fun hm => hr (List.mem_of_mem_tail hm))

theorem State.rstNow_of_noReset {s : State} (h : s.NoReset) : s.rstNow = false := by
  by_contra hr
  exact h (State.mem_of_rstNow (by simpa using hr))

/-- A call that is never answered leaves every register as it is, however long (R374). -/
theorem reaches_of_waiting (k : Nat) {s : State} (hw : s.waiting = true) (hr : s.NoReset) : Reaches k s (s.idle k) :=
  reaches_idle (stuck := fun s => s.waiting = true) (fun _ => id)
    (fun _ hw hr => step_of_waiting (State.rstNow_of_noReset hr) hw) k hw hr

/-- With no sample left the CORE waits in CAPTURE (R145). -/
theorem reaches_of_noSamples (k : Nat) {s : State} (hw : s.waiting = false) (hq : s.seq = .capture) (he : s.env.samples = [])
    (hr : s.NoReset) : Reaches k s (s.idle k) := by
  refine reaches_idle (stuck := fun s => s.waiting = false ∧ s.seq = .capture ∧ s.env.samples = []) (fun _ => id) ?_ k
    ⟨hw, hq, he⟩ hr
  rintro s ⟨hw, hq, he⟩ hr
  have hempty : s.passBoundary.env.samples = [] := he
  rw [step_capture (State.runs_of_noReset hr hw) hq, captureStep, hempty]

/-! ### A sink that takes no byte -/

theorem transmitStep_of_unanswered {s : State} {b : Byte} {rest : List TxAction} {later : List Bool}
    (ht : s.tx = some (.emit b :: rest)) (hs : s.env.sink = false :: later) :
    transmitStep s = { s with waiting := true, env := { s.env with sink := later } } := by
  have hemit : transmitStep s = emitSymbol b rest s := by rw [transmitStep, ht]
  rw [hemit, emitSymbol, hs]
  rfl

/-! ### A store that does not answer an update -/

/-- Call `k + 1` is not answered: the first `k` updates are done, and the CORE waits (R66, R374). -/
theorem nvUpdates_of_unanswered {us : List NvWrite} {s : State} {k : Nat} {later : List Bool} (hr : s.NoReset)
    (hk : k < us.length) (hs : s.env.store = List.replicate k true ++ false :: later) :
    nvUpdates us s = .cut (s.afterUpdates (us.take k) later (s.env.rst.drop k)).hang := by
  induction k generalizing us s with
  | zero =>
    match us, hk with
    | u :: us, _ =>
      have hans : takeAnswers 1 s.env.store = (false, later) := by rw [hs]; rfl
      rw [nvUpdates, hans]
      rfl
  | succ k ih =>
    match us, hk with
    | u :: u' :: us, hk =>
      have hans : takeAnswers 1 s.env.store = (true, List.replicate k true ++ false :: later) := by rw [hs]; rfl
      have hrest := ih (us := u' :: us)
        (s := (s.nvUpdate u).withSchedules (List.replicate k true ++ false :: later) s.env.rst.tail)
        (fun hm => hr (List.mem_of_mem_tail hm)) (by simpa using hk) rfl
      rw [nvUpdates_cons_answered hans (State.rstNow_of_noReset hr), hrest, State.afterUpdates_cons, State.withSchedules,
        List.drop_tail]
      rfl

/-- A Write of which an update is not answered: those before it are done, and the CORE waits (R374). -/
theorem exec_write_unanswered {s : State} {idm : Bytes 8} {svc : Code} {es : List BlockElement} {vs : List Block} {k : Nat}
    {us : List NvWrite} {later : List Bool} (ha : s.AddressedBy idm) (hr : s.NoReset) (h12 : es.length ≤ 12)
    (hv : vs.length = es.length) (hplan : updatesOf es vs = us) (h1 : 1 ≤ es.length) (hk : k < us.length)
    (hs : s.env.store = List.replicate k true ++ false :: later) :
    ∃ rsp, exec (.write (.full idm (writeOf svc es vs))) s =
      .next { (s.afterUpdates (us.take k) later (s.env.rst.drop k)).hang with rsp := rsp } := by
  refine ⟨(s.putHeader 0x08 idm).rsp, exec_write_cut ha h1 h12 hv ?_⟩
  rw [hplan, nvUpdates_of_unanswered (s := s.putHeader 0x08 idm) hr hk hs, State.putHeader, State.putRsp, afterUpdates_rsp]
  rfl

/-- The blocks of identity and tables take at least one call in a single-block Write (R313, R314). -/
theorem updatesOf_single {e : BlockElement} (h : e.number = 0x83 ∨ e.number = 0x84 ∨ e.number = 0x85) (v : Block) :
    0 < (updatesOf [e] [v]).length := by
  have hwrites : writesOf [e] [v] = [(e.number, v)] := rfl
  rw [updatesOf, hwrites]
  rcases h with h | h | h <;> rw [h] <;> exact Nat.succ_pos _

theorem updatesOf_identity {e : BlockElement} (h : e.number = 0x83) (v : Block) :
    updatesOf [e] [v] = [.idm (Bytes.ofList 8 (v.toList.take 8)), .pmm (Bytes.ofList 8 (v.toList.drop 8))] := by
  have hwrites : writesOf [e] [v] = [(e.number, v)] := rfl
  rw [updatesOf, hwrites, h]
  rfl

theorem real_of_mem_writesOf {es : List BlockElement} {vs : List Block} (h : ∀ e ∈ es, e.number.toNat < 12)
    {w : Byte × Block} (hw : w ∈ writesOf es vs) : w.1.toNat < 12 := by
  obtain ⟨e, he, hnumber⟩ := List.mem_map.mp (List.of_mem_zip hw).1
  exact hnumber ▸ h e he

/-- A Write of real blocks of which update `k + 1` is not answered (R311, R374). -/
theorem blockWrite_unanswered {s : State} {idm : Bytes 8} (svc : Code) {es : List BlockElement} {vs : List Block} {k : Nat}
    {later : List Bool} (ha : s.AddressedBy idm) (hr : s.NoReset) (h12 : es.length ≤ 12) (hv : vs.length = es.length)
    (hes : ∀ e ∈ es, e.number.toNat < 12) (hk : k < es.length) (hs : s.env.store = List.replicate k true ++ false :: later) :
    ∃ rsp, exec (.write (.full idm (writeOf svc es vs))) s =
      .next { s with
        rsp := rsp, waiting := true
        cs := { s.cs with blk := s.cs.blk.writeBlocks ((writesOf es vs).take k) }
        nv := { s.nv with blk := s.nv.blk.writeBlocks ((writesOf es vs).take k) }
        env := { s.env with store := later, rst := s.env.rst.drop k } } := by
  have hplan : updatesOf es vs = (writesOf es vs).map blockUpdate :=
    congrArg Prod.fst (planWrites_of_real _ fun _ => real_of_mem_writesOf hes)
  have hlen : ((writesOf es vs).map blockUpdate).length = es.length := by simp [writesOf, hv]
  obtain ⟨rsp, h⟩ := exec_write_unanswered (svc := svc) ha hr h12 hv hplan (by omega) (hlen ▸ hk) hs
  rw [← List.map_take, afterUpdates_blockUpdate] at h
  exact ⟨rsp, h⟩

/-- Settles O60: the waits one by one; in each the CORE stays as it is, since a step of a waiting CORE only passes its boundary. -/
theorem unansweredCallsWaitForReset : Obligations.UnansweredCallsWaitForReset := by
  refine ⟨fun s hw => ⟨fun hr m => reaches_of_waiting m hw hr, fun hr => ⟨_, step_of_rstNow hr, rfl, rfl, rfl⟩⟩,
    fun s hw hr hq he m => reaches_of_noSamples m hw hq he hr, fun s hr hq hs => ?load, fun s b rest later hr hq ht hs => ?transmit,
    fun s idm svc ha hr hq hvalid => ⟨fun e v later he hs => ?first, fun e v later he hs => ?second,
      fun es vs k later h12 hv hes hk hs => ?blocks⟩⟩
  case load =>
    obtain ⟨store, h⟩ := loadStep_of_unanswered (s := s.passBoundary) hs
    exact ⟨_, step_load hr hq, by rw [h]; rfl⟩
  case transmit =>
    rw [step_transmit hr hq, transmitStep_of_unanswered (s := s.passBoundary) ht hs]
    rfl
  case first =>
    obtain ⟨rsp, h⟩ := exec_write_unanswered (svc := svc) (es := [e]) (vs := [v]) (k := 0) ha hr (by simp) rfl rfl (by simp)
      (updatesOf_single he v) hs
    exact ⟨_, h, rfl⟩
  case second =>
    obtain ⟨rsp, h⟩ := exec_write_unanswered (svc := svc) (es := [e]) (vs := [v]) (k := 1) ha hr (by simp) rfl
      (updatesOf_identity he v) (by simp) (by simp) hs
    refine ⟨_, h, ?_⟩
    rw [List.drop_one]
    rfl
  case blocks =>
    obtain ⟨rsp, h⟩ := blockWrite_unanswered svc ha hr h12 hv hes hk hs
    have hreal : ∀ w ∈ (writesOf es vs).take k, w.1.toNat < 12 := fun w hw => real_of_mem_writesOf hes (List.mem_of_mem_take hw)
    refine ⟨_, h, storedBlocks_writeBlocks _ hreal, storedBlocks_writeBlocks _ hreal, hq, hvalid, fun m => ⟨_, ?_, rfl⟩⟩
    exact reaches_of_waiting m rfl fun hm => hr (List.mem_of_mem_drop hm)

end Sys2Proof.Machine
